-- ==== Sys2Proof/Word.lean ====
section
/-! DEFINITION. The machine's two word types: a byte, and a 16-bit address or program counter value. -/

namespace Sys2Proof

/-- The width of A, X, Y, S, P and of every memory cell (R9, R30). -/
abbrev Byte := BitVec 8

/-- The width of PC and of an address (R9, R70). -/
abbrev Word := BitVec 16

end Sys2Proof
end

