-- ==== Sys2Proof/Config.lean ====
section
/-! DEFINITION. What spec/ leaves as a parameter of the hardware (R9) and its one free value (R81). -/

namespace Sys2Proof

/-- The named parameters of R9. The decoder, the meanings and the step take a `Config` as an argument
(`Sys2Proof.Machine.execWith`, `Sys2Proof.Machine.stepWith`). `Sys2Proof.Machine.exec` and `Sys2Proof.Machine.step` are
these at the defaults, `Sys2Proof.Machine.hardware`. END_OF_RUN and PRG_RAM_INIT are arguments of `runUntil` and of `powerOn`. -/
structure Config where
  /-- `IRQ_ENTRY_SETS_I` (R418). -/
  irqEntrySetsI : Bool
  /-- `NMI_ENTRY_SETS_I` (R417). -/
  nmiEntrySetsI : Bool
  /-- `BRK_SETS_I` (R298). -/
  brkSetsI : Bool
  /-- `BRK_CLEARS_D` (R298). -/
  brkClearsD : Bool
  /-- `RMW_PAGE_PENALTY` (R154). -/
  rmwPagePenalty : Bool
  /-- `EB_IS_SBC` (R361). -/
  ebIsSbc : Bool
  /-- `CycleCost` (R153). -/
  cycleCost : Byte → Nat

/-- `IO_READ(addr)` (R81): the byte that the read number `draw` of the open band 0x4000-0x401F returns.
A free value: it has no body, and the draw number is `State.draws`, so every read is a fresh draw
(DESIGN CHOICE, safe; log 3). -/
opaque Config.ioRead (addr : Word) (draw : Nat) : Byte

end Sys2Proof
end

