-- ==== Sys2Proof/Machine/Params.lean ====
section
/-! DEFINITION. The parameters' values and what follows from them: the cycle-cost table (R153), the penalty-bearing
opcodes (R154), and the defaults of R9. -/

namespace Sys2Proof.Machine

/-- `CycleCost`, the base cycle cost of each opcode byte (R153): row = high nibble, column = low nibble. -/
def cycleRows : List (List Nat) :=
  [[7, 6, 2, 8, 3, 3, 5, 5, 3, 2, 2, 2, 4, 4, 6, 6],
   [2, 5, 2, 8, 4, 4, 6, 6, 2, 4, 2, 7, 4, 4, 7, 7],
   [6, 6, 2, 8, 3, 3, 5, 5, 4, 2, 2, 2, 4, 4, 6, 6],
   [2, 5, 2, 8, 4, 4, 6, 6, 2, 4, 2, 7, 4, 4, 7, 7],
   [6, 6, 2, 8, 3, 3, 5, 5, 3, 2, 2, 2, 3, 4, 6, 6],
   [2, 5, 2, 8, 4, 4, 6, 6, 2, 4, 2, 7, 4, 4, 7, 7],
   [6, 6, 2, 8, 3, 3, 5, 5, 4, 2, 2, 2, 5, 4, 6, 6],
   [2, 5, 2, 8, 4, 4, 6, 6, 2, 4, 2, 7, 4, 4, 7, 7],
   [2, 6, 2, 6, 3, 3, 3, 3, 2, 2, 2, 2, 4, 4, 4, 4],
   [2, 6, 2, 6, 4, 4, 4, 4, 2, 5, 2, 5, 5, 5, 5, 5],
   [2, 6, 2, 6, 3, 3, 3, 3, 2, 2, 2, 2, 4, 4, 4, 4],
   [2, 5, 2, 5, 4, 4, 4, 4, 2, 4, 2, 4, 4, 4, 4, 4],
   [2, 6, 2, 8, 3, 3, 5, 5, 2, 2, 2, 2, 4, 4, 6, 6],
   [2, 5, 2, 8, 4, 4, 6, 6, 2, 4, 2, 7, 4, 4, 7, 7],
   [2, 6, 2, 8, 3, 3, 5, 5, 2, 2, 2, 2, 4, 4, 6, 6],
   [2, 5, 2, 8, 4, 4, 6, 6, 2, 4, 2, 7, 4, 4, 7, 7]]

/-- The cost of an opcode byte in `cycleRows`. -/
def cycleCost (op : Byte) : Nat :=
  ((cycleRows.getD (op.toNat / 16) []).getD (op.toNat % 16) 0)

/-- The 31 penalty-bearing opcodes: the read instructions in the modes abs,X, abs,Y and (zp),Y (R154). -/
def readPenaltyOpcodes : List Byte :=
  [0x11, 0x19, 0x1C, 0x1D, 0x31, 0x39, 0x3C, 0x3D, 0x51, 0x59, 0x5C, 0x5D, 0x71, 0x79, 0x7C, 0x7D,
   0xB1, 0xB3, 0xB9, 0xBC, 0xBD, 0xBE, 0xBF, 0xD1, 0xD9, 0xDC, 0xDD, 0xF1, 0xF9, 0xFC, 0xFD]

/-- The read-modify-write opcodes in the modes abs,X, abs,Y and (zp),Y, which pay the penalty only when
`RMW_PAGE_PENALTY` is true (R154). -/
def rmwIndexedOpcodes : List Byte :=
  [0x13, 0x1B, 0x1E, 0x1F, 0x33, 0x3B, 0x3E, 0x3F, 0x53, 0x5B, 0x5E, 0x5F, 0x73, 0x7B, 0x7E, 0x7F,
   0xD3, 0xDB, 0xDE, 0xDF, 0xF3, 0xFB, 0xFE, 0xFF]

/-- The opcode is penalty-bearing (R154). -/
def penaltyBearing (cfg : Config) (op : Byte) : Bool :=
  readPenaltyOpcodes.contains op || (cfg.rmwPagePenalty && rmwIndexedOpcodes.contains op)

/-- The parameters at their defaults (R9, decided in 92_eei_decisions.md D4, D5, D6, D12, D13, D20;
DESIGN CHOICE, unsafe, log 7). -/
def hardware : Config where
  irqEntrySetsI := true
  nmiEntrySetsI := false
  brkSetsI := true
  brkClearsD := true
  rmwPagePenalty := false
  ebIsSbc := true
  cycleCost := cycleCost

end Sys2Proof.Machine
end

