-- ==== Sys2Proof/Syntax.lean ====
section
/-! DEFINITION. The instructions: the thirteen addressing modes, the operand forms, and one constructor for
each operation kind of the opcode table (R158). -/

namespace Sys2Proof

/-- "the thirteen addressing modes" (R121). -/
inductive Mode where
  | imp | acc | imm | zp | zpx | zpy | abs | abx | aby | rel | izx | izy | ind
  deriving DecidableEq, Repr

/-- An addressing mode with the operand bytes it consumes (R121, R122); the two bytes of an absolute
operand are already assembled as `hi:lo`. -/
inductive Operand where
  /-- Implied: no byte. -/
  | imp
  /-- Accumulator: no byte. -/
  | acc
  /-- Immediate: the operand value. -/
  | imm (v : Byte)
  /-- Zero Page. -/
  | zp (b : Byte)
  /-- Zero Page,X. -/
  | zpx (b : Byte)
  /-- Zero Page,Y. -/
  | zpy (b : Byte)
  /-- Absolute. -/
  | abs (w : Word)
  /-- Absolute,X. -/
  | abx (w : Word)
  /-- Absolute,Y. -/
  | aby (w : Word)
  /-- Relative: the signed branch offset. -/
  | rel (b : Byte)
  /-- (Ind,X): the pointer's base. -/
  | izx (b : Byte)
  /-- (Ind),Y: the pointer. -/
  | izy (b : Byte)
  /-- Absolute Indirect: the pointer. -/
  | ind (w : Word)
  deriving DecidableEq, Repr

/-- An instruction. A row of spec/opcode_table.json is a constructor applied to the operand form of the row's
mode. The rows of DOP, TOP and DEFAULT-NOP also carry their opcode byte, because several bytes share one form;
0xEB, the second byte of SBC immediate, has a constructor of its own (DESIGN CHOICE, safe; log 1). -/
inductive Instr where
  -- 42_arith_logic_compare.md, and 0xEB of 47_undocumented.md
  | adc (m : Operand)
  | sbc (m : Operand)
  | sbcEB (v : Byte)
  | and (m : Operand)
  | ora (m : Operand)
  | eor (m : Operand)
  | bit (m : Operand)
  | cmp (m : Operand)
  | cpx (m : Operand)
  | cpy (m : Operand)
  -- 43_shift_incdec.md
  | asl (m : Operand)
  | lsr (m : Operand)
  | rol (m : Operand)
  | ror (m : Operand)
  | inc (m : Operand)
  | dec (m : Operand)
  | inx
  | iny
  | dex
  | dey
  -- 44_branch_jump.md
  | bpl (offset : Byte)
  | bmi (offset : Byte)
  | bvc (offset : Byte)
  | bvs (offset : Byte)
  | bcc (offset : Byte)
  | bcs (offset : Byte)
  | bne (offset : Byte)
  | beq (offset : Byte)
  | jmp (m : Operand)
  -- 45_stack_call_interrupt.md
  | pha
  | php
  | pla
  | plp
  | jsr (target : Word)
  | rts
  | rti
  | brk
  -- 46_transfer_flags.md
  | tax
  | tay
  | txa
  | tya
  | tsx
  | txs
  | sec
  | clc
  | sed
  | cld
  | sei
  | cli
  | clv
  -- 47_undocumented.md
  | lax (m : Operand)
  | sax (m : Operand)
  | dcp (m : Operand)
  | isc (m : Operand)
  | slo (m : Operand)
  | rla (m : Operand)
  | sre (m : Operand)
  | rra (m : Operand)
  | dop (op : Byte) (m : Operand)
  | top (op : Byte) (m : Operand)
  -- 48_load_store_nop.md and R155
  | lda (m : Operand)
  | ldx (m : Operand)
  | ldy (m : Operand)
  | sta (m : Operand)
  | stx (m : Operand)
  | sty (m : Operand)
  | nop
  | defaultNop (op : Byte)
  deriving DecidableEq, Repr

/-- The mode of an operand form. -/
def Operand.mode : Operand → Mode
  | .imp => .imp
  | .acc => .acc
  | .imm _ => .imm
  | .zp _ => .zp
  | .zpx _ => .zpx
  | .zpy _ => .zpy
  | .abs _ => .abs
  | .abx _ => .abx
  | .aby _ => .aby
  | .rel _ => .rel
  | .izx _ => .izx
  | .izy _ => .izy
  | .ind _ => .ind

/-- The operand of an instruction; `imp` where its mode is Implied. -/
def Instr.operand : Instr → Operand
  | .adc m | .sbc m | .and m | .ora m | .eor m | .bit m | .cmp m | .cpx m | .cpy m => m
  | .asl m | .lsr m | .rol m | .ror m | .inc m | .dec m => m
  | .lax m | .sax m | .dcp m | .isc m | .slo m | .rla m | .sre m | .rra m => m
  | .lda m | .ldx m | .ldy m | .sta m | .stx m | .sty m => m
  | .jmp m => m
  | .dop _ m | .top _ m => m
  | .sbcEB v => .imm v
  | .bpl b | .bmi b | .bvc b | .bvs b | .bcc b | .bcs b | .bne b | .beq b => .rel b
  | .jsr w => .abs w
  | .inx | .iny | .dex | .dey | .pha | .php | .pla | .plp | .rts | .rti | .brk => .imp
  | .tax | .tay | .txa | .tya | .tsx | .txs | .sec | .clc | .sed | .cld | .sei | .cli | .clv => .imp
  | .nop | .defaultNop _ => .imp

/-- The length of an instruction in bytes, by mode (R121). -/
def Mode.length : Mode → Nat
  | .imp | .acc => 1
  | .imm | .zp | .zpx | .zpy | .rel | .izx | .izy => 2
  | .abs | .abx | .aby | .ind => 3

/-- The length of an instruction in bytes: 1, 2 or 3 (R120). -/
def Instr.length (i : Instr) : Nat := i.operand.mode.length

end Sys2Proof
end

