-- ==== Sys2Proof/WellFormed.lean ====
section
/-! DEFINITION. Which terms of `Instr` are instructions: the modes and the opcode bytes that the rules of
42_ to 48_ give each operation. Written apart from the encoder, so that the two can be compared. -/

namespace Sys2Proof

/-- The eight modes of ADC, SBC, AND, ORA, EOR, CMP and LDA (R210-R214, R217, R390). -/
def aluModes : List Mode := [.imm, .zp, .zpx, .abs, .abx, .aby, .izx, .izy]

/-- The five modes of the shifts and rotates (R240-R243). -/
def shiftModes : List Mode := [.acc, .zp, .zpx, .abs, .abx]

/-- The seven modes of STA (R393) and of the read-modify-write composites (R353-R358). -/
def memoryModes : List Mode := [.zp, .zpx, .abs, .abx, .aby, .izx, .izy]

/-- The 31 opcode bytes without a dispatch entry (R126). -/
def undispatched : List Byte :=
  [0x02, 0x12, 0x22, 0x32, 0x42, 0x52, 0x62, 0x72, 0x92, 0xB2, 0xD2, 0xF2, 0x0B, 0x2B, 0x4B, 0x6B, 0x8B, 0xAB, 0xCB,
   0x93, 0x9F, 0x9B, 0x9C, 0x9E, 0xBB, 0x1A, 0x3A, 0x5A, 0x7A, 0xDA, 0xFA]

/-- The (mode, byte) pairs of DOP (R359). -/
def dopForms : List (Mode × Byte) :=
  [(.imm, 0x80), (.imm, 0x82), (.imm, 0x89), (.imm, 0xC2), (.imm, 0xE2), (.zp, 0x04), (.zp, 0x44), (.zp, 0x64),
   (.zpx, 0x14), (.zpx, 0x34), (.zpx, 0x54), (.zpx, 0x74), (.zpx, 0xD4), (.zpx, 0xF4)]

/-- The (mode, byte) pairs of TOP (R360). -/
def topForms : List (Mode × Byte) :=
  [(.abs, 0x0C), (.abx, 0x1C), (.abx, 0x3C), (.abx, 0x5C), (.abx, 0x7C), (.abx, 0xDC), (.abx, 0xFC)]

/-- The term is an instruction of this hardware: some opcode byte has its operation and its mode. -/
def Instr.wf (cfg : Config) : Instr → Bool
  | .adc m | .sbc m | .and m | .ora m | .eor m | .cmp m | .lda m => aluModes.contains m.mode
  | .sbcEB _ => cfg.ebIsSbc
  | .bit m => [Mode.zp, .abs].contains m.mode
  | .cpx m | .cpy m => [Mode.imm, .zp, .abs].contains m.mode
  | .asl m | .lsr m | .rol m | .ror m => shiftModes.contains m.mode
  | .inc m | .dec m => [Mode.zp, .zpx, .abs, .abx].contains m.mode
  | .inx | .iny | .dex | .dey => true
  | .bpl _ | .bmi _ | .bvc _ | .bvs _ | .bcc _ | .bcs _ | .bne _ | .beq _ => true
  | .jmp m => [Mode.abs, .ind].contains m.mode
  | .pha | .php | .pla | .plp | .jsr _ | .rts | .rti | .brk => true
  | .tax | .tay | .txa | .tya | .tsx | .txs | .sec | .clc | .sed | .cld | .sei | .cli | .clv => true
  | .lax m => [Mode.izx, .zp, .abs, .izy, .zpy, .aby].contains m.mode
  | .sax m => [Mode.izx, .zp, .abs, .zpy].contains m.mode
  | .dcp m | .isc m | .slo m | .rla m | .sre m | .rra m | .sta m => memoryModes.contains m.mode
  | .dop op m => dopForms.contains (m.mode, op)
  | .top op m => topForms.contains (m.mode, op)
  | .ldx m => [Mode.imm, .zp, .zpy, .abs, .aby].contains m.mode
  | .ldy m => [Mode.imm, .zp, .zpx, .abs, .abx].contains m.mode
  | .stx m => [Mode.zp, .zpy, .abs].contains m.mode
  | .sty m => [Mode.zp, .zpx, .abs].contains m.mode
  | .nop => true
  | .defaultNop op => undispatched.contains op || (op == 0xEB && !cfg.ebIsSbc)

end Sys2Proof
end

