-- ==== Sys2Proof/Decode.lean ====
section
/-! DEFINITION. The decoder, from the opcode map of R124, and after it the encoder, from the opcode lists that
the instruction rules of 42_ to 48_ give: two separate transcriptions of the spec. -/

namespace Sys2Proof

/-- The 16-bit value `hi:lo` (R10, R72). -/
def wordOf (lo hi : Byte) : Word := hi ++ lo

/-- The low byte of a 16-bit value (R72). -/
def loByte (w : Word) : Byte := w.extractLsb' 0 8

/-- The high byte of a 16-bit value, its page (R14, R72). -/
def hiByte (w : Word) : Byte := w.extractLsb' 8 8

/-- An entry of the opcode map (R123): the addressing mode of an opcode byte, and the instruction it makes of the
bytes 1 and 2 that follow it. A mode shorter than three bytes does not look at the bytes it does not consume. -/
structure Entry where
  mode : Mode
  make : Byte → Byte → Instr

/-- An entry of Implied mode. -/
def fixed (i : Instr) : Entry := ⟨.imp, fun _ _ => i⟩

/-- An entry of Relative mode: the offset byte (R121). -/
def rel8 (f : Byte → Instr) : Entry := ⟨.rel, fun b _ => f b⟩

/-- An entry of Immediate mode whose instruction has no other form (R361). -/
def imm8 (f : Byte → Instr) : Entry := ⟨.imm, fun b _ => f b⟩

/-- An entry of Absolute mode whose instruction has no other form (R295). -/
def addr16 (f : Word → Instr) : Entry := ⟨.abs, fun lo hi => f (wordOf lo hi)⟩

/-- A byte with no dispatch entry: the default no-op, one byte long (R126, R155). -/
def noEntry (op : Byte) : Entry := fixed (.defaultNop op)

/-- The operand form of a mode, from the bytes after the opcode (R121, R122). -/
def operandOf (m : Mode) (b1 b2 : Byte) : Operand :=
  match m with
  | .imp => .imp
  | .acc => .acc
  | .imm => .imm b1
  | .zp => .zp b1
  | .zpx => .zpx b1
  | .zpy => .zpy b1
  | .abs => .abs (wordOf b1 b2)
  | .abx => .abx (wordOf b1 b2)
  | .aby => .aby (wordOf b1 b2)
  | .rel => .rel b1
  | .izx => .izx b1
  | .izy => .izy b1
  | .ind => .ind (wordOf b1 b2)

/-- An entry whose instruction takes its operand form as an argument. -/
def form (m : Mode) (f : Operand → Instr) : Entry := ⟨m, fun b1 b2 => f (operandOf m b1 b2)⟩

/-- R124, the row 0x of the map. -/
def mapRow0 : List Entry :=
  [fixed .brk, form .izx .ora, noEntry 0x02, form .izx .slo,
   form .zp (.dop 0x04), form .zp .ora, form .zp .asl, form .zp .slo,
   fixed .php, form .imm .ora, form .acc .asl, noEntry 0x0B,
   form .abs (.top 0x0C), form .abs .ora, form .abs .asl, form .abs .slo]

/-- R124, the row 1x of the map. -/
def mapRow1 : List Entry :=
  [rel8 .bpl, form .izy .ora, noEntry 0x12, form .izy .slo,
   form .zpx (.dop 0x14), form .zpx .ora, form .zpx .asl, form .zpx .slo,
   fixed .clc, form .aby .ora, noEntry 0x1A, form .aby .slo,
   form .abx (.top 0x1C), form .abx .ora, form .abx .asl, form .abx .slo]

/-- R124, the row 2x of the map. -/
def mapRow2 : List Entry :=
  [addr16 .jsr, form .izx .and, noEntry 0x22, form .izx .rla,
   form .zp .bit, form .zp .and, form .zp .rol, form .zp .rla,
   fixed .plp, form .imm .and, form .acc .rol, noEntry 0x2B,
   form .abs .bit, form .abs .and, form .abs .rol, form .abs .rla]

/-- R124, the row 3x of the map. -/
def mapRow3 : List Entry :=
  [rel8 .bmi, form .izy .and, noEntry 0x32, form .izy .rla,
   form .zpx (.dop 0x34), form .zpx .and, form .zpx .rol, form .zpx .rla,
   fixed .sec, form .aby .and, noEntry 0x3A, form .aby .rla,
   form .abx (.top 0x3C), form .abx .and, form .abx .rol, form .abx .rla]

/-- R124, the row 4x of the map. -/
def mapRow4 : List Entry :=
  [fixed .rti, form .izx .eor, noEntry 0x42, form .izx .sre,
   form .zp (.dop 0x44), form .zp .eor, form .zp .lsr, form .zp .sre,
   fixed .pha, form .imm .eor, form .acc .lsr, noEntry 0x4B,
   form .abs .jmp, form .abs .eor, form .abs .lsr, form .abs .sre]

/-- R124, the row 5x of the map. -/
def mapRow5 : List Entry :=
  [rel8 .bvc, form .izy .eor, noEntry 0x52, form .izy .sre,
   form .zpx (.dop 0x54), form .zpx .eor, form .zpx .lsr, form .zpx .sre,
   fixed .cli, form .aby .eor, noEntry 0x5A, form .aby .sre,
   form .abx (.top 0x5C), form .abx .eor, form .abx .lsr, form .abx .sre]

/-- R124, the row 6x of the map. -/
def mapRow6 : List Entry :=
  [fixed .rts, form .izx .adc, noEntry 0x62, form .izx .rra,
   form .zp (.dop 0x64), form .zp .adc, form .zp .ror, form .zp .rra,
   fixed .pla, form .imm .adc, form .acc .ror, noEntry 0x6B,
   form .ind .jmp, form .abs .adc, form .abs .ror, form .abs .rra]

/-- R124, the row 7x of the map. -/
def mapRow7 : List Entry :=
  [rel8 .bvs, form .izy .adc, noEntry 0x72, form .izy .rra,
   form .zpx (.dop 0x74), form .zpx .adc, form .zpx .ror, form .zpx .rra,
   fixed .sei, form .aby .adc, noEntry 0x7A, form .aby .rra,
   form .abx (.top 0x7C), form .abx .adc, form .abx .ror, form .abx .rra]

/-- R124, the row 8x of the map. -/
def mapRow8 : List Entry :=
  [form .imm (.dop 0x80), form .izx .sta, form .imm (.dop 0x82), form .izx .sax,
   form .zp .sty, form .zp .sta, form .zp .stx, form .zp .sax,
   fixed .dey, form .imm (.dop 0x89), fixed .txa, noEntry 0x8B,
   form .abs .sty, form .abs .sta, form .abs .stx, form .abs .sax]

/-- R124, the row 9x of the map. -/
def mapRow9 : List Entry :=
  [rel8 .bcc, form .izy .sta, noEntry 0x92, noEntry 0x93,
   form .zpx .sty, form .zpx .sta, form .zpy .stx, form .zpy .sax,
   fixed .tya, form .aby .sta, fixed .txs, noEntry 0x9B,
   noEntry 0x9C, form .abx .sta, noEntry 0x9E, noEntry 0x9F]

/-- R124, the row Ax of the map. -/
def mapRowA : List Entry :=
  [form .imm .ldy, form .izx .lda, form .imm .ldx, form .izx .lax,
   form .zp .ldy, form .zp .lda, form .zp .ldx, form .zp .lax,
   fixed .tay, form .imm .lda, fixed .tax, noEntry 0xAB,
   form .abs .ldy, form .abs .lda, form .abs .ldx, form .abs .lax]

/-- R124, the row Bx of the map. -/
def mapRowB : List Entry :=
  [rel8 .bcs, form .izy .lda, noEntry 0xB2, form .izy .lax,
   form .zpx .ldy, form .zpx .lda, form .zpy .ldx, form .zpy .lax,
   fixed .clv, form .aby .lda, fixed .tsx, noEntry 0xBB,
   form .abx .ldy, form .abx .lda, form .aby .ldx, form .aby .lax]

/-- R124, the row Cx of the map. -/
def mapRowC : List Entry :=
  [form .imm .cpy, form .izx .cmp, form .imm (.dop 0xC2), form .izx .dcp,
   form .zp .cpy, form .zp .cmp, form .zp .dec, form .zp .dcp,
   fixed .iny, form .imm .cmp, fixed .dex, noEntry 0xCB,
   form .abs .cpy, form .abs .cmp, form .abs .dec, form .abs .dcp]

/-- R124, the row Dx of the map. -/
def mapRowD : List Entry :=
  [rel8 .bne, form .izy .cmp, noEntry 0xD2, form .izy .dcp,
   form .zpx (.dop 0xD4), form .zpx .cmp, form .zpx .dec, form .zpx .dcp,
   fixed .cld, form .aby .cmp, noEntry 0xDA, form .aby .dcp,
   form .abx (.top 0xDC), form .abx .cmp, form .abx .dec, form .abx .dcp]

/-- R124, the row Ex of the map. -/
def mapRowE : List Entry :=
  [form .imm .cpx, form .izx .sbc, form .imm (.dop 0xE2), form .izx .isc,
   form .zp .cpx, form .zp .sbc, form .zp .inc, form .zp .isc,
   fixed .inx, form .imm .sbc, fixed .nop, imm8 .sbcEB,
   form .abs .cpx, form .abs .sbc, form .abs .inc, form .abs .isc]

/-- R124, the row Fx of the map. -/
def mapRowF : List Entry :=
  [rel8 .beq, form .izy .sbc, noEntry 0xF2, form .izy .isc,
   form .zpx (.dop 0xF4), form .zpx .sbc, form .zpx .inc, form .zpx .isc,
   fixed .sed, form .aby .sbc, noEntry 0xFA, form .aby .isc,
   form .abx (.top 0xFC), form .abx .sbc, form .abx .inc, form .abx .isc]

/-- The 256-entry map (R123, R124): row = high nibble, column = low nibble. -/
def opcodeMap : List (List Entry) :=
  [mapRow0, mapRow1, mapRow2, mapRow3, mapRow4, mapRow5, mapRow6, mapRow7,
   mapRow8, mapRow9, mapRowA, mapRowB, mapRowC, mapRowD, mapRowE, mapRowF]

/-- The entry of an opcode byte (R123). With `EB_IS_SBC` false, 0xEB has none (R124, R361). -/
def entryOf (cfg : Config) (op : Byte) : Entry :=
  if op == 0xEB && !cfg.ebIsSbc then noEntry 0xEB
  else (opcodeMap.getD (op.toNat / 16) []).getD (op.toNat % 16) (noEntry op)

/-- How many bytes the instruction with this opcode byte has (R120, R128). -/
def lengthOf (cfg : Config) (op : Byte) : Nat := (entryOf cfg op).mode.length

/-- The instruction of an opcode byte and the two bytes after it (R123, R151). -/
def assemble (cfg : Config) (op b1 b2 : Byte) : Instr := (entryOf cfg op).make b1 b2

/-- Why a byte string does not decode. No opcode byte is refused (R127); a string may only be too short. -/
inductive DecodeError where
  /-- There is no byte to read an opcode from. -/
  | noOpcode
  /-- The string ends before the operand bytes that its opcode byte asks for. -/
  | missingOperand
  deriving DecidableEq, Repr

/-- The decoder: the first instruction of a byte string in address order, and the bytes after it (R120, R128). -/
def decode (cfg : Config) : List Byte → Except DecodeError (Instr × List Byte)
  | [] => .error .noOpcode
  | op :: rest =>
    match lengthOf cfg op, rest with
    | 1, _ => .ok (assemble cfg op 0 0, rest)
    | 2, b1 :: rest' => .ok (assemble cfg op b1 0, rest')
    | _, b1 :: b2 :: rest' => .ok (assemble cfg op b1 b2, rest')
    | _, _ => .error .missingOperand

/-- The byte that a list of (mode, byte) pairs gives a mode. -/
def byteFor (forms : List (Mode × Byte)) (m : Mode) : Option Byte :=
  (forms.find? (fun f => f.1 == m)).map (·.2)

/-- The byte `op` where the list of (mode, byte) pairs has it for that mode. -/
def byteIn (forms : List (Mode × Byte)) (op : Byte) (m : Mode) : Option Byte :=
  if forms.contains (m, op) then some op else none

/-- The opcode byte of an instruction, from the "Opcodes" line of its rule; none where the term is no
instruction of this hardware. -/
def Instr.opcode (cfg : Config) : Instr → Option Byte
  | .adc m => byteFor -- R210
      [(.imm, 0x69), (.zp, 0x65), (.zpx, 0x75), (.abs, 0x6D), (.abx, 0x7D), (.aby, 0x79), (.izx, 0x61), (.izy, 0x71)] m.mode
  | .sbc m => byteFor -- R211
      [(.imm, 0xE9), (.zp, 0xE5), (.zpx, 0xF5), (.abs, 0xED), (.abx, 0xFD), (.aby, 0xF9), (.izx, 0xE1), (.izy, 0xF1)] m.mode
  | .sbcEB _ => if cfg.ebIsSbc then some 0xEB else none -- R361
  | .and m => byteFor -- R212
      [(.imm, 0x29), (.zp, 0x25), (.zpx, 0x35), (.abs, 0x2D), (.abx, 0x3D), (.aby, 0x39), (.izx, 0x21), (.izy, 0x31)] m.mode
  | .ora m => byteFor -- R213
      [(.imm, 0x09), (.zp, 0x05), (.zpx, 0x15), (.abs, 0x0D), (.abx, 0x1D), (.aby, 0x19), (.izx, 0x01), (.izy, 0x11)] m.mode
  | .eor m => byteFor -- R214
      [(.imm, 0x49), (.zp, 0x45), (.zpx, 0x55), (.abs, 0x4D), (.abx, 0x5D), (.aby, 0x59), (.izx, 0x41), (.izy, 0x51)] m.mode
  | .bit m => byteFor -- R215
      [(.zp, 0x24), (.abs, 0x2C)] m.mode
  | .cmp m => byteFor -- R217
      [(.imm, 0xC9), (.zp, 0xC5), (.zpx, 0xD5), (.abs, 0xCD), (.abx, 0xDD), (.aby, 0xD9), (.izx, 0xC1), (.izy, 0xD1)] m.mode
  | .cpx m => byteFor -- R218
      [(.imm, 0xE0), (.zp, 0xE4), (.abs, 0xEC)] m.mode
  | .cpy m => byteFor -- R219
      [(.imm, 0xC0), (.zp, 0xC4), (.abs, 0xCC)] m.mode
  | .asl m => byteFor -- R240
      [(.acc, 0x0A), (.zp, 0x06), (.zpx, 0x16), (.abs, 0x0E), (.abx, 0x1E)] m.mode
  | .lsr m => byteFor -- R241
      [(.acc, 0x4A), (.zp, 0x46), (.zpx, 0x56), (.abs, 0x4E), (.abx, 0x5E)] m.mode
  | .rol m => byteFor -- R242
      [(.acc, 0x2A), (.zp, 0x26), (.zpx, 0x36), (.abs, 0x2E), (.abx, 0x3E)] m.mode
  | .ror m => byteFor -- R243
      [(.acc, 0x6A), (.zp, 0x66), (.zpx, 0x76), (.abs, 0x6E), (.abx, 0x7E)] m.mode
  | .inc m => byteFor -- R244
      [(.zp, 0xE6), (.zpx, 0xF6), (.abs, 0xEE), (.abx, 0xFE)] m.mode
  | .dec m => byteFor -- R245
      [(.zp, 0xC6), (.zpx, 0xD6), (.abs, 0xCE), (.abx, 0xDE)] m.mode
  | .inx => some 0xE8 -- R246
  | .iny => some 0xC8 -- R247
  | .dex => some 0xCA -- R248
  | .dey => some 0x88 -- R249
  | .bpl _ => some 0x10 -- R271
  | .bmi _ => some 0x30 -- R272
  | .bvc _ => some 0x50 -- R273
  | .bvs _ => some 0x70 -- R274
  | .bcc _ => some 0x90 -- R275
  | .bcs _ => some 0xB0 -- R276
  | .bne _ => some 0xD0 -- R277
  | .beq _ => some 0xF0 -- R278
  | .jmp m => byteFor -- R279 and R280
      [(.abs, 0x4C), (.ind, 0x6C)] m.mode
  | .pha => some 0x48 -- R291
  | .php => some 0x08 -- R292
  | .pla => some 0x68 -- R293
  | .plp => some 0x28 -- R294
  | .jsr _ => some 0x20 -- R295
  | .rts => some 0x60 -- R296
  | .rti => some 0x40 -- R297
  | .brk => some 0x00 -- R298
  | .tax => some 0xAA -- R320
  | .tay => some 0xA8 -- R321
  | .txa => some 0x8A -- R322
  | .tya => some 0x98 -- R323
  | .tsx => some 0xBA -- R324
  | .txs => some 0x9A -- R325
  | .sec => some 0x38 -- R326
  | .clc => some 0x18 -- R327
  | .sed => some 0xF8 -- R328
  | .cld => some 0xD8 -- R329
  | .sei => some 0x78 -- R330
  | .cli => some 0x58 -- R331
  | .clv => some 0xB8 -- R332
  | .lax m => byteFor -- R351
      [(.izx, 0xA3), (.zp, 0xA7), (.abs, 0xAF), (.izy, 0xB3), (.zpy, 0xB7), (.aby, 0xBF)] m.mode
  | .sax m => byteFor -- R352
      [(.izx, 0x83), (.zp, 0x87), (.abs, 0x8F), (.zpy, 0x97)] m.mode
  | .dcp m => byteFor -- R353
      [(.izx, 0xC3), (.zp, 0xC7), (.abs, 0xCF), (.izy, 0xD3), (.zpx, 0xD7), (.aby, 0xDB), (.abx, 0xDF)] m.mode
  | .isc m => byteFor -- R354
      [(.izx, 0xE3), (.zp, 0xE7), (.abs, 0xEF), (.izy, 0xF3), (.zpx, 0xF7), (.aby, 0xFB), (.abx, 0xFF)] m.mode
  | .slo m => byteFor -- R355
      [(.izx, 0x03), (.zp, 0x07), (.abs, 0x0F), (.izy, 0x13), (.zpx, 0x17), (.aby, 0x1B), (.abx, 0x1F)] m.mode
  | .rla m => byteFor -- R356
      [(.izx, 0x23), (.zp, 0x27), (.abs, 0x2F), (.izy, 0x33), (.zpx, 0x37), (.aby, 0x3B), (.abx, 0x3F)] m.mode
  | .sre m => byteFor -- R357
      [(.izx, 0x43), (.zp, 0x47), (.abs, 0x4F), (.izy, 0x53), (.zpx, 0x57), (.aby, 0x5B), (.abx, 0x5F)] m.mode
  | .rra m => byteFor -- R358
      [(.izx, 0x63), (.zp, 0x67), (.abs, 0x6F), (.izy, 0x73), (.zpx, 0x77), (.aby, 0x7B), (.abx, 0x7F)] m.mode
  | .dop op m => byteIn -- R359
      [(.imm, 0x80), (.imm, 0x82), (.imm, 0x89), (.imm, 0xC2), (.imm, 0xE2), (.zp, 0x04), (.zp, 0x44), (.zp, 0x64),
       (.zpx, 0x14), (.zpx, 0x34), (.zpx, 0x54), (.zpx, 0x74), (.zpx, 0xD4), (.zpx, 0xF4)] op m.mode
  | .top op m => byteIn -- R360
      [(.abs, 0x0C), (.abx, 0x1C), (.abx, 0x3C), (.abx, 0x5C), (.abx, 0x7C), (.abx, 0xDC), (.abx, 0xFC)] op m.mode
  | .lda m => byteFor -- R390
      [(.imm, 0xA9), (.zp, 0xA5), (.zpx, 0xB5), (.abs, 0xAD), (.abx, 0xBD), (.aby, 0xB9), (.izx, 0xA1), (.izy, 0xB1)] m.mode
  | .ldx m => byteFor -- R391
      [(.imm, 0xA2), (.zp, 0xA6), (.zpy, 0xB6), (.abs, 0xAE), (.aby, 0xBE)] m.mode
  | .ldy m => byteFor -- R392
      [(.imm, 0xA0), (.zp, 0xA4), (.zpx, 0xB4), (.abs, 0xAC), (.abx, 0xBC)] m.mode
  | .sta m => byteFor -- R393
      [(.zp, 0x85), (.zpx, 0x95), (.abs, 0x8D), (.abx, 0x9D), (.aby, 0x99), (.izx, 0x81), (.izy, 0x91)] m.mode
  | .stx m => byteFor -- R394
      [(.zp, 0x86), (.zpy, 0x96), (.abs, 0x8E)] m.mode
  | .sty m => byteFor -- R395
      [(.zp, 0x84), (.zpx, 0x94), (.abs, 0x8C)] m.mode
  | .nop => some 0xEA -- R396
  | .defaultNop op => -- R126
    if [0x02, 0x0B, 0x12, 0x1A, 0x22, 0x2B, 0x32, 0x3A, 0x42, 0x4B, 0x52, 0x5A, 0x62, 0x6B, 0x72, 0x7A,
        0x8B, 0x92, 0x93, 0x9B, 0x9C, 0x9E, 0x9F, 0xAB, 0xB2, 0xBB, 0xCB, 0xD2, 0xDA, 0xF2, 0xFA].contains op
        || (op == 0xEB && !cfg.ebIsSbc) then some op else none

/-- The bytes of an operand after the opcode byte, in address order (R121). -/
def Operand.bytes : Operand → List Byte
  | .imp | .acc => []
  | .imm b | .zp b | .zpx b | .zpy b | .rel b | .izx b | .izy b => [b]
  | .abs w | .abx w | .aby w | .ind w => [loByte w, hiByte w]

/-- The encoder: the bytes of a well-formed instruction in address order (R120, R121). -/
def encode (cfg : Config) (i : Instr) : List Byte :=
  match i.opcode cfg with
  | some op => op :: i.operand.bytes
  | none => []

/-- The three bytes of an instruction whose bits are `w`, bit 0 the least significant bit of the first byte;
the bits from `nbits` up are 0. -/
def tableBytes (nbits w : Nat) : List Byte :=
  let v := w % 2 ^ nbits
  [BitVec.ofNat 8 v, BitVec.ofNat 8 (v / 2 ^ 8), BitVec.ofNat 8 (v / 2 ^ 16)]

/-- What the decoder reads from an instruction whose bits are `w`, numbered as spec/opcode_table.json does. -/
def decodeTableWord (nbits w : Nat) : Option Instr :=
  match decode Machine.hardware (tableBytes nbits w) with
  | .ok (i, _) => some i
  | .error _ => none

end Sys2Proof
end

