-- ==== Sys2Proof/Machine/State.lean ====
section
/-! DEFINITION. The machine's state, as plain data, and the reasons a step or a host operation can stop. -/

namespace Sys2Proof.Machine

/-- The events of the pending-interrupt latch (R46, R411). -/
inductive Event where
  | reset | nmi | irq
  deriving DecidableEq, Repr

/-- Whether an initialisation has happened (R463, R464). -/
inductive Session where
  /-- Before any `powerOn` and any launch state: no register holds a value that a step or the host may read. -/
  | beforeInit
  /-- After `powerOn` or a launch state. -/
  | live
  deriving DecidableEq, Repr

/-- Memory as a list of (cell, byte) pairs. A cell's number is the lowest CPU address that names it:
0x0000-0x07FF internal RAM, 0x6000-0x7FFF PRG-RAM, and 0x8000 + 1024·page + offset for PRG-ROM. -/
abbrev Memory := List Host.Cell

/-- Everything spec/ gives the machine (R30, R35, R46, R47, R53, R79, R84, R85), and one field of the model's own. -/
structure State where
  /-- A, the accumulator (R31). -/
  a : Byte
  /-- X, an index register (R32). -/
  x : Byte
  /-- Y, an index register (R32). -/
  y : Byte
  /-- S, the stack pointer: the low byte of the next free stack byte's address (R33). -/
  sp : Byte
  /-- P, the status register: N V R B D I Z C are bits 7 to 0 (R35). -/
  p : Byte
  /-- PC, the program counter (R34). -/
  pc : Word
  /-- `pending`, the single-slot interrupt latch; `none` is the spec's None (R46). -/
  pending : Option Event
  /-- CYC, the last step's cycle count (R47). -/
  cyc : Nat
  /-- Whether an initialisation has happened (R463). -/
  session : Session
  /-- Internal RAM, PRG-RAM and PRG-ROM (R79, R84, R85). -/
  mem : Memory
  /-- `npages`, the number of one-KiB PRG-ROM pages of the loaded image (R85, R86). -/
  romPages : Nat
  /-- The model's own: how many bytes have been drawn from the open band, so that each read of it is a fresh
  draw (R81; DESIGN CHOICE, safe, log 3). -/
  draws : Nat
  deriving DecidableEq, Repr

/-- Why the machine would stop with a fault: never. "The core raises no synchronous exception" (R410), so this
type has no constructor, and no step can answer a fault. -/
inductive Fault where
  deriving DecidableEq, Repr

/-- Why the model has no transition. -/
inductive Refusal where
  /-- Raised by an arm of `exec` whose instruction has no meaning yet; no arm raises it. Safe. -/
  | notModelled (mnemonic : String)
  /-- Raised by `step` before any initialisation: `refuse(StepBeforeInit)` (R463). Safe: the spec's own refusal. -/
  | stepBeforeInit
  /-- Raised by `observe` before any initialisation: `refuse(ReadBeforeInit)` (R463). Safe: the spec's own refusal. -/
  | readBeforeInit
  /-- Raised by `powerOn` in a session already initialised: `refuse(SecondPowerOn)` (R460, R464). Safe: the spec's own
  refusal. Raised by `launch` there too, which is the model's choice (DESIGN CHOICE, safe; log 22). -/
  | secondPowerOn
  /-- Raised by `insertCartridge` in a session already initialised, where the host writes no memory (R89), so that a
  model refuses the write (93_implementation_defined.md U6). Safe: the spec's own refusal. -/
  | hostMemoryWrite
  /-- Raised by `powerOn`, `launch` and `step` on an image with no PRG-ROM page, or whose memory is not in the
  form the loader makes (R87). Safe: the spec's own refusal. -/
  | malformedImage
  /-- Raised by a meaning applied to a term that no opcode byte encodes, such as STA with an immediate operand.
  Safe: no byte string decodes to such a term, so no step raises it (DESIGN CHOICE; log 11). -/
  | notAnInstruction
  deriving DecidableEq, Repr

/-- What an operation of the machine answers. -/
abbrev Result := Host.Outcome State Fault Refusal

/-- The state after `powerOn` (R460) with nothing listed in memory. A, X, Y, S, P, CYC, the latch and internal RAM
are at the spec's values. No image is loaded: the PRG-ROM bytes and so the reset vector read 0x0000, `romPages` is
one 16 KiB unit (DESIGN CHOICE, unsafe; log 5), and PRG_RAM_INIT is all zero (DESIGN CHOICE, unsafe; log 4).
That this machine starts from `powerOn` and not from a launch state is log 2. -/
def State.reset : State where
  a := 0x00
  x := 0x00
  y := 0x00
  sp := 0xFF
  p := 0x34
  pc := 0x0000
  pending := none
  cyc := 7
  session := .live
  mem := []
  romPages := 16
  draws := 0

/-- `A <- v`. -/
def State.setA (s : State) (v : Byte) : State := { s with a := v }
/-- `X <- v`. -/
def State.setX (s : State) (v : Byte) : State := { s with x := v }
/-- `Y <- v`. -/
def State.setY (s : State) (v : Byte) : State := { s with y := v }
/-- `S <- v`. -/
def State.setSp (s : State) (v : Byte) : State := { s with sp := v }
/-- `P <- v`. -/
def State.setP (s : State) (v : Byte) : State := { s with p := v }
/-- `PC <- v`. -/
def State.setPc (s : State) (v : Word) : State := { s with pc := v }
/-- `pending <- e`. -/
def State.setPending (s : State) (e : Option Event) : State := { s with pending := e }
/-- `CYC <- n`. -/
def State.setCyc (s : State) (n : Nat) : State := { s with cyc := n }
/-- The memory becomes `m`. -/
def State.setMem (s : State) (m : Memory) : State := { s with mem := m }
/-- The draw counter becomes `n`. -/
def State.setDraws (s : State) (n : Nat) : State := { s with draws := n }

end Sys2Proof.Machine
end

