-- ==== Sys2Proof/Machine/Flags.lean ====
section
/-! DEFINITION. The status register's bits, and every flag computation of 42_ and 43_, each on the operand value. -/

namespace Sys2Proof.Machine

/-- The eight named bits of P (R35). -/
inductive Flag where
  | n | v | r | b | d | i | z | c
  deriving DecidableEq, Repr

/-- The positions of the flags in P (R35). -/
def Flag.mask : Flag → Byte
  | .n => 0x80
  | .v => 0x40
  | .r => 0x20
  | .b => 0x10
  | .d => 0x08
  | .i => 0x04
  | .z => 0x02
  | .c => 0x01

/-- A bit of a status byte. -/
def flagOf (p : Byte) (f : Flag) : Bool := (p &&& f.mask) != 0

/-- A status byte with one bit written and the others kept (R44). -/
def withFlag (p : Byte) (f : Flag) (v : Bool) : Byte := if v then p ||| f.mask else p &&& ~~~f.mask

/-- `P.F` (R11). -/
def State.flag (s : State) (f : Flag) : Bool := flagOf s.p f

/-- `P.F <- v` (R11). -/
def State.setFlag (s : State) (f : Flag) (v : Bool) : State := s.setP (withFlag s.p f v)

/-- `SetNZ(v)`: `P.N <- v[7]; P.Z <- (v == 0)` (R12). -/
def setNZ (v : Byte) (s : State) : State := (s.setFlag .n (v.getLsbD 7)).setFlag .z (v == 0)

/-- ADC of the operand value `m` (R210). -/
def addWithCarry (m : Byte) (s : State) : State :=
  let sum := s.a.toNat + m.toNat + (s.flag .c).toNat
  let r := BitVec.ofNat 8 sum
  let carry := decide (sum > 0xFF)
  let overflow := (~~~(s.a ^^^ m) &&& (s.a ^^^ r) &&& 0x80) != 0
  setNZ r (((s.setFlag .c carry).setFlag .v overflow).setA r)

/-- SBC of the operand value `m` (R211). -/
def subWithBorrow (m : Byte) (s : State) : State :=
  let sum := s.a.toNat + (m ^^^ 0xFF).toNat + (s.flag .c).toNat
  let r := BitVec.ofNat 8 sum
  let carry := decide (sum > 0xFF)
  let overflow := ((s.a ^^^ m) &&& (s.a ^^^ r) &&& 0x80) != 0
  setNZ r (((s.setFlag .c carry).setFlag .v overflow).setA r)

/-- AND (R212). -/
def andA (m : Byte) (s : State) : State := setNZ (s.a &&& m) (s.setA (s.a &&& m))

/-- ORA (R213). -/
def orA (m : Byte) (s : State) : State := setNZ (s.a ||| m) (s.setA (s.a ||| m))

/-- EOR (R214). -/
def eorA (m : Byte) (s : State) : State := setNZ (s.a ^^^ m) (s.setA (s.a ^^^ m))

/-- BIT (R215). -/
def bitTest (m : Byte) (s : State) : State :=
  ((s.setFlag .z ((s.a &&& m) == 0)).setFlag .n (m.getLsbD 7)).setFlag .v (m.getLsbD 6)

/-- The compare rule shared by CMP, CPX and CPY (R216). -/
def compare (reg m : Byte) (s : State) : State := setNZ (reg - m) (s.setFlag .c (decide (m.toNat ≤ reg.toNat)))

/-- ASL's result and its flag writes (R240). -/
def shiftLeft (v : Byte) (s : State) : Byte × State :=
  let r := v <<< 1
  (r, setNZ r (s.setFlag .c (v.getLsbD 7)))

/-- LSR's result and its flag writes (R241). -/
def shiftRight (v : Byte) (s : State) : Byte × State :=
  let r := v >>> 1
  (r, setNZ r (s.setFlag .c (v.getLsbD 0)))

/-- The carry as a byte, 0 or 1. -/
def carryByte (s : State) : Byte := if s.flag .c then 0x01 else 0x00

/-- ROL's result and its flag writes (R242). -/
def rotateLeft (v : Byte) (s : State) : Byte × State :=
  let r := (v <<< 1) ||| carryByte s
  (r, setNZ r (s.setFlag .c (v.getLsbD 7)))

/-- ROR's result and its flag writes (R243). -/
def rotateRight (v : Byte) (s : State) : Byte × State :=
  let r := (v >>> 1) ||| (carryByte s <<< 7)
  (r, setNZ r (s.setFlag .c (v.getLsbD 0)))

/-- INC's result and its flag writes (R244). -/
def increment (v : Byte) (s : State) : Byte × State := (v + 1, setNZ (v + 1) s)

/-- DEC's result and its flag writes (R245). -/
def decrement (v : Byte) (s : State) : Byte × State := (v - 1, setNZ (v - 1) s)

end Sys2Proof.Machine
end

