-- ==== Sys2Proof/Machine/Memory.lean ====
section
/-! DEFINITION. Memory as plain data in one canonical form, and the platform's bus decode (20_memory.md, section 3). -/

namespace Sys2Proof.Machine

/-- What a cell that memory does not list reads as: 0x00, the spec's value for internal RAM (R79, R460), and the
model's choice for PRG-RAM and PRG-ROM cells that nothing has filled (DESIGN CHOICE, unsafe; log 4, log 5). -/
def unlisted (_cell : Nat) : Byte := 0x00

/-- The byte of a cell. -/
def Memory.read : Memory → Nat → Byte
  | [], k => unlisted k
  | (j, v) :: rest, k => if j = k then v else Memory.read rest k

/-- Memory with one cell's byte replaced. Writing what an unlisted cell reads as removes the entry, so that equal
memories are equal lists. -/
def Memory.write : Memory → Nat → Byte → Memory
  | [], k, v => if v = unlisted k then [] else [(k, v)]
  | (j, w) :: rest, k, v =>
    if k < j then (if v = unlisted k then (j, w) :: rest else (k, v) :: (j, w) :: rest)
    else if j = k then (if v = unlisted k then rest else (k, v) :: rest)
    else (j, w) :: Memory.write rest k v

/-- The canonical form: cells strictly rising, and no entry equal to what an unlisted cell reads as. -/
def Memory.wf : Memory → Bool
  | [] => true
  | (k, v) :: rest => v != unlisted k && rest.all (fun c => decide (k < c.1)) && Memory.wf rest

/-- The address bands of the bus (R79-R85). -/
inductive Region where
  /-- 0x0000-0x1FFF, internal RAM and its mirrors (R79). -/
  | ram
  /-- 0x2000-0x3FFF, the stubbed PPU register window (R80). -/
  | ppu
  /-- 0x4000-0x401F, decoded by nothing: reads are OPEN (R81). -/
  | openBand
  /-- 0x4020-0x5FFF, expansion ROM (R83). -/
  | expansion
  /-- 0x6000-0x7FFF, PRG-RAM (R84). -/
  | prgRam
  /-- 0x8000-0xFFFF, PRG-ROM (R85). -/
  | prgRom
  deriving DecidableEq, Repr

/-- The band an address is in (R79-R85). -/
def regionOf (a : Word) : Region :=
  if a.toNat < 0x2000 then .ram
  else if a.toNat < 0x4000 then .ppu
  else if a.toNat < 0x4020 then .openBand
  else if a.toNat < 0x6000 then .expansion
  else if a.toNat < 0x8000 then .prgRam
  else .prgRom

/-- The internal RAM cell `address & 0x07FF` (R79). -/
def ramCell (a : Word) : Nat := (a &&& 0x07FF).toNat

/-- The PRG-RAM cell, "indexed by `address & 0x1FFF`" (R84). -/
def prgRamCell (a : Word) : Nat := 0x6000 + (a &&& 0x1FFF).toNat

/-- The fixed bank table: `bank[i] = i mod npages` (R85). -/
def bank (npages i : Nat) : Nat := i % npages

/-- The PRG-ROM cell `page[bank[(address & 0x7FFF) >> 10]][address & 0x03FF]` (R85). -/
def prgRomCell (npages : Nat) (a : Word) : Nat :=
  0x8000 + 1024 * bank npages ((a &&& 0x7FFF) >>> 10).toNat + (a &&& 0x03FF).toNat

/-- The storage cell an address decodes to, if it names storage (R79, R84, R85). -/
def cellOf (npages : Nat) (a : Word) : Option Nat :=
  match regionOf a with
  | .ram => some (ramCell a)
  | .prgRam => some (prgRamCell a)
  | .prgRom => some (prgRomCell npages a)
  | .ppu | .openBand | .expansion => none

/-- The cell that a write to an address changes: internal RAM and PRG-RAM only. A write to the PPU window, the
open band, the expansion area or PRG-ROM changes nothing (R80, R81, R83, R85). -/
def writableCell (a : Word) : Option Nat :=
  match regionOf a with
  | .ram => some (ramCell a)
  | .prgRam => some (prgRamCell a)
  | .ppu | .openBand | .expansion | .prgRom => none

/-- The PPU register that an address of the window selects (R80). -/
def ppuRegister (a : Word) : Word := 0x2000 ||| (a &&& 0x0007)

/-- "stubbed to constant 0 in this scope" (R80). -/
def ppuRead (_register : Word) : Byte := 0x00

/-- The cell exists in a machine whose image has `npages` pages, of which pages 0 to 31 are reachable (R79, R84, R85). -/
def cellExists (npages k : Nat) : Bool :=
  decide (k < 0x800) || (decide (0x6000 ≤ k) && decide (k < 0x8000 + 1024 * min npages 32))

/-- An image the loader makes: at least one PRG-ROM page, and memory in canonical form over the cells that exist (R87). -/
def imageOk (npages : Nat) (m : Memory) : Bool :=
  npages != 0 && Memory.wf m && m.all (fun c => cellExists npages c.1)

end Sys2Proof.Machine
end

