-- ==== Sys2Proof/Machine/Ops.lean ====
section
/-! DEFINITION. The primitives of R12 over the bus and the stack, taking an interrupt and returning from one, and
the service of the latched event (60_exceptions.md). -/

namespace Sys2Proof.Machine

/-- `zext_16(b)` (R10). -/
def zext (b : Byte) : Word := b.setWidth 16

/-- `sext_8(b)` as a 16-bit value (R10). -/
def sext (b : Byte) : Word := b.signExtend 16

/-- The byte a bus read of `a` returns in this state (R79-R85). -/
def State.peek (s : State) (a : Word) : Byte :=
  match regionOf a with
  | .ram => s.mem.read (ramCell a)
  | .ppu => ppuRead (ppuRegister a)
  | .openBand => Config.ioRead a s.draws
  | .expansion => 0x00
  | .prgRam => s.mem.read (prgRamCell a)
  | .prgRom => s.mem.read (prgRomCell s.romPages a)

/-- The state after a bus read of `a`. A read of the open band is one more draw (R81); no other read has an
effect (R75). -/
def afterRead (a : Word) (s : State) : State :=
  match regionOf a with
  | .openBand => s.setDraws (s.draws + 1)
  | .ram | .ppu | .expansion | .prgRam | .prgRom => s

/-- `MemRead(addr, 1)` (R12, R71). -/
def memRead (a : Word) (s : State) : Byte × State := (s.peek a, afterRead a s)

/-- `MemWrite(addr, 1, v)` (R12, R71): at most the one storage cell the address decodes to changes (R75). -/
def memWrite (a : Word) (v : Byte) (s : State) : State :=
  match writableCell a with
  | some k => s.setMem (s.mem.write k v)
  | none => s

/-- `ReadWord(addr)`: two byte reads, low first (R12). -/
def readWord (a : Word) (s : State) : Word × State :=
  let lo := memRead a s
  let hi := memRead (a + 1) lo.2
  (wordOf lo.1 hi.1, hi.2)

/-- The 16-bit value that `ReadWordZP(b)` reads (R12). Page 0 is internal RAM, so its two reads change nothing
(R75, R79; DEDUCED, safe, log 10). -/
def State.peekWordZP (s : State) (b : Byte) : Word := wordOf (s.peek (zext b)) (s.peek (zext (b + 1)))

/-- The address of a stack byte: `0x0100 | S` (R77). -/
def stackAddr (sp : Byte) : Word := 0x0100 ||| zext sp

/-- `Push(v)`: write, then decrement S (R12, R290). -/
def push (v : Byte) (s : State) : State := (memWrite (stackAddr s.sp) v s).setSp (s.sp - 1)

/-- `Pull()`: increment S, then read (R12, R290). -/
def pull (s : State) : Byte × State := memRead (stackAddr (s.sp + 1)) (s.setSp (s.sp + 1))

/-- Pull two bytes, low first (R296, R297). -/
def pullWord (s : State) : Word × State :=
  let lo := pull s
  let hi := pull lo.2
  (wordOf lo.1 hi.1, hi.2)

/-- The byte that PLP and RTI load into P from a pulled byte: B cleared, R set (R294, R297). -/
def loadedStatus (v : Byte) : Byte := (v &&& ~~~0x10) ||| 0x20

/-- Pull P (R294, R297). -/
def pullStatus (s : State) : State :=
  let v := pull s
  v.2.setP (loadedStatus v.1)

/-- The Nmi vector's address (R78). -/
def nmiVector : Word := 0xFFFA

/-- The reset vector's address (R78). -/
def resetVector : Word := 0xFFFC

/-- The Irq and BRK vector's address (R78). -/
def irqVector : Word := 0xFFFE

/-- Taking an interrupt, shared by the Nmi and Irq entries and BRK (R417, R418, R420): push the high and the low
byte of PC, then the status byte `pushed`; clear D and set I as asked; load PC from the vector. -/
def takeInterrupt (vector : Word) (pushed : Byte) (clearsD setsI : Bool) (s : State) : State :=
  let s1 := push pushed (push (loByte s.pc) (push (hiByte s.pc) s))
  let s2 := if clearsD then s1.setFlag .d false else s1
  let s3 := if setsI then s2.setFlag .i true else s2
  let target := readWord vector s3
  target.2.setPc target.1

/-- Returning from an interrupt (R297, R422): pull P, then PC, low byte first, with nothing added. -/
def returnFromInterrupt (s : State) : State :=
  let pc := pullWord (pullStatus s)
  pc.2.setPc pc.1

/-- The Reset entry (R416). -/
def enterReset (s : State) : State :=
  let s1 := ((((s.setA 0).setX 0).setY 0).setSp 0xFF).setP 0x22
  let target := readWord resetVector s1
  (target.2.setPc target.1).setCyc 7

/-- The Nmi entry (R417). -/
def enterNmi (cfg : Config) (s : State) : State :=
  (takeInterrupt nmiVector (s.p &&& ~~~0x10) true cfg.nmiEntrySetsI s).setCyc 7

/-- The Irq entry, when I is 0 (R418). -/
def enterIrq (cfg : Config) (s : State) : State :=
  (takeInterrupt irqVector (s.p &&& ~~~0x10) true cfg.irqEntrySetsI s).setCyc 7

/-- The Irq drop, when I is 1 (R419). -/
def dropIrq (s : State) : State := s.setCyc 0

/-- The entry sequence of an event, on the state whose latch is already clear (R150, R414, R416-R419). -/
def interruptEntry (cfg : Config) (e : Event) (s : State) : State :=
  match e with
  | .reset => enterReset s
  | .nmi => enterNmi cfg s
  | .irq => if s.flag .i then dropIrq s else enterIrq cfg s

/-- A step that finds `e` in the latch: clear the latch, then run the event's entry (R150, R414). -/
def serviceEvent (cfg : Config) (e : Event) (s : State) : State := interruptEntry cfg e (s.setPending none)

end Sys2Proof.Machine
end

