-- ==== Sys2Proof/Machine/Operands.lean ====
section
/-! DEFINITION. The addressing-mode resolver (41_addressing_modes.md), the access classes (R156), and the frame
every meaning runs in (R151, R152). -/

namespace Sys2Proof.Machine

/-- The two ways JMP (abs) may read its target's high byte (R194, R195). -/
inductive IndirectVariant where
  /-- Within the pointer's page: the "page-wrap bug emulation" (R194). -/
  | wrapping
  /-- The true pointer+1 (R195). -/
  | nonWrapping
  deriving DecidableEq, Repr

/-- The variant "chosen per-opcode": 0x6C, the only indirect opcode, wraps (R194, R195). -/
def indirectVariant (_op : Byte) : IndirectVariant := .wrapping

/-- The address of the target's high byte (R194, R195). -/
def indirectHighAddr (v : IndirectVariant) (ptr : Word) : Word :=
  match v with
  | .wrapping => (ptr &&& 0xFF00) ||| ((ptr + 1) &&& 0x00FF)
  | .nonWrapping => ptr + 1

/-- Absolute Indirect: the target read through the pointer, low byte first (R194, R195). -/
def resolveIndirect (v : IndirectVariant) (ptr : Word) (s : State) : Word × State :=
  let lo := memRead ptr s
  let hi := memRead (indirectHighAddr v ptr) lo.2
  (wordOf lo.1 hi.1, hi.2)

/-- The effective address of a mode (R183-R194), with PC already past the operand bytes (R180). IMP and ACC yield
no address but a marker (R181, R182): `readOperand` and `writeOperand` send ACC to A, and the 0 here is never used (DEDUCED, safe; log 20).
The pointers of (Ind,X) and (Ind),Y lie in page 0 (R192, R193). -/
def effAddr (m : Operand) (s : State) : Word :=
  match m with
  | .imp | .acc => 0
  | .imm _ => s.pc - 1
  | .zp b => zext b
  | .zpx b => zext (b + s.x)
  | .zpy b => zext (b + s.y)
  | .abs w => w
  | .abx w => w + zext s.x
  | .aby w => w + zext s.y
  | .rel b => s.pc + sext b
  | .izx b => s.peekWordZP (b + s.x)
  | .izy b => s.peekWordZP b + zext s.y
  | .ind w => (resolveIndirect (indirectVariant 0x6C) w s).1

/-- The base address of an indexed mode that can cross a page (R188, R189, R193). -/
def indexBase (m : Operand) (s : State) : Word :=
  match m with
  | .abx w | .aby w => w
  | .izy b => s.peekWordZP b
  | .imp | .acc | .imm _ | .zp _ | .zpx _ | .zpy _ | .abs _ | .rel _ | .izx _ | .ind _ => effAddr m s

/-- The page-crossing test: the indexed address's high byte differs from the base address's (R190). -/
def pageCross (m : Operand) (s : State) : Bool := hiByte (effAddr m s) != hiByte (indexBase m s)

/-- The page penalty of a penalty-bearing opcode (R152, R154, R188, R189, R193). -/
def chargePage (cfg : Config) (op : Byte) (m : Operand) (s : State) : State :=
  if penaltyBearing cfg op && pageCross m s then s.setCyc (s.cyc + 1) else s

/-- PC past the instruction's bytes, and CYC at the opcode's base cost (R34, R151, R153). -/
def advance (cfg : Config) (i : Instr) (op : Byte) (s : State) : State :=
  (s.setPc (s.pc + BitVec.ofNat 16 i.length)).setCyc (cfg.cycleCost op)

/-- The frame of every meaning (R151): PC and CYC advance, the mode is resolved with its penalty, then the operation
runs. A term that no opcode byte encodes is no instruction, and is refused
(DESIGN CHOICE, safe; log 11). -/
def runInstr (cfg : Config) (i : Instr) (s : State) (operation : State → State) : Result :=
  match i.opcode cfg with
  | some op => .next (operation (chargePage cfg op i.operand (advance cfg i op s)))
  | none => .refused .notAnInstruction

/-- The operand byte M of a mode in this state: the immediate byte, A in accumulator mode, or the byte at the
effective address (R156, R182, R183; `Load()` of 43_shift_incdec.md). -/
def operandValue (m : Operand) (s : State) : Byte :=
  match m with
  | .imm v => v
  | .acc => s.a
  | .imp | .zp _ | .zpx _ | .zpy _ | .abs _ | .abx _ | .aby _ | .rel _ | .izx _ | .izy _ | .ind _ => s.peek (effAddr m s)

/-- The state after the operand is read. The immediate byte was read once, by the fetch (R156); a memory operand is
read once, here. -/
def afterOperand (m : Operand) (s : State) : State :=
  match m with
  | .imm _ | .acc => s
  | .imp | .zp _ | .zpx _ | .zpy _ | .abs _ | .abx _ | .aby _ | .rel _ | .izx _ | .izy _ | .ind _ =>
    afterRead (effAddr m s) s

/-- Write the result of a read-modify-write operation: to A in accumulator mode, else to the effective address `ea`
(R156, R182; `Store(r)` of 43_shift_incdec.md). -/
def writeOperand (m : Operand) (ea : Word) (r : Byte) (s : State) : State :=
  match m with
  | .acc => s.setA r
  | .imp | .imm _ | .zp _ | .zpx _ | .zpy _ | .abs _ | .abx _ | .aby _ | .rel _ | .izx _ | .izy _ | .ind _ =>
    memWrite ea r s

/-- The read class (R156): read the operand once, then act on its value. -/
def readClass (m : Operand) (act : Byte → State → State) (s : State) : State :=
  act (operandValue m s) (afterOperand m s)

/-- The write class (R156): write the value once at the effective address, which is not read. -/
def writeClass (m : Operand) (value : State → Byte) (s : State) : State := memWrite (effAddr m s) (value s) s

/-- The read-modify-write class and the accumulator class (R156): read once, compute the result with its flag
writes, write the final result once, then act on the result (the second operation of a composite, R350). -/
def modifyClass (m : Operand) (compute : Byte → State → Byte × State) (act : Byte → State → State) (s : State) : State :=
  let r := compute (operandValue m s) (afterOperand m s)
  act r.1 (writeOperand m (effAddr m s) r.1 r.2)

/-- No second operation. -/
def noSecond (_r : Byte) (s : State) : State := s

end Sys2Proof.Machine
end

