-- ==== Sys2Proof/Machine/ArithLogic.lean ====
section
/-! DEFINITION. The meanings of 42_arith_logic_compare.md, and SBC 0xEB of 47_undocumented.md. -/

namespace Sys2Proof.Machine

/-- ADC, add with carry (R210). -/
def execAdcWith (cfg : Config) (m : Operand) (s : State) : Result :=
  runInstr cfg (.adc m) s (readClass m addWithCarry)

/-- ADC on this machine. -/
def execAdc (m : Operand) (s : State) : Result := execAdcWith hardware m s

/-- SBC, subtract with borrow (R211). -/
def execSbcWith (cfg : Config) (m : Operand) (s : State) : Result :=
  runInstr cfg (.sbc m) s (readClass m subWithBorrow)

/-- SBC on this machine. -/
def execSbc (m : Operand) (s : State) : Result := execSbcWith hardware m s

/-- SBC immediate under its undocumented byte 0xEB (R361). -/
def execSbcEBWith (cfg : Config) (v : Byte) (s : State) : Result :=
  runInstr cfg (.sbcEB v) s (readClass (.imm v) subWithBorrow)

/-- SBC immediate under its undocumented byte 0xEB, on this machine. -/
def execSbcEB (v : Byte) (s : State) : Result := execSbcEBWith hardware v s

/-- AND, bitwise and into A (R212). -/
def execAndWith (cfg : Config) (m : Operand) (s : State) : Result :=
  runInstr cfg (.and m) s (readClass m andA)

/-- AND on this machine. -/
def execAnd (m : Operand) (s : State) : Result := execAndWith hardware m s

/-- ORA, bitwise or into A (R213). -/
def execOraWith (cfg : Config) (m : Operand) (s : State) : Result :=
  runInstr cfg (.ora m) s (readClass m orA)

/-- ORA on this machine. -/
def execOra (m : Operand) (s : State) : Result := execOraWith hardware m s

/-- EOR, bitwise exclusive-or into A (R214). -/
def execEorWith (cfg : Config) (m : Operand) (s : State) : Result :=
  runInstr cfg (.eor m) s (readClass m eorA)

/-- EOR on this machine. -/
def execEor (m : Operand) (s : State) : Result := execEorWith hardware m s

/-- BIT, test bits (R215). -/
def execBitWith (cfg : Config) (m : Operand) (s : State) : Result :=
  runInstr cfg (.bit m) s (readClass m bitTest)

/-- BIT on this machine. -/
def execBit (m : Operand) (s : State) : Result := execBitWith hardware m s

/-- CMP, compare A (R217). -/
def execCmpWith (cfg : Config) (m : Operand) (s : State) : Result :=
  runInstr cfg (.cmp m) s (readClass m (fun v t => compare t.a v t))

/-- CMP on this machine. -/
def execCmp (m : Operand) (s : State) : Result := execCmpWith hardware m s

/-- CPX, compare X (R218). -/
def execCpxWith (cfg : Config) (m : Operand) (s : State) : Result :=
  runInstr cfg (.cpx m) s (readClass m (fun v t => compare t.x v t))

/-- CPX on this machine. -/
def execCpx (m : Operand) (s : State) : Result := execCpxWith hardware m s

/-- CPY, compare Y (R219). -/
def execCpyWith (cfg : Config) (m : Operand) (s : State) : Result :=
  runInstr cfg (.cpy m) s (readClass m (fun v t => compare t.y v t))

/-- CPY on this machine. -/
def execCpy (m : Operand) (s : State) : Result := execCpyWith hardware m s

end Sys2Proof.Machine
end

