-- ==== Sys2Proof/Machine/BranchJump.lean ====
section
/-! DEFINITION. The meanings of 44_branch_jump.md. -/

namespace Sys2Proof.Machine

/-- The common branch rule (R270): if taken, one cycle more, and one more again if the target's high byte differs
from PC's before the jump. PC already holds the address of the next instruction. -/
def branchIf (taken : State → Bool) (offset : Byte) (s : State) : State :=
  let target := effAddr (.rel offset) s
  if taken s then
    (s.setCyc (s.cyc + 1 + if hiByte target != hiByte s.pc then 1 else 0)).setPc target
  else s

/-- JMP to a resolved target: absolute (R279), or indirect through a pointer that may lie anywhere (R280). -/
def jump (m : Operand) (s : State) : State :=
  match m with
  | .ind w =>
    let target := resolveIndirect (indirectVariant 0x6C) w s
    target.2.setPc target.1
  | .imp | .acc | .imm _ | .zp _ | .zpx _ | .zpy _ | .abs _ | .abx _ | .aby _ | .rel _ | .izx _ | .izy _ =>
    s.setPc (effAddr m s)

/-- BPL, branch if plus (R271). -/
def execBplWith (cfg : Config) (offset : Byte) (s : State) : Result :=
  runInstr cfg (.bpl offset) s (branchIf (fun t => !t.flag .n) offset)

/-- BPL on this machine. -/
def execBpl (offset : Byte) (s : State) : Result := execBplWith hardware offset s

/-- BMI, branch if minus (R272). -/
def execBmiWith (cfg : Config) (offset : Byte) (s : State) : Result :=
  runInstr cfg (.bmi offset) s (branchIf (fun t => t.flag .n) offset)

/-- BMI on this machine. -/
def execBmi (offset : Byte) (s : State) : Result := execBmiWith hardware offset s

/-- BVC, branch if overflow clear (R273). -/
def execBvcWith (cfg : Config) (offset : Byte) (s : State) : Result :=
  runInstr cfg (.bvc offset) s (branchIf (fun t => !t.flag .v) offset)

/-- BVC on this machine. -/
def execBvc (offset : Byte) (s : State) : Result := execBvcWith hardware offset s

/-- BVS, branch if overflow set (R274). -/
def execBvsWith (cfg : Config) (offset : Byte) (s : State) : Result :=
  runInstr cfg (.bvs offset) s (branchIf (fun t => t.flag .v) offset)

/-- BVS on this machine. -/
def execBvs (offset : Byte) (s : State) : Result := execBvsWith hardware offset s

/-- BCC, branch if carry clear (R275). -/
def execBccWith (cfg : Config) (offset : Byte) (s : State) : Result :=
  runInstr cfg (.bcc offset) s (branchIf (fun t => !t.flag .c) offset)

/-- BCC on this machine. -/
def execBcc (offset : Byte) (s : State) : Result := execBccWith hardware offset s

/-- BCS, branch if carry set (R276). -/
def execBcsWith (cfg : Config) (offset : Byte) (s : State) : Result :=
  runInstr cfg (.bcs offset) s (branchIf (fun t => t.flag .c) offset)

/-- BCS on this machine. -/
def execBcs (offset : Byte) (s : State) : Result := execBcsWith hardware offset s

/-- BNE, branch if not equal (R277). -/
def execBneWith (cfg : Config) (offset : Byte) (s : State) : Result :=
  runInstr cfg (.bne offset) s (branchIf (fun t => !t.flag .z) offset)

/-- BNE on this machine. -/
def execBne (offset : Byte) (s : State) : Result := execBneWith hardware offset s

/-- BEQ, branch if equal (R278). -/
def execBeqWith (cfg : Config) (offset : Byte) (s : State) : Result :=
  runInstr cfg (.beq offset) s (branchIf (fun t => t.flag .z) offset)

/-- BEQ on this machine. -/
def execBeq (offset : Byte) (s : State) : Result := execBeqWith hardware offset s

/-- JMP, absolute (R279) or indirect (R280). -/
def execJmpWith (cfg : Config) (m : Operand) (s : State) : Result :=
  runInstr cfg (.jmp m) s (jump m)

/-- JMP on this machine. -/
def execJmp (m : Operand) (s : State) : Result := execJmpWith hardware m s

end Sys2Proof.Machine
end

