-- ==== Sys2Proof/Machine/LoadStore.lean ====
section
/-! DEFINITION. The meanings of 48_load_store_nop.md, and the default no-op of R155. -/

namespace Sys2Proof.Machine

/-- LDA, load A (R390). -/
def execLdaWith (cfg : Config) (m : Operand) (s : State) : Result :=
  runInstr cfg (.lda m) s (readClass m (fun v t => setNZ v (t.setA v)))

/-- LDA on this machine. -/
def execLda (m : Operand) (s : State) : Result := execLdaWith hardware m s

/-- LDX, load X (R391). -/
def execLdxWith (cfg : Config) (m : Operand) (s : State) : Result :=
  runInstr cfg (.ldx m) s (readClass m (fun v t => setNZ v (t.setX v)))

/-- LDX on this machine. -/
def execLdx (m : Operand) (s : State) : Result := execLdxWith hardware m s

/-- LDY, load Y (R392). -/
def execLdyWith (cfg : Config) (m : Operand) (s : State) : Result :=
  runInstr cfg (.ldy m) s (readClass m (fun v t => setNZ v (t.setY v)))

/-- LDY on this machine. -/
def execLdy (m : Operand) (s : State) : Result := execLdyWith hardware m s

/-- STA, store A (R393). -/
def execStaWith (cfg : Config) (m : Operand) (s : State) : Result :=
  runInstr cfg (.sta m) s (writeClass m (fun t => t.a))

/-- STA on this machine. -/
def execSta (m : Operand) (s : State) : Result := execStaWith hardware m s

/-- STX, store X (R394). -/
def execStxWith (cfg : Config) (m : Operand) (s : State) : Result :=
  runInstr cfg (.stx m) s (writeClass m (fun t => t.x))

/-- STX on this machine. -/
def execStx (m : Operand) (s : State) : Result := execStxWith hardware m s

/-- STY, store Y (R395). -/
def execStyWith (cfg : Config) (m : Operand) (s : State) : Result :=
  runInstr cfg (.sty m) s (writeClass m (fun t => t.y))

/-- STY on this machine. -/
def execSty (m : Operand) (s : State) : Result := execStyWith hardware m s

/-- NOP: nothing beyond the opcode fetch (R396). -/
def execNopWith (cfg : Config) (s : State) : Result :=
  runInstr cfg .nop s (fun t => t)

/-- NOP on this machine. -/
def execNop (s : State) : Result := execNopWith hardware s

/-- DEFAULT-NOP, a byte with no dispatch entry: only PC and CYC change (R155, R126). -/
def execDefaultNopWith (cfg : Config) (op : Byte) (s : State) : Result :=
  runInstr cfg (.defaultNop op) s (fun t => t)

/-- DEFAULT-NOP on this machine. -/
def execDefaultNop (op : Byte) (s : State) : Result := execDefaultNopWith hardware op s

end Sys2Proof.Machine
end

