-- ==== Sys2Proof/Machine/ShiftIncDec.lean ====
section
/-! DEFINITION. The meanings of 43_shift_incdec.md. -/

namespace Sys2Proof.Machine

/-- ASL, arithmetic shift left (R240). -/
def execAslWith (cfg : Config) (m : Operand) (s : State) : Result :=
  runInstr cfg (.asl m) s (modifyClass m shiftLeft noSecond)

/-- ASL on this machine. -/
def execAsl (m : Operand) (s : State) : Result := execAslWith hardware m s

/-- LSR, logical shift right (R241). -/
def execLsrWith (cfg : Config) (m : Operand) (s : State) : Result :=
  runInstr cfg (.lsr m) s (modifyClass m shiftRight noSecond)

/-- LSR on this machine. -/
def execLsr (m : Operand) (s : State) : Result := execLsrWith hardware m s

/-- ROL, rotate left through carry (R242). -/
def execRolWith (cfg : Config) (m : Operand) (s : State) : Result :=
  runInstr cfg (.rol m) s (modifyClass m rotateLeft noSecond)

/-- ROL on this machine. -/
def execRol (m : Operand) (s : State) : Result := execRolWith hardware m s

/-- ROR, rotate right through carry (R243). -/
def execRorWith (cfg : Config) (m : Operand) (s : State) : Result :=
  runInstr cfg (.ror m) s (modifyClass m rotateRight noSecond)

/-- ROR on this machine. -/
def execRor (m : Operand) (s : State) : Result := execRorWith hardware m s

/-- INC, increment memory (R244). -/
def execIncWith (cfg : Config) (m : Operand) (s : State) : Result :=
  runInstr cfg (.inc m) s (modifyClass m increment noSecond)

/-- INC on this machine. -/
def execInc (m : Operand) (s : State) : Result := execIncWith hardware m s

/-- DEC, decrement memory (R245). -/
def execDecWith (cfg : Config) (m : Operand) (s : State) : Result :=
  runInstr cfg (.dec m) s (modifyClass m decrement noSecond)

/-- DEC on this machine. -/
def execDec (m : Operand) (s : State) : Result := execDecWith hardware m s

/-- INX, increment X (R246). -/
def execInxWith (cfg : Config) (s : State) : Result :=
  runInstr cfg .inx s (fun t => setNZ (t.x + 1) (t.setX (t.x + 1)))

/-- INX on this machine. -/
def execInx (s : State) : Result := execInxWith hardware s

/-- INY, increment Y (R247). -/
def execInyWith (cfg : Config) (s : State) : Result :=
  runInstr cfg .iny s (fun t => setNZ (t.y + 1) (t.setY (t.y + 1)))

/-- INY on this machine. -/
def execIny (s : State) : Result := execInyWith hardware s

/-- DEX, decrement X (R248). -/
def execDexWith (cfg : Config) (s : State) : Result :=
  runInstr cfg .dex s (fun t => setNZ (t.x - 1) (t.setX (t.x - 1)))

/-- DEX on this machine. -/
def execDex (s : State) : Result := execDexWith hardware s

/-- DEY, decrement Y (R249). -/
def execDeyWith (cfg : Config) (s : State) : Result :=
  runInstr cfg .dey s (fun t => setNZ (t.y - 1) (t.setY (t.y - 1)))

/-- DEY on this machine. -/
def execDey (s : State) : Result := execDeyWith hardware s

end Sys2Proof.Machine
end

