-- ==== Sys2Proof/Machine/StackCall.lean ====
section
/-! DEFINITION. The meanings of 45_stack_call_interrupt.md. -/

namespace Sys2Proof.Machine

/-- The status byte that PHP and BRK push: B and R forced to 1 (R40, R41, R292, R298). -/
def pushedStatus (p : Byte) : Byte := p ||| 0x10 ||| 0x20

/-- JSR's effect, with PC already past the three bytes: push the address of the last of them, high byte first, and
jump (R295). -/
def callSubroutine (target : Word) (s : State) : State :=
  let ret := s.pc - 1
  (push (loByte ret) (push (hiByte ret) s)).setPc target

/-- RTS's effect: pull a word and add 1 (R296). -/
def returnFromSubroutine (s : State) : State :=
  let ret := pullWord s
  ret.2.setPc (ret.1 + 1)

/-- BRK's effect, with PC past the opcode byte: step over the padding byte, set B, and take the interrupt through the
Irq vector with B and R set in the pushed byte (R298). -/
def softwareInterrupt (cfg : Config) (s : State) : State :=
  let s1 := (s.setPc (s.pc + 1)).setFlag .b true
  takeInterrupt irqVector (s1.p ||| 0x20) cfg.brkClearsD cfg.brkSetsI s1

/-- PHA, push A (R291). -/
def execPhaWith (cfg : Config) (s : State) : Result :=
  runInstr cfg .pha s (fun t => push t.a t)

/-- PHA on this machine. -/
def execPha (s : State) : Result := execPhaWith hardware s

/-- PHP, push P (R292). -/
def execPhpWith (cfg : Config) (s : State) : Result :=
  runInstr cfg .php s (fun t => push (pushedStatus t.p) t)

/-- PHP on this machine. -/
def execPhp (s : State) : Result := execPhpWith hardware s

/-- PLA, pull A (R293). -/
def execPlaWith (cfg : Config) (s : State) : Result :=
  runInstr cfg .pla s (fun t => setNZ (pull t).1 ((pull t).2.setA (pull t).1))

/-- PLA on this machine. -/
def execPla (s : State) : Result := execPlaWith hardware s

/-- PLP, pull P (R294). -/
def execPlpWith (cfg : Config) (s : State) : Result :=
  runInstr cfg .plp s pullStatus

/-- PLP on this machine. -/
def execPlp (s : State) : Result := execPlpWith hardware s

/-- JSR, jump to subroutine (R295). -/
def execJsrWith (cfg : Config) (target : Word) (s : State) : Result :=
  runInstr cfg (.jsr target) s (callSubroutine target)

/-- JSR on this machine. -/
def execJsr (target : Word) (s : State) : Result := execJsrWith hardware target s

/-- RTS, return from subroutine (R296). -/
def execRtsWith (cfg : Config) (s : State) : Result :=
  runInstr cfg .rts s returnFromSubroutine

/-- RTS on this machine. -/
def execRts (s : State) : Result := execRtsWith hardware s

/-- RTI, return from interrupt (R297). -/
def execRtiWith (cfg : Config) (s : State) : Result :=
  runInstr cfg .rti s returnFromInterrupt

/-- RTI on this machine. -/
def execRti (s : State) : Result := execRtiWith hardware s

/-- BRK, software interrupt (R298). -/
def execBrkWith (cfg : Config) (s : State) : Result :=
  runInstr cfg .brk s (softwareInterrupt cfg)

/-- BRK on this machine. -/
def execBrk (s : State) : Result := execBrkWith hardware s

end Sys2Proof.Machine
end

