-- ==== Sys2Proof/Machine/TransferFlags.lean ====
section
/-! DEFINITION. The meanings of 46_transfer_flags.md. -/

namespace Sys2Proof.Machine

/-- TAX, transfer A to X (R320). -/
def execTaxWith (cfg : Config) (s : State) : Result :=
  runInstr cfg .tax s (fun t => setNZ t.a (t.setX t.a))

/-- TAX on this machine. -/
def execTax (s : State) : Result := execTaxWith hardware s

/-- TAY, transfer A to Y (R321). -/
def execTayWith (cfg : Config) (s : State) : Result :=
  runInstr cfg .tay s (fun t => setNZ t.a (t.setY t.a))

/-- TAY on this machine. -/
def execTay (s : State) : Result := execTayWith hardware s

/-- TXA, transfer X to A (R322). -/
def execTxaWith (cfg : Config) (s : State) : Result :=
  runInstr cfg .txa s (fun t => setNZ t.x (t.setA t.x))

/-- TXA on this machine. -/
def execTxa (s : State) : Result := execTxaWith hardware s

/-- TYA, transfer Y to A (R323). -/
def execTyaWith (cfg : Config) (s : State) : Result :=
  runInstr cfg .tya s (fun t => setNZ t.y (t.setA t.y))

/-- TYA on this machine. -/
def execTya (s : State) : Result := execTyaWith hardware s

/-- TSX, transfer S to X (R324). -/
def execTsxWith (cfg : Config) (s : State) : Result :=
  runInstr cfg .tsx s (fun t => setNZ t.sp (t.setX t.sp))

/-- TSX on this machine. -/
def execTsx (s : State) : Result := execTsxWith hardware s

/-- TXS, transfer X to S; no flag is written (R325). -/
def execTxsWith (cfg : Config) (s : State) : Result :=
  runInstr cfg .txs s (fun t => t.setSp t.x)

/-- TXS on this machine. -/
def execTxs (s : State) : Result := execTxsWith hardware s

/-- SEC, `P.C <- 1` (R326). -/
def execSecWith (cfg : Config) (s : State) : Result :=
  runInstr cfg .sec s (fun t => t.setFlag .c true)

/-- SEC on this machine. -/
def execSec (s : State) : Result := execSecWith hardware s

/-- CLC, `P.C <- 0` (R327). -/
def execClcWith (cfg : Config) (s : State) : Result :=
  runInstr cfg .clc s (fun t => t.setFlag .c false)

/-- CLC on this machine. -/
def execClc (s : State) : Result := execClcWith hardware s

/-- SED, `P.D <- 1` (R328). -/
def execSedWith (cfg : Config) (s : State) : Result :=
  runInstr cfg .sed s (fun t => t.setFlag .d true)

/-- SED on this machine. -/
def execSed (s : State) : Result := execSedWith hardware s

/-- CLD, `P.D <- 0` (R329). -/
def execCldWith (cfg : Config) (s : State) : Result :=
  runInstr cfg .cld s (fun t => t.setFlag .d false)

/-- CLD on this machine. -/
def execCld (s : State) : Result := execCldWith hardware s

/-- SEI, `P.I <- 1` (R330). -/
def execSeiWith (cfg : Config) (s : State) : Result :=
  runInstr cfg .sei s (fun t => t.setFlag .i true)

/-- SEI on this machine. -/
def execSei (s : State) : Result := execSeiWith hardware s

/-- CLI, `P.I <- 0` (R331). -/
def execCliWith (cfg : Config) (s : State) : Result :=
  runInstr cfg .cli s (fun t => t.setFlag .i false)

/-- CLI on this machine. -/
def execCli (s : State) : Result := execCliWith hardware s

/-- CLV, `P.V <- 0` (R332). -/
def execClvWith (cfg : Config) (s : State) : Result :=
  runInstr cfg .clv s (fun t => t.setFlag .v false)

/-- CLV on this machine. -/
def execClv (s : State) : Result := execClvWith hardware s

end Sys2Proof.Machine
end

