-- ==== Sys2Proof/Machine/Undocumented.lean ====
section
/-! DEFINITION. The meanings of 47_undocumented.md (but 0xEB). -/

namespace Sys2Proof.Machine

/-- LAX, load A and X (R351). -/
def execLaxWith (cfg : Config) (m : Operand) (s : State) : Result :=
  runInstr cfg (.lax m) s (readClass m (fun v t => setNZ v ((t.setA v).setX v)))

/-- LAX on this machine. -/
def execLax (m : Operand) (s : State) : Result := execLaxWith hardware m s

/-- SAX, store A AND X (R352). -/
def execSaxWith (cfg : Config) (m : Operand) (s : State) : Result :=
  runInstr cfg (.sax m) s (writeClass m (fun t => t.a &&& t.x))

/-- SAX on this machine. -/
def execSax (m : Operand) (s : State) : Result := execSaxWith hardware m s

/-- DCP, DEC then CMP (R353, R350). -/
def execDcpWith (cfg : Config) (m : Operand) (s : State) : Result :=
  runInstr cfg (.dcp m) s (modifyClass m decrement (fun r t => compare t.a r t))

/-- DCP on this machine. -/
def execDcp (m : Operand) (s : State) : Result := execDcpWith hardware m s

/-- ISC, INC then SBC (R354, R350). -/
def execIscWith (cfg : Config) (m : Operand) (s : State) : Result :=
  runInstr cfg (.isc m) s (modifyClass m increment subWithBorrow)

/-- ISC on this machine. -/
def execIsc (m : Operand) (s : State) : Result := execIscWith hardware m s

/-- SLO, ASL then ORA (R355, R350). -/
def execSloWith (cfg : Config) (m : Operand) (s : State) : Result :=
  runInstr cfg (.slo m) s (modifyClass m shiftLeft orA)

/-- SLO on this machine. -/
def execSlo (m : Operand) (s : State) : Result := execSloWith hardware m s

/-- RLA, ROL then AND (R356, R350). -/
def execRlaWith (cfg : Config) (m : Operand) (s : State) : Result :=
  runInstr cfg (.rla m) s (modifyClass m rotateLeft andA)

/-- RLA on this machine. -/
def execRla (m : Operand) (s : State) : Result := execRlaWith hardware m s

/-- SRE, LSR then EOR (R357, R350). -/
def execSreWith (cfg : Config) (m : Operand) (s : State) : Result :=
  runInstr cfg (.sre m) s (modifyClass m shiftRight eorA)

/-- SRE on this machine. -/
def execSre (m : Operand) (s : State) : Result := execSreWith hardware m s

/-- RRA, ROR then ADC (R358, R350). -/
def execRraWith (cfg : Config) (m : Operand) (s : State) : Result :=
  runInstr cfg (.rra m) s (modifyClass m rotateRight addWithCarry)

/-- RRA on this machine. -/
def execRra (m : Operand) (s : State) : Result := execRraWith hardware m s

/-- DOP, the two-byte no-operation: one read, its value discarded (R359). -/
def execDopWith (cfg : Config) (op : Byte) (m : Operand) (s : State) : Result :=
  runInstr cfg (.dop op m) s (readClass m (fun _ t => t))

/-- DOP on this machine. -/
def execDop (op : Byte) (m : Operand) (s : State) : Result := execDopWith hardware op m s

/-- TOP, the three-byte no-operation: one read, its value discarded (R360). -/
def execTopWith (cfg : Config) (op : Byte) (m : Operand) (s : State) : Result :=
  runInstr cfg (.top op m) s (readClass m (fun _ t => t))

/-- TOP on this machine. -/
def execTop (op : Byte) (m : Operand) (s : State) : Result := execTopWith hardware op m s

end Sys2Proof.Machine
end

