-- ==== Sys2Proof/Machine/Fetch.lean ====
section
/-! DEFINITION. Fetching an instruction through the bus, and storing one where the next step fetches it. -/

namespace Sys2Proof.Machine

/-- Fetch the instruction at PC: the opcode byte, then the operand bytes its mode asks for, in address order, each
read once (R92, R151, R157). PC itself is advanced by the instruction's meaning (`advance`); here only reads happen. -/
def fetchInstr (cfg : Config) (s : State) : Instr × State :=
  let op := memRead s.pc s
  let b1 := if 2 ≤ lengthOf cfg op.1 then memRead (s.pc + 1) op.2 else (0, op.2)
  let b2 := if 3 ≤ lengthOf cfg op.1 then memRead (s.pc + 2) b1.2 else (0, b1.2)
  (assemble cfg op.1 b1.1 b2.1, b2.2)

/-- Set the byte of the storage cell at an address, PRG-ROM included: the loader's act, not the core's. -/
def pokeByte (a : Word) (v : Byte) (s : State) : State :=
  match cellOf s.romPages a with
  | some k => s.setMem (s.mem.write k v)
  | none => s

/-- Set the bytes from an address up. -/
def pokeBytes (a : Word) (bytes : List Byte) (s : State) : State :=
  match bytes with
  | [] => s
  | b :: rest => pokeBytes (a + 1) rest (pokeByte a b s)

/-- The three bytes from PC up are storage. -/
def pcInStorage (s : State) : Bool :=
  (cellOf s.romPages s.pc).isSome && (cellOf s.romPages (s.pc + 1)).isSome && (cellOf s.romPages (s.pc + 2)).isSome

/-- A state whose next step fetches at PC, and whose PC names storage: the session live, nothing pending, an image
with a page, and PC moved to 0x0000 only where it does not name storage (DESIGN CHOICE, safe; log 13). -/
def readyToFetch (s : State) : State :=
  { s with
    session := .live
    pending := none
    romPages := if s.romPages = 0 then 16 else s.romPages
    pc := if pcInStorage { s with romPages := if s.romPages = 0 then 16 else s.romPages } then s.pc else 0x0000 }

end Sys2Proof.Machine
end

