-- ==== Sys2Proof/Machine/WithParams.lean ====
section
/-! DEFINITION. The meanings and the step as functions of the parameters, which "a model takes ... as an argument"
(R9). `exec` and `step` are these at the defaults, `hardware`. -/

namespace Sys2Proof.Machine

/-- The meaning of every instruction under the parameters `cfg`. -/
def execWith (cfg : Config) (i : Instr) (s : State) : Result :=
  match i with
  | .adc m => execAdcWith cfg m s
  | .sbc m => execSbcWith cfg m s
  | .sbcEB v => execSbcEBWith cfg v s
  | .and m => execAndWith cfg m s
  | .ora m => execOraWith cfg m s
  | .eor m => execEorWith cfg m s
  | .bit m => execBitWith cfg m s
  | .cmp m => execCmpWith cfg m s
  | .cpx m => execCpxWith cfg m s
  | .cpy m => execCpyWith cfg m s
  | .asl m => execAslWith cfg m s
  | .lsr m => execLsrWith cfg m s
  | .rol m => execRolWith cfg m s
  | .ror m => execRorWith cfg m s
  | .inc m => execIncWith cfg m s
  | .dec m => execDecWith cfg m s
  | .inx => execInxWith cfg s
  | .iny => execInyWith cfg s
  | .dex => execDexWith cfg s
  | .dey => execDeyWith cfg s
  | .bpl offset => execBplWith cfg offset s
  | .bmi offset => execBmiWith cfg offset s
  | .bvc offset => execBvcWith cfg offset s
  | .bvs offset => execBvsWith cfg offset s
  | .bcc offset => execBccWith cfg offset s
  | .bcs offset => execBcsWith cfg offset s
  | .bne offset => execBneWith cfg offset s
  | .beq offset => execBeqWith cfg offset s
  | .jmp m => execJmpWith cfg m s
  | .pha => execPhaWith cfg s
  | .php => execPhpWith cfg s
  | .pla => execPlaWith cfg s
  | .plp => execPlpWith cfg s
  | .jsr target => execJsrWith cfg target s
  | .rts => execRtsWith cfg s
  | .rti => execRtiWith cfg s
  | .brk => execBrkWith cfg s
  | .tax => execTaxWith cfg s
  | .tay => execTayWith cfg s
  | .txa => execTxaWith cfg s
  | .tya => execTyaWith cfg s
  | .tsx => execTsxWith cfg s
  | .txs => execTxsWith cfg s
  | .sec => execSecWith cfg s
  | .clc => execClcWith cfg s
  | .sed => execSedWith cfg s
  | .cld => execCldWith cfg s
  | .sei => execSeiWith cfg s
  | .cli => execCliWith cfg s
  | .clv => execClvWith cfg s
  | .lax m => execLaxWith cfg m s
  | .sax m => execSaxWith cfg m s
  | .dcp m => execDcpWith cfg m s
  | .isc m => execIscWith cfg m s
  | .slo m => execSloWith cfg m s
  | .rla m => execRlaWith cfg m s
  | .sre m => execSreWith cfg m s
  | .rra m => execRraWith cfg m s
  | .dop op m => execDopWith cfg op m s
  | .top op m => execTopWith cfg op m s
  | .lda m => execLdaWith cfg m s
  | .ldx m => execLdxWith cfg m s
  | .ldy m => execLdyWith cfg m s
  | .sta m => execStaWith cfg m s
  | .stx m => execStxWith cfg m s
  | .sty m => execStyWith cfg m s
  | .nop => execNopWith cfg s
  | .defaultNop op => execDefaultNopWith cfg op s

/-- `step()` (R150) over given parameters and meanings: refused before any initialisation (R463) and on an image with
no page (R87; DEDUCED, safe, log 8); otherwise the latched event is serviced, or one instruction is fetched and
executed, never both. -/
def stepBy (cfg : Config) (run : Instr → State → Result) (s : State) : Result :=
  match s.session with
  | .beforeInit => .refused .stepBeforeInit
  | .live =>
    if s.romPages = 0 then .refused .malformedImage
    else
      match s.pending with
      | some e => .next (serviceEvent cfg e s)
      | none => run (fetchInstr cfg s).1 (fetchInstr cfg s).2

/-- `step()` under the parameters `cfg` (R9, R150). -/
def stepWith (cfg : Config) (s : State) : Result := stepBy cfg (execWith cfg) s

end Sys2Proof.Machine
end

