-- ==== Sys2Proof/Machine/Step.lean ====
section
/-! DEFINITION. One call of `step()` (R150). -/

namespace Sys2Proof.Machine

/-- `step()` (R150) with the parameters at their defaults and the meanings of `exec`. -/
def step (s : State) : Host.Outcome State Fault Refusal := stepBy hardware exec s

/-- The state with the instruction whose bits are `w` stored where the next step fetches. -/
def State.withFetchWord (s : State) (nbits w : Nat) : State :=
  pokeBytes (readyToFetch s).pc (tableBytes nbits w) (readyToFetch s)

end Sys2Proof.Machine
end

