-- ==== Sys2Proof/Machine/Cartridge.lean ====
section
/-! DEFINITION. The loader (R86, outside CORE): the sizes that the iNES header fields set, and the PRG-ROM cells of
a cartridge file. CHR memory is not reachable by the core (R5) and is not kept. -/

namespace Sys2Proof.Machine

/-- The header fields the loader consumes (R86). -/
structure CartridgeHeader where
  /-- Byte 4: the PRG-ROM size in 16 KiB units. -/
  prgUnits : Byte
  /-- Byte 5: the CHR-ROM size in 8 KiB units. -/
  chrUnits : Byte
  /-- Byte 6: bit 2 marks a 512-byte trainer. -/
  flags6 : Byte
  /-- Byte 8: the PRG-RAM size in 8 KiB units. -/
  prgRamUnits : Byte
  deriving DecidableEq, Repr

/-- The header of a cartridge file (R86). -/
def headerOf (file : List Byte) : CartridgeHeader :=
  ⟨file.getD 4 0, file.getD 5 0, file.getD 6 0, file.getD 8 0⟩

/-- `npages = byte[4] * 16` (R86). -/
def CartridgeHeader.npages (h : CartridgeHeader) : Nat := h.prgUnits.toNat * 16

/-- The number of one-KiB CHR pages: `byte[5] * 8`, or 8 writable pages when it is zero (R86). -/
def CartridgeHeader.chrPages (h : CartridgeHeader) : Nat := if h.chrUnits = 0 then 8 else h.chrUnits.toNat * 8

/-- A 512-byte trainer stands before the PRG data (R86). -/
def CartridgeHeader.hasTrainer (h : CartridgeHeader) : Bool := h.flags6.getLsbD 2

/-- The PRG-RAM size in bytes, "defaulting to 1 unit (8KB) when zero" (R86). -/
def CartridgeHeader.prgRamBytes (h : CartridgeHeader) : Nat :=
  (if h.prgRamUnits = 0 then 1 else h.prgRamUnits.toNat) * 8192

/-- The cells of consecutive bytes, those equal to an unlisted cell's byte left out. -/
def cellsFrom (k : Nat) (bytes : List Byte) : Memory :=
  match bytes with
  | [] => []
  | b :: rest => if b = unlisted k then cellsFrom (k + 1) rest else (k, b) :: cellsFrom (k + 1) rest

/-- The PRG data of a file: after the 16-byte header and the trainer, which "is skipped and not retained" (R86). -/
def prgData (file : List Byte) : List Byte :=
  let h := headerOf file
  (file.drop (if h.hasTrainer then 16 + 512 else 16)).take (1024 * h.npages)

/-- The PRG-ROM cells a file fills: the pages 0 to 31 that the core can reach (R85, R86). -/
def loadPrgRom (file : List Byte) : Memory := cellsFrom 0x8000 ((prgData file).take (1024 * 32))

/-- Put a cartridge in place before power-on: "Memory images are constructed once when a cartridge is loaded" (R86).
After an initialisation the host makes no memory access (R89), and the load is refused (U6). R86 does not say what a file
of another length than its header's sizes does. The model looks at the PRG data alone: where they are cut short the file is
malformed and leaves no page (DESIGN CHOICE, safe; log 17); where they are complete it is accepted, even if its CHR data
are cut short or missing, or bytes follow them (DESIGN CHOICE, unsafe; log 23). -/
def insertCartridge (file : List Byte) (s : State) : Result :=
  match s.session with
  | .live => .refused .hostMemoryWrite
  | .beforeInit =>
    let h := headerOf file
    if (prgData file).length = 1024 * h.npages then .next { s with mem := loadPrgRom file, romPages := h.npages }
    else .next { s with mem := [], romPages := 0 }

end Sys2Proof.Machine
end

