-- ==== Sys2Proof/Machine/HostPort.lean ====
section
/-! DEFINITION. What the host may do to the core between steps (R6, R7): power on, install a launch state, latch a
request, and read the registers. -/

namespace Sys2Proof.Machine

/-- The latch transition (R412). -/
def latchAfter (pending : Option Event) (request : Event) : Option Event :=
  match pending, request with
  | none, t => some t
  | some .irq, t => some t
  | some .nmi, .reset => some .reset
  | some .nmi, .nmi => some .nmi
  | some .nmi, .irq => some .nmi
  | some .reset, _ => some .reset

/-- `requestReset()`, `requestNmi()`, `requestIrq()`: they change nothing but the latch (R413). -/
def request (t : Event) (s : State) : State := s.setPending (latchAfter s.pending t)

/-- The cells of PRG-RAM. -/
def isPrgRamCell (c : Host.Cell) : Bool := decide (0x6000 ≤ c.1) && decide (c.1 < 0x8000)

/-- The cells of PRG-ROM. -/
def isPrgRomCell (c : Host.Cell) : Bool := decide (0x8000 ≤ c.1)

/-- Memory at power-on: internal RAM all 0x00, PRG-RAM as PRG_RAM_INIT gives it, PRG-ROM as loaded (R460). -/
def powerOnMemory (prgRamInit loaded : Memory) : Memory :=
  prgRamInit.filter isPrgRamCell ++ loaded.filter isPrgRomCell

/-- `powerOn()` (R460), with PRG_RAM_INIT as an argument (R84; DESIGN CHOICE, safe, log 4). The
image is the PRG-ROM the state already holds. -/
def powerOn (prgRamInit : Memory) (s : State) : Result :=
  match s.session with
  | .live => .refused .secondPowerOn
  | .beforeInit =>
    let m := powerOnMemory prgRamInit s.mem
    if imageOk s.romPages m then
      let s1 : State :=
        { s with a := 0, x := 0, y := 0, sp := 0xFF, p := 0x34, pending := none, session := .live, mem := m }
      let target := readWord resetVector s1
      .next ((target.2.setPc target.1).setCyc 7)
    else .refused .malformedImage

/-- What a launch state gives (R464). -/
structure Launch where
  a : Byte
  x : Byte
  y : Byte
  sp : Byte
  p : Byte
  pc : Word
  mem : Memory
  romPages : Nat
  deriving DecidableEq, Repr

/-- Install a launch state: the second way to initialise (R464). R460, R464 and D31 refuse a `powerOn` in a session
already initialised and say nothing of a launch there: that it is refused too, under the same name, is the model's
choice (DESIGN CHOICE, safe; log 22). -/
def launch (l : Launch) (s : State) : Result :=
  match s.session with
  | .live => .refused .secondPowerOn
  | .beforeInit =>
    if imageOk l.romPages l.mem then
      .next { s with
        a := l.a, x := l.x, y := l.y, sp := l.sp, p := l.p, pc := l.pc
        pending := none, cyc := 0, session := .live, mem := l.mem, romPages := l.romPages }
    else .refused .malformedImage

/-- The launch of NESRS's conformance scenario, over a PRG_RAM_INIT and an image (R464, R53). -/
def conformanceLaunch (prgRamInit rom : Memory) (npages : Nat) : Launch where
  a := 0x00
  x := 0x00
  y := 0x00
  sp := 0xFD
  p := 0x24
  pc := 0xC000
  mem := powerOnMemory prgRamInit rom
  romPages := npages

/-- What the host reads: "A, X, Y, S, P, PC, and the last step's consumed cycle count" (R7, R52). -/
structure Observation where
  a : Byte
  x : Byte
  y : Byte
  sp : Byte
  p : Byte
  pc : Word
  cyc : Nat
  deriving DecidableEq, Repr

/-- Reading the registers, refused before any initialisation (R52, R463). -/
def observe (s : State) : Host.Outcome Observation Fault Refusal :=
  match s.session with
  | .beforeInit => .refused .readBeforeInit
  | .live => .next ⟨s.a, s.x, s.y, s.sp, s.p, s.pc, s.cyc⟩

end Sys2Proof.Machine
end

