-- ==== Sys2Proof/Safety.lean ====
section
/-! DEFINITION. What counts as a safe run, and the terms that the statements are written in: states the machine may
be in, what an operation leaves unchanged, and what the rules say each instruction may write. -/

namespace Sys2Proof.Machine

/-- A state from which a step is possible (R429, R463, R87). -/
abbrev Ready (s : State) : Prop := s.session = .live ∧ s.romPages ≠ 0

/-- The invariant of a live machine: a well-formed image and memory in canonical form over the cells that exist (R87),
the session live (R463), the Reserved bit set (R45), and CYC in its range (R425). -/
abbrev Inv (s : State) : Prop :=
  imageOk s.romPages s.mem = true ∧ s.session = .live ∧ s.flag .r = true ∧ s.cyc ≤ 8

/-- A run under the parameters `cfg`: steps until the host's predicate `END_OF_RUN` holds (R470), at most `n` of them. -/
def runUntil (cfg : Config) (endOfRun : State → Bool) : Nat → State → Result
  | 0, s => .next s
  | n + 1, s =>
    if endOfRun s then .next s
    else
      match stepWith cfg s with
      | .next t => runUntil cfg endOfRun n t
      | .fault f => .fault f
      | .refused r => .refused r

/-- A safe run: no step of it stops (R410, R429). -/
def SafeRun (cfg : Config) (endOfRun : State → Bool) (n : Nat) (s : State) : Prop :=
  ∃ t, runUntil cfg endOfRun n s = .next t

/-- The states that the host and the core reach under the parameters `cfg` "from `powerOn` or a Reset entry by any sequence of steps and
requests" (R45). -/
inductive Reachable (cfg : Config) : State → Prop where
  | powerOn {prgRamInit : Memory} {s t : State} (h : Machine.powerOn prgRamInit s = .next t) : Reachable cfg t
  | resetEntry (s : State) : Reachable cfg (enterReset s)
  | step {s t : State} (hs : Reachable cfg s) (h : stepWith cfg s = .next t) : Reachable cfg t
  | request {s : State} (hs : Reachable cfg s) (e : Event) : Reachable cfg (Machine.request e s)

/-- The four 8-bit registers other than P. -/
inductive Reg where
  | a | x | y | s
  deriving DecidableEq, Repr

/-- The value of a register. -/
def State.reg (t : State) : Reg → Byte
  | .a => t.a
  | .x => t.x
  | .y => t.y
  | .s => t.sp

/-- The listed registers and flags, the latch, the session and the image's page count are as before. -/
def Keeps (regs : List Reg) (flags : List Flag) (s t : State) : Prop :=
  (∀ r ∈ regs, t.reg r = s.reg r) ∧ (∀ f ∈ flags, t.flag f = s.flag f) ∧
    t.pending = s.pending ∧ t.session = s.session ∧ t.romPages = s.romPages

/-- `SetNZ(r)` has happened: N is bit 7 of `r`, and Z says whether `r` is 0 (R12). -/
def NZFrom (r : Byte) (t : State) : Prop := t.flag .n = r.getLsbD 7 ∧ t.flag .z = decide (r = 0)

/-- Two addresses name one writable cell: the same byte of internal RAM, or of PRG-RAM (R79, R84, R88). -/
def SharesCell (a b : Word) : Prop := ∃ k, writableCell a = some k ∧ writableCell b = some k

/-- Every byte of memory reads as before. The open band has no storage: its reads are free draws (R81). -/
def SameMemory (s t : State) : Prop := ∀ a, regionOf a ≠ .openBand → t.peek a = s.peek a

/-- Every byte of memory reads as before, but those that share a cell with a listed address. -/
def SameMemoryOutside (stored : List Word) (s t : State) : Prop :=
  ∀ a, regionOf a ≠ .openBand → (∀ ea ∈ stored, ¬ SharesCell a ea) → t.peek a = s.peek a

/-- The byte `v` has been stored at `ea`, and nowhere else: it reads back where `ea` names internal RAM or PRG-RAM,
and a store anywhere else changes nothing (R75). -/
def StoresByte (ea : Word) (v : Byte) (s t : State) : Prop :=
  (∀ k, writableCell ea = some k → t.peek ea = v) ∧ SameMemoryOutside [ea] s t

/-- The cost, under the parameters `cfg`, of an instruction that is no branch: its base cost and its page penalty (R152, R153, R154). -/
def costOf (cfg : Config) (i : Instr) (s : State) : Nat :=
  match i.opcode cfg with
  | some op => cfg.cycleCost op + (if penaltyBearing cfg op && pageCross i.operand s then 1 else 0)
  | none => 0

/-- PC is at the next sequential instruction, and CYC is the instruction's cost on this machine (R34, R152). -/
def FallsThrough (i : Instr) (s t : State) : Prop :=
  t.pc = s.pc + BitVec.ofNat 16 i.length ∧ t.cyc = costOf hardware i s

/-- The opcode bytes of an operation are exactly these: mode, byte, and whether the byte is penalty-bearing (the
marker +p of the rules' opcode lines). -/
def OpcodesAre (f : Operand → Instr) (forms : List (Mode × Byte × Bool)) : Prop :=
  ∀ m op, (f m).opcode hardware = some op ↔ (m.mode, op, penaltyBearing hardware op) ∈ forms

/-- The flags an instruction may write (R36-R43). -/
def flagsWritten : Instr → List Flag
  | .adc _ | .sbc _ | .sbcEB _ | .isc _ | .rra _ => [.n, .v, .z, .c]
  | .and _ | .ora _ | .eor _ | .inc _ | .dec _ | .inx | .iny | .dex | .dey => [.n, .z]
  | .tax | .tay | .txa | .tya | .tsx | .pla | .lda _ | .ldx _ | .ldy _ | .lax _ => [.n, .z]
  | .bit _ => [.n, .v, .z]
  | .cmp _ | .cpx _ | .cpy _ | .asl _ | .lsr _ | .rol _ | .ror _ => [.n, .z, .c]
  | .dcp _ | .slo _ | .rla _ | .sre _ => [.n, .z, .c]
  | .sec | .clc => [.c]
  | .sed | .cld => [.d]
  | .sei | .cli => [.i]
  | .clv => [.v]
  | .plp | .rti => [.n, .v, .r, .b, .d, .i, .z, .c]
  | .brk => [.b, .d, .i]
  | .bpl _ | .bmi _ | .bvc _ | .bvs _ | .bcc _ | .bcs _ | .bne _ | .beq _ | .jmp _ => []
  | .pha | .php | .jsr _ | .rts | .txs | .sax _ | .dop _ _ | .top _ _ => []
  | .sta _ | .stx _ | .sty _ | .nop | .defaultNop _ => []

/-- The registers an instruction may write (R31, R32, R33). -/
def registersWritten : Instr → List Reg
  | .adc _ | .sbc _ | .sbcEB _ | .and _ | .ora _ | .eor _ | .lda _ | .txa | .tya => [.a]
  | .slo _ | .rla _ | .sre _ | .rra _ | .isc _ => [.a]
  | .asl m | .lsr m | .rol m | .ror m => if m = .acc then [.a] else []
  | .pla => [.a, .s]
  | .lax _ => [.a, .x]
  | .ldx _ | .inx | .dex | .tax | .tsx => [.x]
  | .ldy _ | .iny | .dey | .tay => [.y]
  | .pha | .php | .plp | .jsr _ | .rts | .rti | .brk | .txs => [.s]
  | .bit _ | .cmp _ | .cpx _ | .cpy _ | .inc _ | .dec _ | .jmp _ => []
  | .bpl _ | .bmi _ | .bvc _ | .bvs _ | .bcc _ | .bcs _ | .bne _ | .beq _ => []
  | .sec | .clc | .sed | .cld | .sei | .cli | .clv | .sax _ | .dcp _ | .dop _ _ | .top _ _ => []
  | .sta _ | .stx _ | .sty _ | .nop | .defaultNop _ => []

/-- The addresses an instruction stores to, in this state: the effective address of the write and the
read-modify-write classes (R156), and the stack bytes of the pushes (R290-R298). -/
def storedAddresses (i : Instr) (s : State) : List Word :=
  match i with
  | .sta m | .stx m | .sty m | .sax m | .inc m | .dec m => [effAddr m s]
  | .dcp m | .isc m | .slo m | .rla m | .sre m | .rra m => [effAddr m s]
  | .asl m | .lsr m | .rol m | .ror m => if m = .acc then [] else [effAddr m s]
  | .pha | .php => [stackAddr s.sp]
  | .jsr _ => [stackAddr s.sp, stackAddr (s.sp - 1)]
  | .brk => [stackAddr s.sp, stackAddr (s.sp - 1), stackAddr (s.sp - 2)]
  | .adc _ | .sbc _ | .sbcEB _ | .and _ | .ora _ | .eor _ | .bit _ | .cmp _ | .cpx _ | .cpy _ => []
  | .inx | .iny | .dex | .dey | .jmp _ | .pla | .plp | .rts | .rti => []
  | .bpl _ | .bmi _ | .bvc _ | .bvs _ | .bcc _ | .bcs _ | .bne _ | .beq _ => []
  | .tax | .tay | .txa | .tya | .tsx | .txs | .sec | .clc | .sed | .cld | .sei | .cli | .clv => []
  | .lax _ | .dop _ _ | .top _ _ | .lda _ | .ldx _ | .ldy _ | .nop | .defaultNop _ => []

/-- The number of the `n` bytes from an address up that lie in the open band, each of whose reads is a draw (R81). -/
def bandBytes (a : Word) : Nat → Nat
  | 0 => 0
  | n + 1 => (if regionOf a = .openBand then 1 else 0) + bandBytes (a + 1) n

end Sys2Proof.Machine
end

