-- ==== Sys2Proof/Certificates/Slice0/Obligations.lean ====
section
/-! DEFINITION. The statements for the provers: what the rules of spec/ say the instructions and the machine do. -/

open Sys2Proof Sys2Proof.Machine

/-! ## Encoding -/

/-- R120-R124, R361: decoding the bytes of a well-formed instruction gives it back, whatever follows them and whatever
the parameters are. -/
def Obligations.DecodeOfEncode : Prop :=
  ∀ (cfg : Config) (i : Instr) (rest : List Byte), i.wf cfg = true → decode cfg (encode cfg i ++ rest) = .ok (i, rest)

/-- R120-R128: whatever decodes is a well-formed instruction, and its bytes are the bytes that were consumed. -/
def Obligations.EncodeOfDecode : Prop :=
  ∀ (cfg : Config) (bytes : List Byte) (i : Instr) (rest : List Byte), decode cfg bytes = .ok (i, rest) →
    i.wf cfg = true ∧ encode cfg i ++ rest = bytes

/-- R120, R127: every byte value is an opcode, and an instruction is 1, 2 or 3 bytes long. -/
def Obligations.EveryOpcodeByteDecodes : Prop :=
  ∀ (cfg : Config) (op b1 b2 : Byte) (rest : List Byte), ∃ i left,
    decode cfg (op :: b1 :: b2 :: rest) = .ok (i, left) ∧ i.opcode cfg = some op ∧
      1 ≤ i.length ∧ i.length ≤ 3 ∧ left = (op :: b1 :: b2 :: rest).drop i.length

/-- R129's example column: these bytes are these instructions. -/
def Obligations.SpecWordsDecode : Prop :=
  decode hardware [0xE8] = .ok (.inx, []) ∧
  decode hardware [0x0A] = .ok (.asl .acc, []) ∧
  decode hardware [0xA9, 0x10] = .ok (.lda (.imm 0x10), []) ∧
  decode hardware [0xA5, 0x10] = .ok (.lda (.zp 0x10), []) ∧
  decode hardware [0xB5, 0x10] = .ok (.lda (.zpx 0x10), []) ∧
  decode hardware [0xB6, 0x10] = .ok (.ldx (.zpy 0x10), []) ∧
  decode hardware [0xAD, 0x34, 0x12] = .ok (.lda (.abs 0x1234), []) ∧
  decode hardware [0xBD, 0x34, 0x12] = .ok (.lda (.abx 0x1234), []) ∧
  decode hardware [0xB9, 0x34, 0x12] = .ok (.lda (.aby 0x1234), []) ∧
  decode hardware [0xD0, 0x0E] = .ok (.bne 0x0E, []) ∧
  decode hardware [0xA1, 0x10] = .ok (.lda (.izx 0x10), []) ∧
  decode hardware [0xB1, 0x10] = .ok (.lda (.izy 0x10), []) ∧
  decode hardware [0x6C, 0x34, 0x12] = .ok (.jmp (.ind 0x1234), [])

/-! ## Addressing modes -/

/-- R183 to R194: the effective address of each mode (of Immediate and Relative, whose address hangs on PC, with PC
past the instruction), and the page-crossing test of the three modes that have one (R188, R189, R190, R193). -/
def Obligations.EffectiveAddresses : Prop :=
  (∀ (b : Byte) (w : Word) (s : State),
    let cell := fun n : Nat => s.peek (BitVec.ofNat 16 (n % 256))
    let pointer := fun n : Nat => 256 * (cell (n + 1)).toNat + (cell n).toNat
    effAddr (.imm b) s = s.pc - 1 ∧ operandValue (.imm b) s = b ∧
    (effAddr (.zp b) s).toNat = b.toNat ∧
    (effAddr (.zpx b) s).toNat = (b.toNat + s.x.toNat) % 256 ∧
    (effAddr (.zpy b) s).toNat = (b.toNat + s.y.toNat) % 256 ∧
    effAddr (.abs w) s = w ∧
    (effAddr (.abx w) s).toNat = (w.toNat + s.x.toNat) % 65536 ∧
    (effAddr (.aby w) s).toNat = (w.toNat + s.y.toNat) % 65536 ∧
    effAddr (.rel b) s = BitVec.ofInt 16 (s.pc.toNat + b.toInt) ∧
    (effAddr (.izx b) s).toNat = pointer (b.toNat + s.x.toNat) ∧
    (effAddr (.izy b) s).toNat = (pointer b.toNat + s.y.toNat) % 65536 ∧
    effAddr (.ind w) s = wordOf (s.peek w) ((afterRead w s).peek ((w &&& 0xFF00) ||| ((w + 1) &&& 0x00FF))) ∧
    (pageCross (.abx w) s = true ↔ (w.toNat + s.x.toNat) % 65536 / 256 ≠ w.toNat / 256) ∧
    (pageCross (.aby w) s = true ↔ (w.toNat + s.y.toNat) % 65536 / 256 ≠ w.toNat / 256) ∧
    (pageCross (.izy b) s = true ↔
      (pointer b.toNat + s.y.toNat) % 65536 / 256 ≠ pointer b.toNat / 256)) ∧
  ∀ (m : Operand) (s : State), pageCross m s = true → m.mode ∈ [Mode.abx, .aby, .izy]

/-! ## Arithmetic, logic and compare -/

/-- R210. -/
def Obligations.AdcAddsWithCarry : Prop :=
  OpcodesAre .adc [(.imm, 0x69, false), (.zp, 0x65, false), (.zpx, 0x75, false), (.abs, 0x6D, false),
    (.abx, 0x7D, true), (.aby, 0x79, true), (.izx, 0x61, false), (.izy, 0x71, true)] ∧
  ∀ (m : Operand) (s : State), (Instr.adc m).wf hardware = true → ∃ t, exec (.adc m) s = .next t ∧
    let v := operandValue m s
    let sum := s.a.toNat + v.toNat + (s.flag .c).toNat
    let r := BitVec.ofNat 8 sum
    t.a = r ∧ t.flag .c = decide (0xFF < sum) ∧ t.flag .v = ((~~~(s.a ^^^ v) &&& (s.a ^^^ r) &&& 0x80) != 0) ∧
      NZFrom r t ∧ Keeps [.x, .y, .s] [.r, .b, .d, .i] s t ∧ SameMemory s t ∧ FallsThrough (.adc m) s t

/-- R211 and R361: SBC, its undocumented byte 0xEB, and the default no-op of that byte where `EB_IS_SBC` is false. -/
def Obligations.SbcSubtractsWithBorrow : Prop :=
  OpcodesAre .sbc [(.imm, 0xE9, false), (.zp, 0xE5, false), (.zpx, 0xF5, false), (.abs, 0xED, false),
    (.abx, 0xFD, true), (.aby, 0xF9, true), (.izx, 0xE1, false), (.izy, 0xF1, true)] ∧
  (∀ v, (Instr.sbcEB v).opcode hardware = some 0xEB ∧ ∀ s, costOf hardware (.sbcEB v) s = 2) ∧
  (∀ (cfg : Config) (v : Byte) (rest : List Byte), cfg.ebIsSbc = true →
    decode cfg (0xEB :: v :: rest) = .ok (.sbcEB v, rest)) ∧
  (∀ (cfg : Config) (rest : List Byte) (s : State), cfg.ebIsSbc = false →
    decode cfg (0xEB :: rest) = .ok (.defaultNop 0xEB, rest) ∧
    execWith cfg (.defaultNop 0xEB) s = .next { s with pc := s.pc + 1, cyc := cfg.cycleCost 0xEB }) ∧
  ∀ (i : Instr) (m : Operand) (s : State), i.wf hardware = true → (i = .sbc m ∨ ∃ v, i = .sbcEB v ∧ m = .imm v) →
    ∃ t, exec i s = .next t ∧
      let v := operandValue m s
      let sum := s.a.toNat + (v ^^^ 0xFF).toNat + (s.flag .c).toNat
      let r := BitVec.ofNat 8 sum
      t.a = r ∧ t.flag .c = decide (0xFF < sum) ∧ t.flag .v = (((s.a ^^^ v) &&& (s.a ^^^ r) &&& 0x80) != 0) ∧
        NZFrom r t ∧ Keeps [.x, .y, .s] [.r, .b, .d, .i] s t ∧ SameMemory s t ∧ FallsThrough i s t

/-- R220 and the overflow table of 95_test_vectors.md E2: V says that the signed result does not fit, and C says that
the unsigned sum does not fit (ADC) or that there was no borrow (SBC). -/
def Obligations.OverflowIsSignedOverflow : Prop :=
  ∀ (m : Operand) (s t : State),
    let v := operandValue m s
    let c : Int := (s.flag .c).toNat
    (exec (.adc m) s = .next t →
      (t.flag .v = true ↔ s.a.toInt + v.toInt + c < -128 ∨ 127 < s.a.toInt + v.toInt + c) ∧
      (t.flag .c = true ↔ 256 ≤ s.a.toNat + v.toNat + (s.flag .c).toNat)) ∧
    (exec (.sbc m) s = .next t →
      (t.flag .v = true ↔ s.a.toInt - v.toInt - (1 - c) < -128 ∨ 127 < s.a.toInt - v.toInt - (1 - c)) ∧
      (t.flag .c = true ↔ v.toNat + (1 - (s.flag .c).toNat) ≤ s.a.toNat))

/-- R212, R213, R214. -/
def Obligations.LogicWritesA : Prop :=
  OpcodesAre .and [(.imm, 0x29, false), (.zp, 0x25, false), (.zpx, 0x35, false), (.abs, 0x2D, false),
    (.abx, 0x3D, true), (.aby, 0x39, true), (.izx, 0x21, false), (.izy, 0x31, true)] ∧
  OpcodesAre .ora [(.imm, 0x09, false), (.zp, 0x05, false), (.zpx, 0x15, false), (.abs, 0x0D, false),
    (.abx, 0x1D, true), (.aby, 0x19, true), (.izx, 0x01, false), (.izy, 0x11, true)] ∧
  OpcodesAre .eor [(.imm, 0x49, false), (.zp, 0x45, false), (.zpx, 0x55, false), (.abs, 0x4D, false),
    (.abx, 0x5D, true), (.aby, 0x59, true), (.izx, 0x41, false), (.izy, 0x51, true)] ∧
  ∀ (m : Operand) (s : State),
    let v := operandValue m s
    ∀ row ∈ [(Instr.and m, s.a &&& v), (Instr.ora m, s.a ||| v), (Instr.eor m, s.a ^^^ v)],
      row.1.wf hardware = true → ∃ t, exec row.1 s = .next t ∧ t.a = row.2 ∧ NZFrom row.2 t ∧
        Keeps [.x, .y, .s] [.v, .r, .b, .d, .i, .c] s t ∧ SameMemory s t ∧ FallsThrough row.1 s t

/-- R215. That Z comes from A & M is the spec's own inference there: "[derived: Z "from result", the result of BIT being
A & M]". -/
def Obligations.BitTestsTheOperand : Prop :=
  OpcodesAre .bit [(.zp, 0x24, false), (.abs, 0x2C, false)] ∧
  ∀ (m : Operand) (s : State), (Instr.bit m).wf hardware = true → ∃ t, exec (.bit m) s = .next t ∧
    let v := operandValue m s
    t.flag .z = decide (s.a &&& v = 0) ∧ t.flag .n = v.getLsbD 7 ∧ t.flag .v = v.getLsbD 6 ∧
      Keeps [.a, .x, .y, .s] [.r, .b, .d, .i, .c] s t ∧ SameMemory s t ∧ FallsThrough (.bit m) s t

/-- R216, R217, R218, R219. -/
def Obligations.CompareSetsFlagsOnly : Prop :=
  OpcodesAre .cmp [(.imm, 0xC9, false), (.zp, 0xC5, false), (.zpx, 0xD5, false), (.abs, 0xCD, false),
    (.abx, 0xDD, true), (.aby, 0xD9, true), (.izx, 0xC1, false), (.izy, 0xD1, true)] ∧
  OpcodesAre .cpx [(.imm, 0xE0, false), (.zp, 0xE4, false), (.abs, 0xEC, false)] ∧
  OpcodesAre .cpy [(.imm, 0xC0, false), (.zp, 0xC4, false), (.abs, 0xCC, false)] ∧
  ∀ (m : Operand) (s : State), ∀ row ∈ [(Instr.cmp m, s.a), (Instr.cpx m, s.x), (Instr.cpy m, s.y)],
    row.1.wf hardware = true → ∃ t, exec row.1 s = .next t ∧
      let v := operandValue m s
      t.flag .c = decide (v.toNat ≤ row.2.toNat) ∧ NZFrom (row.2 - v) t ∧
        Keeps [.a, .x, .y, .s] [.v, .r, .b, .d, .i] s t ∧ SameMemory s t ∧ FallsThrough row.1 s t

/-- R221: ADC, SBC, ISC and RRA do the same whatever D holds, and leave it as it was. -/
def Obligations.DecimalFlagChangesNothing : Prop :=
  ∀ (m : Operand) (b : Byte) (d : Bool) (s t : State),
    ∀ i ∈ [Instr.adc m, .sbc m, .sbcEB b, .isc m, .rra m],
      exec i s = .next t → exec i (s.setFlag .d d) = .next (t.setFlag .d d)

/-! ## Shifts, rotates, increments and decrements -/

/-- R240, R241, R242, R243: the result goes to A in accumulator mode, else to the effective address. -/
def Obligations.ShiftsAndRotates : Prop :=
  OpcodesAre .asl [(.acc, 0x0A, false), (.zp, 0x06, false), (.zpx, 0x16, false), (.abs, 0x0E, false), (.abx, 0x1E, false)] ∧
  OpcodesAre .lsr [(.acc, 0x4A, false), (.zp, 0x46, false), (.zpx, 0x56, false), (.abs, 0x4E, false), (.abx, 0x5E, false)] ∧
  OpcodesAre .rol [(.acc, 0x2A, false), (.zp, 0x26, false), (.zpx, 0x36, false), (.abs, 0x2E, false), (.abx, 0x3E, false)] ∧
  OpcodesAre .ror [(.acc, 0x6A, false), (.zp, 0x66, false), (.zpx, 0x76, false), (.abs, 0x6E, false), (.abx, 0x7E, false)] ∧
  ∀ (m : Operand) (s : State), Memory.wf s.mem = true →
    let v := operandValue m s
    let c := (s.flag .c).toNat
    ∀ row ∈ [(Instr.asl m, BitVec.ofNat 8 (2 * v.toNat), v.getLsbD 7), (Instr.lsr m, BitVec.ofNat 8 (v.toNat / 2), v.getLsbD 0),
        (Instr.rol m, BitVec.ofNat 8 (2 * v.toNat + c), v.getLsbD 7),
        (Instr.ror m, BitVec.ofNat 8 (v.toNat / 2 + 128 * c), v.getLsbD 0)],
      row.1.wf hardware = true → ∃ t, exec row.1 s = .next t ∧
        t.flag .c = row.2.2 ∧ NZFrom row.2.1 t ∧ Keeps [.x, .y, .s] [.v, .r, .b, .d, .i] s t ∧
        FallsThrough row.1 s t ∧
        (if m = .acc then t.a = row.2.1 ∧ SameMemory s t else t.a = s.a ∧ StoresByte (effAddr m s) row.2.1 s t)

/-- R244, R245. -/
def Obligations.IncDecMemory : Prop :=
  OpcodesAre .inc [(.zp, 0xE6, false), (.zpx, 0xF6, false), (.abs, 0xEE, false), (.abx, 0xFE, false)] ∧
  OpcodesAre .dec [(.zp, 0xC6, false), (.zpx, 0xD6, false), (.abs, 0xCE, false), (.abx, 0xDE, false)] ∧
  ∀ (m : Operand) (s : State), Memory.wf s.mem = true →
    let v := operandValue m s
    ∀ row ∈ [(Instr.inc m, BitVec.ofNat 8 (v.toNat + 1)), (Instr.dec m, BitVec.ofNat 8 (v.toNat + 255))],
      row.1.wf hardware = true → ∃ t, exec row.1 s = .next t ∧ NZFrom row.2 t ∧
        Keeps [.a, .x, .y, .s] [.v, .r, .b, .d, .i, .c] s t ∧ FallsThrough row.1 s t ∧
        StoresByte (effAddr m s) row.2 s t

/-- R246, R247, R248, R249. -/
def Obligations.IncDecIndexRegisters : Prop :=
  ∀ (s : State),
    ∀ row ∈ [(Instr.inx, (0xE8 : Byte), Reg.x, BitVec.ofNat 8 (s.x.toNat + 1), [Reg.a, .y, .s]),
        (Instr.iny, 0xC8, .y, BitVec.ofNat 8 (s.y.toNat + 1), [.a, .x, .s]),
        (Instr.dex, 0xCA, .x, BitVec.ofNat 8 (s.x.toNat + 255), [.a, .y, .s]),
        (Instr.dey, 0x88, .y, BitVec.ofNat 8 (s.y.toNat + 255), [.a, .x, .s])],
      row.1.opcode hardware = some row.2.1 ∧
      ∃ t, exec row.1 s = .next t ∧ t.reg row.2.2.1 = row.2.2.2.1 ∧ NZFrom row.2.2.2.1 t ∧
        Keeps row.2.2.2.2 [.v, .r, .b, .d, .i, .c] s t ∧ SameMemory s t ∧ FallsThrough row.1 s t

/-! ## Branches and jumps -/

/-- R270 to R278, with the Relative mode of R191: the target is the next instruction's address plus the signed offset. -/
def Obligations.BranchesOnOneFlag : Prop :=
  ∀ row ∈ [(Instr.bpl, (0x10 : Byte), Flag.n, false), (Instr.bmi, 0x30, .n, true), (Instr.bvc, 0x50, .v, false),
      (Instr.bvs, 0x70, .v, true), (Instr.bcc, 0x90, .c, false), (Instr.bcs, 0xB0, .c, true),
      (Instr.bne, 0xD0, .z, false), (Instr.beq, 0xF0, .z, true)],
    ∀ (offset : Byte) (s : State),
      (row.1 offset).opcode hardware = some row.2.1 ∧
      ∃ t, exec (row.1 offset) s = .next t ∧
        let next := s.pc + 2
        let target := BitVec.ofInt 16 (next.toNat + offset.toInt)
        (if s.flag row.2.2.1 = row.2.2.2 then t.pc = target ∧ t.cyc = (if hiByte target = hiByte next then 3 else 4)
          else t.pc = next ∧ t.cyc = 2) ∧
        Keeps [.a, .x, .y, .s] [.n, .v, .r, .b, .d, .i, .z, .c] s t ∧ SameMemory s t

/-- R279, R280 with R194: JMP, absolute, and indirect with the high byte read within the pointer's page. -/
def Obligations.JumpsToTheTarget : Prop :=
  OpcodesAre .jmp [(.abs, 0x4C, false), (.ind, 0x6C, false)] ∧
  ∀ (w : Word) (s : State),
    (∃ t, exec (.jmp (.abs w)) s = .next t ∧ t.pc = w ∧ t.cyc = 3 ∧
      Keeps [.a, .x, .y, .s] [.n, .v, .r, .b, .d, .i, .z, .c] s t ∧ SameMemory s t) ∧
    (∃ t, exec (.jmp (.ind w)) s = .next t ∧
      t.pc = wordOf (s.peek w) ((afterRead w s).peek ((w &&& 0xFF00) ||| ((w + 1) &&& 0x00FF))) ∧ t.cyc = 5 ∧
      Keeps [.a, .x, .y, .s] [.n, .v, .r, .b, .d, .i, .z, .c] s t ∧ SameMemory s t)

/-! ## Stack, calls and BRK -/

/-- R291, R292. -/
def Obligations.PushesStoreOneByte : Prop :=
  (Instr.pha).opcode hardware = some 0x48 ∧ (Instr.php).opcode hardware = some 0x08 ∧
  ∀ (s : State), Memory.wf s.mem = true →
    ∀ row ∈ [(Instr.pha, s.a), (Instr.php, s.p ||| 0x30)], ∃ t, exec row.1 s = .next t ∧
      t.peek (stackAddr s.sp) = row.2 ∧ t.sp = s.sp - 1 ∧
      Keeps [.a, .x, .y] [.n, .v, .r, .b, .d, .i, .z, .c] s t ∧ SameMemoryOutside [stackAddr s.sp] s t ∧
      FallsThrough row.1 s t

/-- R293, R294. -/
def Obligations.PullsReadOneByte : Prop :=
  (Instr.pla).opcode hardware = some 0x68 ∧ (Instr.plp).opcode hardware = some 0x28 ∧
  ∀ (s : State),
    let v := s.peek (stackAddr (s.sp + 1))
    (∃ t, exec .pla s = .next t ∧ t.a = v ∧ NZFrom v t ∧ t.sp = s.sp + 1 ∧
      Keeps [.x, .y] [.v, .r, .b, .d, .i, .c] s t ∧ SameMemory s t ∧ FallsThrough .pla s t) ∧
    (∃ t, exec .plp s = .next t ∧ t.p = (v &&& ~~~0x10) ||| 0x20 ∧ t.sp = s.sp + 1 ∧
      Keeps [.a, .x, .y] [] s t ∧ SameMemory s t ∧ FallsThrough .plp s t)

/-- R295: the return address is that of the JSR's last byte, pushed high byte first. -/
def Obligations.JsrPushesItsLastByteAddress : Prop :=
  ∀ (target : Word) (s : State), (Instr.jsr target).opcode hardware = some 0x20 ∧
    (Memory.wf s.mem = true → ∃ t, exec (.jsr target) s = .next t ∧
      t.peek (stackAddr s.sp) = hiByte (s.pc + 2) ∧ t.peek (stackAddr (s.sp - 1)) = loByte (s.pc + 2) ∧
      t.sp = s.sp - 2 ∧ t.pc = target ∧ t.cyc = 6 ∧
      Keeps [.a, .x, .y] [.n, .v, .r, .b, .d, .i, .z, .c] s t ∧
      SameMemoryOutside [stackAddr s.sp, stackAddr (s.sp - 1)] s t)

/-- R296. -/
def Obligations.RtsPullsAndAddsOne : Prop :=
  ∀ (s : State), (Instr.rts).opcode hardware = some 0x60 ∧ ∃ t, exec .rts s = .next t ∧
    t.pc = wordOf (s.peek (stackAddr (s.sp + 1))) (s.peek (stackAddr (s.sp + 2))) + 1 ∧ t.sp = s.sp + 2 ∧ t.cyc = 6 ∧
    Keeps [.a, .x, .y] [.n, .v, .r, .b, .d, .i, .z, .c] s t ∧ SameMemory s t

/-- R297 and R422: P, then PC, low byte first, with no 1 added. -/
def Obligations.RtiRestoresStatusAndPc : Prop :=
  ∀ (s : State), (Instr.rti).opcode hardware = some 0x40 ∧ ∃ t, exec .rti s = .next t ∧
    t.p = (s.peek (stackAddr (s.sp + 1)) &&& ~~~0x10) ||| 0x20 ∧
    t.pc = wordOf (s.peek (stackAddr (s.sp + 2))) (s.peek (stackAddr (s.sp + 3))) ∧ t.sp = s.sp + 3 ∧ t.cyc = 6 ∧
    Keeps [.a, .x, .y] [] s t ∧ SameMemory s t

/-- R298, with its two parameters in the second clause. -/
def Obligations.BrkTakesTheIrqVector : Prop :=
  (Instr.brk).opcode hardware = some 0x00 ∧
  (∀ (s : State), Memory.wf s.mem = true → ∃ t, exec .brk s = .next t ∧
    t.peek (stackAddr s.sp) = hiByte (s.pc + 2) ∧ t.peek (stackAddr (s.sp - 1)) = loByte (s.pc + 2) ∧
    t.peek (stackAddr (s.sp - 2)) = s.p ||| 0x30 ∧ t.sp = s.sp - 3 ∧
    t.flag .b = true ∧ t.flag .d = false ∧ t.flag .i = true ∧
    t.pc = wordOf (s.peek 0xFFFE) (s.peek 0xFFFF) ∧ t.cyc = 7 ∧ t.draws = s.draws ∧
    Keeps [.a, .x, .y] [.n, .v, .r, .z, .c] s t ∧
    SameMemoryOutside [stackAddr s.sp, stackAddr (s.sp - 1), stackAddr (s.sp - 2)] s t) ∧
  (∀ (cfg : Config) (s : State), ∃ t, execWith cfg .brk s = .next t ∧
    t.flag .d = (if cfg.brkClearsD then false else s.flag .d) ∧
    t.flag .i = (if cfg.brkSetsI then true else s.flag .i) ∧ t.flag .b = true)

/-- R295, R296: a call and its return give back S and continue after the call, whatever the stack pointer, at every
wrap of the stack and of PC. -/
def Obligations.RtsUndoesJsr : Prop :=
  ∀ (target : Word) (s t u : State), Memory.wf s.mem = true →
    exec (.jsr target) s = .next t → exec .rts t = .next u →
    u.pc = s.pc + 3 ∧ u.sp = s.sp ∧ u.p = s.p ∧ u.a = s.a ∧ u.x = s.x ∧ u.y = s.y

/-! ## Transfers and flag operations -/

/-- R320 to R325: the destination takes the source's value; all but TXS set N and Z from it. -/
def Obligations.TransfersCopyOneRegister : Prop :=
  ∀ (s : State),
    (∀ row ∈ [(Instr.tax, (0xAA : Byte), Reg.x, s.a, [Reg.a, .y, .s]), (Instr.tay, 0xA8, .y, s.a, [.a, .x, .s]),
        (Instr.txa, 0x8A, .a, s.x, [.x, .y, .s]), (Instr.tya, 0x98, .a, s.y, [.x, .y, .s]),
        (Instr.tsx, 0xBA, .x, s.sp, [.a, .y, .s])],
      row.1.opcode hardware = some row.2.1 ∧
      ∃ t, exec row.1 s = .next t ∧ t.reg row.2.2.1 = row.2.2.2.1 ∧ NZFrom row.2.2.2.1 t ∧
        Keeps row.2.2.2.2 [.v, .r, .b, .d, .i, .c] s t ∧ SameMemory s t ∧ FallsThrough row.1 s t) ∧
    (Instr.txs).opcode hardware = some 0x9A ∧
    ∃ t, exec .txs s = .next t ∧ t.sp = s.x ∧ Keeps [.a, .x, .y] [.n, .v, .r, .b, .d, .i, .z, .c] s t ∧
      SameMemory s t ∧ FallsThrough .txs s t

/-- R326 to R332: one bit of P is written and nothing else. R332, for CLV, is marked by the spec as its own inference:
"[derived: `10_state.md` rule R42]". -/
def Obligations.FlagOperationsWriteOneBit : Prop :=
  ∀ row ∈ [(Instr.sec, (0x38 : Byte), Flag.c, true), (Instr.clc, 0x18, .c, false), (Instr.sed, 0xF8, .d, true),
      (Instr.cld, 0xD8, .d, false), (Instr.sei, 0x78, .i, true), (Instr.cli, 0x58, .i, false), (Instr.clv, 0xB8, .v, false)],
    ∀ (s : State), row.1.opcode hardware = some row.2.1 ∧
      ∃ t, exec row.1 s = .next t ∧ (∀ f, t.flag f = if f = row.2.2.1 then row.2.2.2 else s.flag f) ∧
        Keeps [.a, .x, .y, .s] [] s t ∧ SameMemory s t ∧ FallsThrough row.1 s t

/-! ## Undocumented opcodes -/

/-- R351. -/
def Obligations.LaxLoadsAAndX : Prop :=
  OpcodesAre .lax [(.izx, 0xA3, false), (.zp, 0xA7, false), (.abs, 0xAF, false), (.izy, 0xB3, true), (.zpy, 0xB7, false),
    (.aby, 0xBF, true)] ∧
  ∀ (m : Operand) (s : State), (Instr.lax m).wf hardware = true → ∃ t, exec (.lax m) s = .next t ∧
    t.a = operandValue m s ∧ t.x = operandValue m s ∧ NZFrom (operandValue m s) t ∧
    Keeps [.y, .s] [.v, .r, .b, .d, .i, .c] s t ∧ SameMemory s t ∧ FallsThrough (.lax m) s t

/-- R353, R354: DEC then CMP, and INC then SBC, on the value written. -/
def Obligations.DcpAndIscCompose : Prop :=
  OpcodesAre .dcp [(.izx, 0xC3, false), (.zp, 0xC7, false), (.abs, 0xCF, false), (.izy, 0xD3, false), (.zpx, 0xD7, false),
    (.aby, 0xDB, false), (.abx, 0xDF, false)] ∧
  OpcodesAre .isc [(.izx, 0xE3, false), (.zp, 0xE7, false), (.abs, 0xEF, false), (.izy, 0xF3, false), (.zpx, 0xF7, false),
    (.aby, 0xFB, false), (.abx, 0xFF, false)] ∧
  ∀ (m : Operand) (s : State), Memory.wf s.mem = true →
    ((Instr.dcp m).wf hardware = true → ∃ t, exec (.dcp m) s = .next t ∧
      let r := operandValue m s - 1
      StoresByte (effAddr m s) r s t ∧ t.flag .c = decide (r.toNat ≤ s.a.toNat) ∧ NZFrom (s.a - r) t ∧
        Keeps [.a, .x, .y, .s] [.v, .r, .b, .d, .i] s t ∧ FallsThrough (.dcp m) s t) ∧
    ((Instr.isc m).wf hardware = true → ∃ t, exec (.isc m) s = .next t ∧
      let r := operandValue m s + 1
      let sum := s.a.toNat + (r ^^^ 0xFF).toNat + (s.flag .c).toNat
      let a := BitVec.ofNat 8 sum
      StoresByte (effAddr m s) r s t ∧ t.a = a ∧ t.flag .c = decide (0xFF < sum) ∧
        t.flag .v = (((s.a ^^^ r) &&& (s.a ^^^ a) &&& 0x80) != 0) ∧ NZFrom a t ∧
        Keeps [.x, .y, .s] [.r, .b, .d, .i] s t ∧ FallsThrough (.isc m) s t)

/-- R355, R356, R357: ASL then ORA, ROL then AND, LSR then EOR; C comes from the shift, N and Z from the result in A. -/
def Obligations.ShiftThenLogicCompose : Prop :=
  OpcodesAre .slo [(.izx, 0x03, false), (.zp, 0x07, false), (.abs, 0x0F, false), (.izy, 0x13, false), (.zpx, 0x17, false),
    (.aby, 0x1B, false), (.abx, 0x1F, false)] ∧
  OpcodesAre .rla [(.izx, 0x23, false), (.zp, 0x27, false), (.abs, 0x2F, false), (.izy, 0x33, false), (.zpx, 0x37, false),
    (.aby, 0x3B, false), (.abx, 0x3F, false)] ∧
  OpcodesAre .sre [(.izx, 0x43, false), (.zp, 0x47, false), (.abs, 0x4F, false), (.izy, 0x53, false), (.zpx, 0x57, false),
    (.aby, 0x5B, false), (.abx, 0x5F, false)] ∧
  ∀ (m : Operand) (s : State), Memory.wf s.mem = true →
    let v := operandValue m s
    let left := BitVec.ofNat 8 (2 * v.toNat)
    let rotated := BitVec.ofNat 8 (2 * v.toNat + (s.flag .c).toNat)
    let right := BitVec.ofNat 8 (v.toNat / 2)
    ∀ row ∈ [(Instr.slo m, left, s.a ||| left, v.getLsbD 7), (Instr.rla m, rotated, s.a &&& rotated, v.getLsbD 7),
        (Instr.sre m, right, s.a ^^^ right, v.getLsbD 0)],
      row.1.wf hardware = true → ∃ t, exec row.1 s = .next t ∧ StoresByte (effAddr m s) row.2.1 s t ∧
        t.a = row.2.2.1 ∧ NZFrom row.2.2.1 t ∧ t.flag .c = row.2.2.2 ∧
        Keeps [.x, .y, .s] [.v, .r, .b, .d, .i] s t ∧ FallsThrough row.1 s t

/-- R358: ROR then ADC, whose carry-in is the bit that ROR shifted out. -/
def Obligations.RraAddsWithRorCarry : Prop :=
  OpcodesAre .rra [(.izx, 0x63, false), (.zp, 0x67, false), (.abs, 0x6F, false), (.izy, 0x73, false), (.zpx, 0x77, false),
    (.aby, 0x7B, false), (.abx, 0x7F, false)] ∧
  ∀ (m : Operand) (s : State), Memory.wf s.mem = true → (Instr.rra m).wf hardware = true →
    ∃ t, exec (.rra m) s = .next t ∧
      let v := operandValue m s
      let r := BitVec.ofNat 8 (v.toNat / 2 + 128 * (s.flag .c).toNat)
      let sum := s.a.toNat + r.toNat + (v.getLsbD 0).toNat
      let a := BitVec.ofNat 8 sum
      StoresByte (effAddr m s) r s t ∧ t.a = a ∧ t.flag .c = decide (0xFF < sum) ∧
        t.flag .v = ((~~~(s.a ^^^ r) &&& (s.a ^^^ a) &&& 0x80) != 0) ∧ NZFrom a t ∧
        Keeps [.x, .y, .s] [.r, .b, .d, .i] s t ∧ FallsThrough (.rra m) s t

/-- R359, R360: one read of the operand, its value discarded; only PC changes, and CYC. -/
def Obligations.DopAndTopOnlyRead : Prop :=
  (∀ m op, (Instr.dop op m).opcode hardware = some op ↔ (m.mode, op) ∈ [(Mode.imm, (0x80 : Byte)), (.imm, 0x82),
    (.imm, 0x89), (.imm, 0xC2), (.imm, 0xE2), (.zp, 0x04), (.zp, 0x44), (.zp, 0x64), (.zpx, 0x14), (.zpx, 0x34),
    (.zpx, 0x54), (.zpx, 0x74), (.zpx, 0xD4), (.zpx, 0xF4)]) ∧
  (∀ m op, (Instr.top op m).opcode hardware = some op ↔ (m.mode, op) ∈ [(Mode.abs, (0x0C : Byte)), (.abx, 0x1C),
    (.abx, 0x3C), (.abx, 0x5C), (.abx, 0x7C), (.abx, 0xDC), (.abx, 0xFC)]) ∧
  (∀ op ∈ [(0x1C : Byte), 0x3C, 0x5C, 0x7C, 0xDC, 0xFC], penaltyBearing hardware op = true) ∧
  ∀ (op : Byte) (m : Operand) (s : State), ∀ i ∈ [Instr.dop op m, .top op m], i.wf hardware = true →
    exec i s = .next { s with
      pc := s.pc + BitVec.ofNat 16 i.length
      cyc := costOf hardware i s
      draws := s.draws + (if m.mode ≠ .imm ∧ regionOf (effAddr m s) = .openBand then 1 else 0) }

/-! ## Loads, stores and no-operations -/

/-- R390, R391, R392. -/
def Obligations.LoadsSetOneRegister : Prop :=
  OpcodesAre .lda [(.imm, 0xA9, false), (.zp, 0xA5, false), (.zpx, 0xB5, false), (.abs, 0xAD, false), (.abx, 0xBD, true),
    (.aby, 0xB9, true), (.izx, 0xA1, false), (.izy, 0xB1, true)] ∧
  OpcodesAre .ldx [(.imm, 0xA2, false), (.zp, 0xA6, false), (.zpy, 0xB6, false), (.abs, 0xAE, false), (.aby, 0xBE, true)] ∧
  OpcodesAre .ldy [(.imm, 0xA0, false), (.zp, 0xA4, false), (.zpx, 0xB4, false), (.abs, 0xAC, false), (.abx, 0xBC, true)] ∧
  ∀ (m : Operand) (s : State),
    ∀ row ∈ [(Instr.lda m, Reg.a, [Reg.x, .y, .s]), (Instr.ldx m, .x, [.a, .y, .s]), (Instr.ldy m, .y, [.a, .x, .s])],
      row.1.wf hardware = true → ∃ t, exec row.1 s = .next t ∧ t.reg row.2.1 = operandValue m s ∧
        NZFrom (operandValue m s) t ∧ Keeps row.2.2 [.v, .r, .b, .d, .i, .c] s t ∧ SameMemory s t ∧ FallsThrough row.1 s t

/-- R393, R394, R395, R352: one byte is stored and the address is not read; no form pays the page penalty. -/
def Obligations.StoresWriteOneByte : Prop :=
  OpcodesAre .sta [(.zp, 0x85, false), (.zpx, 0x95, false), (.abs, 0x8D, false), (.abx, 0x9D, false), (.aby, 0x99, false),
    (.izx, 0x81, false), (.izy, 0x91, false)] ∧
  OpcodesAre .stx [(.zp, 0x86, false), (.zpy, 0x96, false), (.abs, 0x8E, false)] ∧
  OpcodesAre .sty [(.zp, 0x84, false), (.zpx, 0x94, false), (.abs, 0x8C, false)] ∧
  OpcodesAre .sax [(.izx, 0x83, false), (.zp, 0x87, false), (.abs, 0x8F, false), (.zpy, 0x97, false)] ∧
  ∀ (m : Operand) (s : State), Memory.wf s.mem = true →
    ∀ row ∈ [(Instr.sta m, s.a), (Instr.stx m, s.x), (Instr.sty m, s.y), (Instr.sax m, s.a &&& s.x)],
      row.1.wf hardware = true → ∃ t, exec row.1 s = .next t ∧ StoresByte (effAddr m s) row.2 s t ∧ t.draws = s.draws ∧
        Keeps [.a, .x, .y, .s] [.n, .v, .r, .b, .d, .i, .z, .c] s t ∧ FallsThrough row.1 s t

/-- R396, R155, R126: NOP and the 31 bytes with no dispatch entry change PC by 1 and CYC, and nothing else, whatever the
parameters are (0xEB, where it has no entry, is in `SbcSubtractsWithBorrow`). -/
def Obligations.NopsOnlyAdvance : Prop :=
  (Instr.nop).opcode hardware = some 0xEA ∧
  (∀ s, exec .nop s = .next { s with pc := s.pc + 1, cyc := 2 }) ∧
  ∀ op ∈ [(0x02 : Byte), 0x12, 0x22, 0x32, 0x42, 0x52, 0x62, 0x72, 0x92, 0xB2, 0xD2, 0xF2, 0x0B, 0x2B, 0x4B, 0x6B, 0x8B,
      0xAB, 0xCB, 0x93, 0x9F, 0x9B, 0x9C, 0x9E, 0xBB, 0x1A, 0x3A, 0x5A, 0x7A, 0xDA, 0xFA],
    ∀ (rest : List Byte) (s : State), decode hardware (op :: rest) = .ok (.defaultNop op, rest) ∧
      exec (.defaultNop op) s = .next { s with pc := s.pc + 1, cyc := cycleCost op } ∧
      ∀ (cfg : Config), decode cfg (op :: rest) = .ok (.defaultNop op, rest) ∧
        execWith cfg (.defaultNop op) s = .next { s with pc := s.pc + 1, cyc := cfg.cycleCost op }

/-! ## Every instruction -/

/-- R36 to R44: no instruction changes a flag but those the rules name for it. -/
def Obligations.FlagsChangeOnlyAsNamed : Prop :=
  ∀ (i : Instr) (s t : State) (f : Flag), exec i s = .next t → f ∉ flagsWritten i → t.flag f = s.flag f

/-- R31 to R33, R46, R51: no instruction changes a register but those the rules name for it, and none changes the
latch, the session or the image's page count. -/
def Obligations.RegistersChangeOnlyAsNamed : Prop :=
  ∀ (i : Instr) (s t : State), exec i s = .next t →
    (∀ r, r ∉ registersWritten i → t.reg r = s.reg r) ∧ Keeps [] [] s t

/-- R75, R156, R290: every byte of memory reads as before but at the addresses the instruction stores to. -/
def Obligations.MemoryChangesOnlyWhereStored : Prop :=
  ∀ (i : Instr) (s t : State), exec i s = .next t → SameMemoryOutside (storedAddresses i s) s t

/-- R85: PRG-ROM never changes, whatever a step does. -/
def Obligations.PrgRomNeverChanges : Prop :=
  ∀ (s t : State) (a : Word), step s = .next t → 0x8000 ≤ a.toNat → t.peek a = s.peek a ∧ t.romPages = s.romPages

/-- R47: no operation reads CYC; each step overwrites it. So the two parameters that only costs depend on reach CYC and
nothing else (D12, D20: "CYC only"). -/
def Obligations.CycIsAnOutputOnly : Prop :=
  (∀ (s : State) (n : Nat), step (s.setCyc n) = step s) ∧
  (∀ (cfg : Config) (s : State) (n : Nat), stepWith cfg (s.setCyc n) = stepWith cfg s) ∧
  ∀ (cfg : Config) (cost : Byte → Nat) (rmw : Bool) (s t : State), stepWith cfg s = .next t →
    ∃ n, stepWith { cfg with cycleCost := cost, rmwPagePenalty := rmw } s = .next (t.setCyc n)

/-- R425: the cost of a step is 0 for a dropped Irq, 7 for an entry, and 2 to 8 for an instruction. R152, R154: under any
parameters, an instruction that is no branch costs its base cost and its page penalty. -/
def Obligations.StepCostsAtMostEight : Prop :=
  (∀ (s t : State), step s = .next t →
    match s.pending with
    | none => 2 ≤ t.cyc ∧ t.cyc ≤ 8
    | some .irq => t.cyc = if s.flag .i then 0 else 7
    | some .nmi | some .reset => t.cyc = 7) ∧
  ∀ (cfg : Config) (i : Instr) (s t : State), execWith cfg i s = .next t → i.operand.mode ≠ .rel → t.cyc = costOf cfg i s

/-! ## The step -/

/-- R150, R151: with nothing pending, where the bytes at PC decode to an instruction and none of them lies in the open
band, the step is that instruction's meaning on the very same state. R9: this is so under any parameters, and `step` and
`exec` are the step and the meanings at the defaults. -/
def Obligations.StepRunsTheDecodedInstruction : Prop :=
  (∀ (s : State) (i : Instr) (rest : List Byte), Ready s → s.pending = none →
    decode hardware [s.peek s.pc, s.peek (s.pc + 1), s.peek (s.pc + 2)] = .ok (i, rest) →
    bandBytes s.pc i.length = 0 → step s = exec i s) ∧
  (∀ (i : Instr) (s : State), exec i s = execWith hardware i s) ∧ (∀ (s : State), step s = stepWith hardware s) ∧
  ∀ (cfg : Config) (s : State) (i : Instr) (rest : List Byte), Ready s → s.pending = none →
    decode cfg [s.peek s.pc, s.peek (s.pc + 1), s.peek (s.pc + 2)] = .ok (i, rest) →
    bandBytes s.pc i.length = 0 → stepWith cfg s = execWith cfg i s

/-- R81 with log 3, the model's choice of form: a read of the open band returns the free value `IO_READ` under a draw
number of its own, and a write there changes nothing. With R92 and R157, a step runs one instruction, after one such draw
for each of its bytes that lies in the band. -/
def Obligations.OpenBandReadsAreDraws : Prop :=
  (∀ (s : State) (a : Word) (v : Byte), 0x4000 ≤ a.toNat → a.toNat < 0x4020 →
    memRead a s = (Config.ioRead a s.draws, s.setDraws (s.draws + 1)) ∧ memWrite a v s = s) ∧
  ∀ (s : State), Ready s → s.pending = none → ∃ i,
    i.wf hardware = true ∧ i.opcode hardware = some (s.peek s.pc) ∧
    step s = exec i (s.setDraws (s.draws + bandBytes s.pc i.length))

/-- R150, R414: a step that finds the latch full services the event and runs no instruction. -/
def Obligations.StepServicesTheLatch : Prop :=
  ∀ (s : State) (e : Event), Ready s → s.pending = some e →
    step s = .next (serviceEvent hardware e s) ∧ (serviceEvent hardware e s).pending = none

/-- R429, R470, R410: a step is always possible, and so is the step after it, whatever the parameters are; under them every
well-formed instruction completes. -/
def Obligations.StepIsAlwaysPossible : Prop :=
  (∀ (s : State), Ready s → ∃ t, step s = .next t ∧ Ready t) ∧
  ∀ (cfg : Config) (s : State),
    (Ready s → ∃ t, stepWith cfg s = .next t ∧ Ready t) ∧
    ∀ (i : Instr), i.wf cfg = true → ∃ t, execWith cfg i s = .next t

/-- R463 and R87: before any initialisation a step and a register read are refused, and a request changes only the
latch; an image with no PRG-ROM page is refused by powerOn, by a launch and (log 8) by a step. R89: after an
initialisation the host puts no image in place. -/
def Obligations.RefusalsOfTheSpec : Prop :=
  (∀ (s : State), s.session = .beforeInit →
    step s = .refused .stepBeforeInit ∧ observe s = .refused .readBeforeInit ∧
    ∀ e, request e s = { s with pending := latchAfter s.pending e }) ∧
  (∀ (file : List Byte) (s : State), s.session = .live → insertCartridge file s = .refused .hostMemoryWrite) ∧
  ∀ (s : State), s.romPages = 0 →
    (s.session = .beforeInit → ∀ prgRamInit, powerOn prgRamInit s = .refused .malformedImage) ∧
    (s.session = .live → step s = .refused .malformedImage) ∧
    ∀ (l : Launch) (u : State), l.romPages = 0 → u.session = .beforeInit → launch l u = .refused .malformedImage

/-- The invariant `Inv` (R45, R87, R425, and the canonical form of the model's own memory): every step keeps it, and so
does every request. -/
def Obligations.StepKeepsInv : Prop :=
  (∀ (s t : State), Inv s → step s = .next t → Inv t) ∧ ∀ (s : State) (e : Event), Inv s → Inv (request e s)

/-- The invariant holds after reset: a reset that the model gives sixteen pages of 0 and no image (log 4, log 5). -/
def Obligations.ResetHasInv : Prop := Inv State.reset

/-- R45, which the spec marks as its own inference: "[derived: rule R41 (powerOn, Reset, PLP and RTI set R to 1) and rule
R44 (no other write touches R)]". It holds under any parameters. -/
def Obligations.ReservedBitIsAlwaysSet : Prop := ∀ (cfg : Config) (s : State), Reachable cfg s → s.flag .r = true

/-! ## Interrupts -/

/-- R412: the latch transition, row by row. -/
def Obligations.LatchTransition : Prop :=
  (∀ t, latchAfter none t = some t) ∧ (∀ t, latchAfter (some .irq) t = some t) ∧
  latchAfter (some .nmi) .reset = some .reset ∧ latchAfter (some .nmi) .nmi = some .nmi ∧
  latchAfter (some .nmi) .irq = some .nmi ∧ ∀ t, latchAfter (some .reset) t = some .reset

/-- R415, which the spec marks as its own inference from R412: from an empty latch, the latch holds the highest of the events requested since. -/
def Obligations.LatchHoldsTheHighestRequest : Prop :=
  ∀ (requests : List Event) (s : State), s.pending = none →
    (requests.foldl (fun u e => request e u) s).pending =
      if .reset ∈ requests then some .reset else if .nmi ∈ requests then some .nmi
        else if .irq ∈ requests then some .irq else none

/-- R416. -/
def Obligations.ResetEntrySequence : Prop :=
  ∀ (s : State), serviceEvent hardware .reset s =
    { s with a := 0, x := 0, y := 0, sp := 0xFF, p := 0x22, pc := wordOf (s.peek 0xFFFC) (s.peek 0xFFFD), cyc := 7,
             pending := none }

/-- R417, for every value of the parameters. That B stays as it was is the spec's own inference there: "[derived: P.B
unchanged, from `10_state.md` rule R44]". -/
def Obligations.NmiEntrySequence : Prop :=
  ∀ (cfg : Config) (s : State), Memory.wf s.mem = true →
    let t := serviceEvent cfg .nmi s
    t.peek (stackAddr s.sp) = hiByte s.pc ∧ t.peek (stackAddr (s.sp - 1)) = loByte s.pc ∧
    t.peek (stackAddr (s.sp - 2)) = s.p &&& ~~~0x10 ∧ t.sp = s.sp - 3 ∧ t.flag .d = false ∧
    t.flag .i = (if cfg.nmiEntrySetsI then true else s.flag .i) ∧
    (∀ f ∈ [Flag.n, .v, .r, .b, .z, .c], t.flag f = s.flag f) ∧
    t.pc = wordOf (s.peek 0xFFFA) (s.peek 0xFFFB) ∧ t.cyc = 7 ∧ t.pending = none ∧
    t.a = s.a ∧ t.x = s.x ∧ t.y = s.y ∧
    SameMemoryOutside [stackAddr s.sp, stackAddr (s.sp - 1), stackAddr (s.sp - 2)] s t

/-- R418, for every value of the parameters. -/
def Obligations.IrqEntrySequence : Prop :=
  ∀ (cfg : Config) (s : State), Memory.wf s.mem = true → s.flag .i = false →
    let t := serviceEvent cfg .irq s
    t.peek (stackAddr s.sp) = hiByte s.pc ∧ t.peek (stackAddr (s.sp - 1)) = loByte s.pc ∧
    t.peek (stackAddr (s.sp - 2)) = s.p &&& ~~~0x10 ∧ t.sp = s.sp - 3 ∧ t.flag .d = false ∧
    t.flag .i = cfg.irqEntrySetsI ∧ (∀ f ∈ [Flag.n, .v, .r, .b, .z, .c], t.flag f = s.flag f) ∧
    t.pc = wordOf (s.peek 0xFFFE) (s.peek 0xFFFF) ∧ t.cyc = 7 ∧ t.pending = none ∧
    t.a = s.a ∧ t.x = s.x ∧ t.y = s.y ∧
    SameMemoryOutside [stackAddr s.sp, stackAddr (s.sp - 1), stackAddr (s.sp - 2)] s t

/-- R419. -/
def Obligations.IrqIsDroppedWhenMasked : Prop :=
  ∀ (s : State), Ready s → s.pending = some .irq → s.flag .i = true →
    step s = .next { s with pending := none, cyc := 0 }

/-- R297, R417, R418, R421, R422: returning from an Nmi or Irq entry gives back PC, S and P (with B cleared and R set),
whatever the stack pointer, and the other registers. -/
def Obligations.RtiUndoesAnEntry : Prop :=
  ∀ (s t u : State) (e : Event), Ready s → Memory.wf s.mem = true → s.pending = some e → e ≠ .reset →
    (e = .irq → s.flag .i = false) → step s = .next t → exec .rti t = .next u →
    u.pc = s.pc ∧ u.sp = s.sp ∧ u.p = (s.p &&& ~~~0x10) ||| 0x20 ∧ u.a = s.a ∧ u.x = s.x ∧ u.y = s.y ∧
      SameMemoryOutside [stackAddr s.sp, stackAddr (s.sp - 1), stackAddr (s.sp - 2)] s u

/-! ## Power-on and launch -/

/-- R460, for every PRG_RAM_INIT. -/
def Obligations.PowerOnState : Prop :=
  (∀ (prgRamInit : Memory) (s : State), s.session = .beforeInit →
    imageOk s.romPages (powerOnMemory prgRamInit s.mem) = true → ∃ t, powerOn prgRamInit s = .next t ∧
      t.a = 0 ∧ t.x = 0 ∧ t.y = 0 ∧ t.sp = 0xFF ∧ t.p = 0x34 ∧ t.pending = none ∧ t.cyc = 7 ∧ t.session = .live ∧
      t.pc = wordOf (s.peek 0xFFFC) (s.peek 0xFFFD) ∧
      (∀ a : Word, a.toNat < 0x2000 → t.peek a = 0) ∧
      (∀ a : Word, regionOf a = .prgRam → t.peek a = Memory.read prgRamInit (prgRamCell a)) ∧
      (∀ a : Word, regionOf a = .prgRom → t.peek a = s.peek a)) ∧
  ∀ (prgRamInit : Memory) (s : State), s.session = .live → powerOn prgRamInit s = .refused .secondPowerOn

/-- R464: a launch state gives every register and the memory image; no powerOn may follow it. That no second launch may
follow it either is the model's choice (log 22). -/
def Obligations.LaunchState : Prop :=
  ∀ (l : Launch) (s : State), s.session = .beforeInit → imageOk l.romPages l.mem = true →
    ∃ t, launch l s = .next t ∧ t.a = l.a ∧ t.x = l.x ∧ t.y = l.y ∧ t.sp = l.sp ∧ t.p = l.p ∧ t.pc = l.pc ∧
      t.mem = l.mem ∧ t.romPages = l.romPages ∧ t.pending = none ∧ t.cyc = 0 ∧ Ready t ∧
      (∀ prgRamInit, powerOn prgRamInit t = .refused .secondPowerOn) ∧ ∀ l', launch l' t = .refused .secondPowerOn

/-! ## Memory -/

/-- R79, R84, R88: a read returns the byte of the most recent write to the same cell, and a write changes no other byte.
RAM is mirrored every 0x800; a PRG-RAM address shares its cell with itself only. -/
def Obligations.ReadReturnsTheLastWrite : Prop :=
  (∀ (s : State) (a b : Word) (v : Byte), Memory.wf s.mem = true →
    (SharesCell a b → (memWrite a v s).peek b = v) ∧ (¬ SharesCell a b → (memWrite a v s).peek b = s.peek b)) ∧
  ∀ (a b : Word), SharesCell a b ↔
    (a.toNat < 0x2000 ∧ b.toNat < 0x2000 ∧ a.toNat % 0x800 = b.toNat % 0x800) ∨
    (a = b ∧ 0x6000 ≤ a.toNat ∧ a.toNat < 0x8000)

/-- R80, R83, R85: the bands without writable storage, but for the open band (`OpenBandReadsAreDraws`). -/
def Obligations.BandsWithoutWritableStorage : Prop :=
  ∀ (s : State) (a : Word) (v : Byte),
    (0x2000 ≤ a.toNat → a.toNat < 0x4000 → memRead a s = (0, s) ∧ memWrite a v s = s) ∧
    (0x4020 ≤ a.toNat → a.toNat < 0x6000 → memRead a s = (0, s) ∧ memWrite a v s = s) ∧
    (0x8000 ≤ a.toNat →
      memRead a s = (Memory.read s.mem (0x8000 + 1024 * (((a.toNat - 0x8000) / 1024) % s.romPages) + a.toNat % 1024), s) ∧
      memWrite a v s = s)

/-- R290, R77: pushes wrap within page 1, and "Pushing 256 consecutive bytes returns S to its original value" (95, E3). -/
def Obligations.PushesStayInPageOne : Prop :=
  (∀ sp : Byte, (stackAddr sp).toNat = 0x0100 + sp.toNat) ∧
  (∀ (bytes : List Byte) (s : State),
    (bytes.foldl (fun u b => push b u) s).sp = s.sp - BitVec.ofNat 8 bytes.length ∧
    ∀ a : Word, (∀ sp, ¬ SharesCell a (stackAddr sp)) →
      (bytes.foldl (fun u b => push b u) s).peek a = s.peek a) ∧
  ∀ (v : Byte) (s : State), Memory.wf s.mem = true → (pull (push v s)).1 = v ∧ (pull (push v s)).2.sp = s.sp
end

