-- ==== Sys2Proof/Laws/Encoding.lean ====
section
/-! SUPPORT. Small lemmas of the decoder and the encoder: 16-bit values and their bytes, the opcode map over all byte
values, and that exactly the well-formed terms have an opcode byte. -/

namespace Sys2Proof

/-- `hi:lo` is `hi · 256 + lo` (R10). -/
theorem wordOf_toNat (lo hi : Byte) : (wordOf lo hi).toNat = 256 * hi.toNat + lo.toNat := by
  change (BitVec.append hi lo).toNat = _
  have h := BitVec.toNat_append hi lo
  rw [← Nat.shiftLeft_add_eq_or_of_lt lo.isLt, Nat.shiftLeft_eq] at h
  rw [Nat.mul_comm]; exact h

theorem loByte_toNat (w : Word) : (loByte w).toNat = w.toNat % 256 := by
  simp [loByte, BitVec.extractLsb'_toNat]

theorem hiByte_toNat (w : Word) : (hiByte w).toNat = w.toNat / 256 := by
  have := w.isLt
  simp only [hiByte, BitVec.extractLsb'_toNat, Nat.shiftRight_eq_div_pow]
  omega

@[simp] theorem loByte_wordOf (lo hi : Byte) : loByte (wordOf lo hi) = lo := by
  apply BitVec.eq_of_toNat_eq
  have := lo.isLt
  rw [loByte_toNat, wordOf_toNat]; omega

@[simp] theorem hiByte_wordOf (lo hi : Byte) : hiByte (wordOf lo hi) = hi := by
  apply BitVec.eq_of_toNat_eq
  have := lo.isLt
  rw [hiByte_toNat, wordOf_toNat]; omega

@[simp] theorem wordOf_lo_hi (w : Word) : wordOf (loByte w) (hiByte w) = w := by
  apply BitVec.eq_of_toNat_eq
  rw [wordOf_toNat, loByte_toNat, hiByte_toNat]; omega

/-- The mode of an operand made for a mode is that mode. -/
@[simp] theorem operandOf_mode (m : Mode) (b1 b2 : Byte) : (operandOf m b1 b2).mode = m := by cases m <;> rfl

theorem byteFor_isSome (forms : List (Mode × Byte)) (m : Mode) :
    (byteFor forms m).isSome = (forms.map (·.1)).contains m := by
  induction forms with
  | nil => rfl
  | cons f fs ih =>
    simp only [byteFor, List.find?_cons, List.map_cons, List.contains_cons] at ih ⊢
    by_cases h : f.1 = m
    · simp [h]
    · have h1 : (f.1 == m) = false := by simp [h]
      have h2 : (m == f.1) = false := by simp [Ne.symm h]
      rw [h1, h2, Bool.false_or]; exact ih

theorem byteIn_isSome (forms : List (Mode × Byte)) (op : Byte) (m : Mode) :
    (byteIn forms op m).isSome = forms.contains (m, op) := by
  unfold byteIn
  split <;> simp_all

/-- Exactly the well-formed terms have an opcode byte: the lists of WellFormed.lean and of the encoder agree. -/
theorem opcode_isSome (cfg : Config) (i : Instr) : (i.opcode cfg).isSome = i.wf cfg := by
  cases i
  case sbcEB v => simp only [Instr.opcode, Instr.wf]; cases cfg.ebIsSbc <;> rfl
  case defaultNop op =>
    simp only [Instr.opcode, Instr.wf]
    generalize cfg.ebIsSbc = e
    revert op; cases e <;> decide
  case dop op m => simp only [Instr.opcode, Instr.wf, byteIn_isSome]; rfl
  case top op m => simp only [Instr.opcode, Instr.wf, byteIn_isSome]; rfl
  all_goals first
    | rfl
    | (rename_i m; cases m <;> rfl)

/-- A well-formed term has an opcode byte. -/
theorem opcode_of_wf {cfg : Config} {i : Instr} (h : i.wf cfg = true) : ∃ op, i.opcode cfg = some op :=
  Option.isSome_iff_exists.1 ((opcode_isSome cfg i).trans h)

/-- A term with an opcode byte is well formed. -/
theorem wf_of_opcode {cfg : Config} {i : Instr} {op : Byte} (h : i.opcode cfg = some op) : i.wf cfg = true := by
  rw [← opcode_isSome, h]; rfl

/-- An instruction has 1, 2 or 3 bytes (R120). -/
theorem Instr.length_range (i : Instr) : 1 ≤ i.length ∧ i.length ≤ 3 := by
  unfold Instr.length
  cases i.operand.mode <;> decide

/-- The length of an operand's bytes: one less than the instruction's (R121). -/
theorem Operand.bytes_length (m : Operand) : m.bytes.length + 1 = m.mode.length := by cases m <;> rfl

end Sys2Proof
end

