-- ==== Sys2Proof/Laws/Flags.lean ====
section
/-! SUPPORT. What writing a flag does to every flag and field, and one lemma for each flag computation. -/

namespace Sys2Proof.Machine

/-- The bit number of a flag (R35). -/
def Flag.index : Flag → Nat
  | .n => 7
  | .v => 6
  | .r => 5
  | .b => 4
  | .d => 3
  | .i => 2
  | .z => 1
  | .c => 0

theorem Flag.index_injective {f g : Flag} (h : f.index = g.index) : f = g := by
  cases f <;> cases g <;> first | rfl | exact absurd h (by decide)

/-- A flag of a status byte is the bit at its index. -/
theorem flagOf_eq_bit (p : Byte) (f : Flag) : flagOf p f = p.getLsbD f.index := by
  revert p; cases f <;> decide

theorem mask_bit (f : Flag) (k : Nat) : f.mask.getLsbD k = decide (k = f.index) := by
  by_cases h : k < 8
  · interval_cases k <;> cases f <;> rfl
  · rw [BitVec.getLsbD_of_ge _ _ (by omega)]
    have : f.index < 8 := by cases f <;> decide
    exact (decide_eq_false (by omega)).symm

/-- Writing one flag sets it and keeps every other (R44). -/
theorem flagOf_withFlag (p : Byte) (f g : Flag) (v : Bool) :
    flagOf (withFlag p f v) g = if g = f then v else flagOf p g := by
  have hg : g.index < 8 := by cases g <;> decide
  rw [flagOf_eq_bit, flagOf_eq_bit]
  have hbit : (withFlag p f v).getLsbD g.index =
      if decide (g.index = f.index) then v else p.getLsbD g.index := by
    cases v <;> simp only [withFlag, Bool.false_eq_true, ↓reduceIte, BitVec.getLsbD_or, BitVec.getLsbD_and,
      BitVec.getLsbD_not, mask_bit, hg] <;> by_cases h : g.index = f.index <;> simp [h]
  rw [hbit]
  by_cases h : g = f
  · simp [h]
  · have hne : ¬ g.index = f.index := fun e => h (Flag.index_injective e)
    simp [h, hne]

@[simp] theorem State.flag_setFlag (s : State) (f g : Flag) (v : Bool) :
    (s.setFlag f v).flag g = if g = f then v else s.flag g := flagOf_withFlag s.p f g v

@[simp] theorem State.flag_setA (s : State) (v : Byte) (f : Flag) : (s.setA v).flag f = s.flag f := rfl
@[simp] theorem State.flag_setX (s : State) (v : Byte) (f : Flag) : (s.setX v).flag f = s.flag f := rfl
@[simp] theorem State.flag_setY (s : State) (v : Byte) (f : Flag) : (s.setY v).flag f = s.flag f := rfl
@[simp] theorem State.flag_setSp (s : State) (v : Byte) (f : Flag) : (s.setSp v).flag f = s.flag f := rfl
@[simp] theorem State.flag_setPc (s : State) (v : Word) (f : Flag) : (s.setPc v).flag f = s.flag f := rfl
@[simp] theorem State.flag_setPending (s : State) (e : Option Event) (f : Flag) :
    (s.setPending e).flag f = s.flag f := rfl
@[simp] theorem State.flag_setCyc (s : State) (n : Nat) (f : Flag) : (s.setCyc n).flag f = s.flag f := rfl
@[simp] theorem State.flag_setMem (s : State) (m : Memory) (f : Flag) : (s.setMem m).flag f = s.flag f := rfl
@[simp] theorem State.flag_setDraws (s : State) (n : Nat) (f : Flag) : (s.setDraws n).flag f = s.flag f := rfl
@[simp] theorem State.flag_setP (s : State) (p : Byte) (f : Flag) : (s.setP p).flag f = flagOf p f := rfl

@[simp] theorem State.setFlag_a (s : State) (f : Flag) (v : Bool) : (s.setFlag f v).a = s.a := rfl
@[simp] theorem State.setFlag_x (s : State) (f : Flag) (v : Bool) : (s.setFlag f v).x = s.x := rfl
@[simp] theorem State.setFlag_y (s : State) (f : Flag) (v : Bool) : (s.setFlag f v).y = s.y := rfl
@[simp] theorem State.setFlag_sp (s : State) (f : Flag) (v : Bool) : (s.setFlag f v).sp = s.sp := rfl
@[simp] theorem State.setFlag_p (s : State) (f : Flag) (v : Bool) : (s.setFlag f v).p = withFlag s.p f v := rfl
@[simp] theorem State.setFlag_pc (s : State) (f : Flag) (v : Bool) : (s.setFlag f v).pc = s.pc := rfl
@[simp] theorem State.setFlag_pending (s : State) (f : Flag) (v : Bool) : (s.setFlag f v).pending = s.pending := rfl
@[simp] theorem State.setFlag_cyc (s : State) (f : Flag) (v : Bool) : (s.setFlag f v).cyc = s.cyc := rfl
@[simp] theorem State.setFlag_session (s : State) (f : Flag) (v : Bool) : (s.setFlag f v).session = s.session := rfl
@[simp] theorem State.setFlag_mem (s : State) (f : Flag) (v : Bool) : (s.setFlag f v).mem = s.mem := rfl
@[simp] theorem State.setFlag_romPages (s : State) (f : Flag) (v : Bool) : (s.setFlag f v).romPages = s.romPages := rfl
@[simp] theorem State.setFlag_draws (s : State) (f : Flag) (v : Bool) : (s.setFlag f v).draws = s.draws := rfl

/-- The status byte after `SetNZ` (R12). -/
def nzByte (v p : Byte) : Byte := withFlag (withFlag p .n (v.getLsbD 7)) .z (v == 0)

/-- `SetNZ` writes P and nothing else. -/
theorem setNZ_eq (v : Byte) (s : State) : setNZ v s = s.setP (nzByte v s.p) := rfl

@[simp] theorem flag_setNZ (v : Byte) (s : State) (f : Flag) :
    (setNZ v s).flag f = if f = .z then (v == 0) else if f = .n then v.getLsbD 7 else s.flag f := by
  simp [setNZ]

/-- ADC: every field and every flag after it (R210). -/
theorem addWithCarry_spec (m : Byte) (s : State) :
    ∃ p, addWithCarry m s = (s.setA (BitVec.ofNat 8 (s.a.toNat + m.toNat + (s.flag .c).toNat))).setP p := ⟨_, rfl⟩

/-- SBC: it writes A and P and nothing else (R211). -/
theorem subWithBorrow_spec (m : Byte) (s : State) :
    ∃ p, subWithBorrow m s = (s.setA (BitVec.ofNat 8 (s.a.toNat + (m ^^^ 0xFF).toNat + (s.flag .c).toNat))).setP p :=
  ⟨_, rfl⟩

/-- AND (R212). -/
theorem andA_eq (m : Byte) (s : State) : andA m s = (s.setA (s.a &&& m)).setP (nzByte (s.a &&& m) s.p) := rfl

/-- ORA (R213). -/
theorem orA_eq (m : Byte) (s : State) : orA m s = (s.setA (s.a ||| m)).setP (nzByte (s.a ||| m) s.p) := rfl

/-- EOR (R214). -/
theorem eorA_eq (m : Byte) (s : State) : eorA m s = (s.setA (s.a ^^^ m)).setP (nzByte (s.a ^^^ m) s.p) := rfl

/-- BIT writes P only (R215). -/
theorem bitTest_eq (m : Byte) (s : State) :
    bitTest m s = s.setP (withFlag (withFlag (withFlag s.p .z ((s.a &&& m) == 0)) .n (m.getLsbD 7)) .v (m.getLsbD 6)) := rfl

/-- A compare writes P only (R216). -/
theorem compare_eq (reg m : Byte) (s : State) :
    compare reg m s = s.setP (nzByte (reg - m) (withFlag s.p .c (decide (m.toNat ≤ reg.toNat)))) := rfl

/-- ASL's result and status (R240). -/
theorem shiftLeft_eq (v : Byte) (s : State) :
    shiftLeft v s = (v <<< 1, s.setP (nzByte (v <<< 1) (withFlag s.p .c (v.getLsbD 7)))) := rfl

/-- LSR's result and status (R241). -/
theorem shiftRight_eq (v : Byte) (s : State) :
    shiftRight v s = (v >>> 1, s.setP (nzByte (v >>> 1) (withFlag s.p .c (v.getLsbD 0)))) := rfl

/-- ROL's result and status (R242). -/
theorem rotateLeft_eq (v : Byte) (s : State) :
    rotateLeft v s =
      ((v <<< 1) ||| carryByte s, s.setP (nzByte ((v <<< 1) ||| carryByte s) (withFlag s.p .c (v.getLsbD 7)))) := rfl

/-- ROR's result and status (R243). -/
theorem rotateRight_eq (v : Byte) (s : State) :
    rotateRight v s =
      ((v >>> 1) ||| (carryByte s <<< 7),
        s.setP (nzByte ((v >>> 1) ||| (carryByte s <<< 7)) (withFlag s.p .c (v.getLsbD 0)))) := rfl

/-- INC's result and status (R244). -/
theorem increment_eq (v : Byte) (s : State) : increment v s = (v + 1, s.setP (nzByte (v + 1) s.p)) := rfl

/-- DEC's result and status (R245). -/
theorem decrement_eq (v : Byte) (s : State) : decrement v s = (v - 1, s.setP (nzByte (v - 1) s.p)) := rfl

@[simp] theorem flagOf_nzByte (v p : Byte) (f : Flag) :
    flagOf (nzByte v p) f = if f = .z then (v == 0) else if f = .n then v.getLsbD 7 else flagOf p f := by
  simp [nzByte, flagOf_withFlag]

end Sys2Proof.Machine
end

