-- ==== Sys2Proof/Laws/Memory.lean ====
section
/-! SUPPORT. The laws of memory as a list of cells: a read after a write, the canonical form kept, and the ranges of
the cells that addresses decode to. -/

namespace Sys2Proof.Machine

@[simp] theorem Memory.read_nil (k : Nat) : Memory.read [] k = unlisted k := rfl

theorem Memory.read_cons (j : Nat) (v : Byte) (m : Memory) (k : Nat) :
    Memory.read ((j, v) :: m) k = if j = k then v else Memory.read m k := rfl

/-- The canonical form of a list with a first entry. -/
theorem Memory.wf_cons (k : Nat) (v : Byte) (m : Memory) :
    Memory.wf ((k, v) :: m) = true ↔ v ≠ unlisted k ∧ (∀ c ∈ m, k < c.1) ∧ Memory.wf m = true := by
  simp [Memory.wf, and_assoc]

/-- A cell below every listed one reads as unlisted. -/
theorem Memory.read_below (m : Memory) (k : Nat) (h : ∀ c ∈ m, k < c.1) : Memory.read m k = unlisted k := by
  induction m with
  | nil => rfl
  | cons c m ih =>
    obtain ⟨j, w⟩ := c
    have hj : k < j := h (j, w) (by simp)
    rw [Memory.read_cons, if_neg (by omega)]
    exact ih (fun c hc => h c (by simp [hc]))

/-- A read after a write: the byte written at its cell, and every other cell as before. -/
theorem Memory.read_write (m : Memory) (hm : Memory.wf m = true) (k j : Nat) (v : Byte) :
    Memory.read (Memory.write m k v) j = if j = k then v else Memory.read m j := by
  induction m with
  | nil =>
    unfold Memory.write
    split
    case isTrue hv =>
      split
      case isTrue hj => rw [Memory.read_nil, hj, hv]
      case isFalse => rfl
    case isFalse => rw [Memory.read_cons]; simp only [eq_comm]
  | cons c m ih =>
    obtain ⟨i, w⟩ := c
    obtain ⟨-, habove, hm'⟩ := (Memory.wf_cons i w m).1 hm
    unfold Memory.write
    split
    case isTrue hlt =>
      have hbelow : ∀ c ∈ (i, w) :: m, k < c.1 := by
        intro c hc
        rcases List.mem_cons.1 hc with rfl | hc
        · exact hlt
        · exact hlt.trans (habove c hc)
      split
      case isTrue hv =>
        split
        case isTrue hj => rw [hj, Memory.read_below _ _ hbelow, hv]
        case isFalse => rfl
      case isFalse => rw [Memory.read_cons]; simp [eq_comm]
    case isFalse hge =>
      split
      case isTrue hik =>
        subst hik
        split
        case isTrue hv =>
          split
          case isTrue hj => rw [hj, Memory.read_below _ _ habove, hv]
          case isFalse hj => rw [Memory.read_cons, if_neg (Ne.symm hj)]
        case isFalse => rw [Memory.read_cons, Memory.read_cons]; simp only [eq_comm]; split <;> rfl
      case isFalse hik =>
        rw [Memory.read_cons, Memory.read_cons, ih hm']
        by_cases hij : i = j
        · subst hij; rw [if_pos rfl, if_pos rfl, if_neg hik]
        · rw [if_neg hij, if_neg hij]

/-- Every cell a write leaves listed was listed before, or is the cell written. -/
theorem Memory.mem_write {m : Memory} {k : Nat} {v : Byte} {c : Host.Cell} (h : c ∈ Memory.write m k v) :
    c ∈ m ∨ c.1 = k := by
  induction m with
  | nil =>
    unfold Memory.write at h
    split at h
    · simp at h
    · simp at h; simp [h]
  | cons d m ih =>
    obtain ⟨i, w⟩ := d
    unfold Memory.write at h
    split at h
    · split at h
      · exact .inl h
      · rcases List.mem_cons.1 h with rfl | h
        · exact .inr rfl
        · exact .inl h
    · split at h
      · split at h
        · exact .inl (by simp [h])
        · rcases List.mem_cons.1 h with rfl | h
          · exact .inr rfl
          · exact .inl (by simp [h])
      · rcases List.mem_cons.1 h with rfl | h
        · exact .inl (by simp)
        · rcases ih h with h | h
          · exact .inl (by simp [h])
          · exact .inr h

/-- A write keeps the canonical form. -/
theorem Memory.wf_write (m : Memory) (hm : Memory.wf m = true) (k : Nat) (v : Byte) :
    Memory.wf (Memory.write m k v) = true := by
  induction m with
  | nil =>
    unfold Memory.write
    split
    case isTrue => rfl
    case isFalse hv => exact (Memory.wf_cons k v []).2 ⟨hv, by simp, rfl⟩
  | cons c m ih =>
    obtain ⟨i, w⟩ := c
    obtain ⟨hw, habove, hm'⟩ := (Memory.wf_cons i w m).1 hm
    unfold Memory.write
    split
    case isTrue hlt =>
      split
      case isTrue => exact hm
      case isFalse hv =>
        refine (Memory.wf_cons k v _).2 ⟨hv, ?_, hm⟩
        intro c hc
        rcases List.mem_cons.1 hc with rfl | hc
        · exact hlt
        · exact hlt.trans (habove c hc)
    case isFalse hge =>
      split
      case isTrue hik =>
        subst hik
        split
        case isTrue => exact hm'
        case isFalse hv => exact (Memory.wf_cons i v m).2 ⟨hv, habove, hm'⟩
      case isFalse hik =>
        refine (Memory.wf_cons i w _).2 ⟨hw, ?_, ih hm'⟩
        intro c hc
        rcases Memory.mem_write hc with hc | hc
        · exact habove c hc
        · rw [hc]; omega

/-- A canonical memory is determined by what its cells read as. -/
theorem Memory.eq_of_read {m m' : Memory} (hm : Memory.wf m = true) (hm' : Memory.wf m' = true)
    (h : ∀ k, Memory.read m k = Memory.read m' k) : m = m' := by
  induction m generalizing m' with
  | nil =>
    cases m' with
    | nil => rfl
    | cons c m' =>
      obtain ⟨i, w⟩ := c
      have := h i
      rw [Memory.read_cons, if_pos rfl, Memory.read_nil] at this
      exact absurd this.symm ((Memory.wf_cons i w m').1 hm').1
  | cons c m ih =>
    obtain ⟨i, w⟩ := c
    obtain ⟨hw, habove, hmr⟩ := (Memory.wf_cons i w m).1 hm
    cases m' with
    | nil =>
      have := h i
      rw [Memory.read_cons, if_pos rfl, Memory.read_nil] at this
      exact absurd this hw
    | cons c' m' =>
      obtain ⟨j, u⟩ := c'
      obtain ⟨hu, habove', hmr'⟩ := (Memory.wf_cons j u m').1 hm'
      have hi := h i
      have hj := h j
      rw [Memory.read_cons, if_pos rfl, Memory.read_cons] at hi
      rw [Memory.read_cons, Memory.read_cons, if_pos rfl] at hj
      rcases Nat.lt_trichotomy i j with hlt | heq | hgt
      · rw [if_neg (by omega)] at hi
        rw [Memory.read_below m' i (fun c hc => hlt.trans (habove' c hc))] at hi
        exact absurd hi hw
      · subst heq
        rw [if_pos rfl] at hi
        subst hi
        congr 1
        refine ih hmr hmr' (fun k => ?_)
        have hk := h k
        rw [Memory.read_cons, Memory.read_cons] at hk
        by_cases hik : i = k
        · subst hik
          rw [Memory.read_below m i habove, Memory.read_below m' i habove']
        · simpa [hik] using hk
      · rw [if_neg (by omega)] at hj
        rw [Memory.read_below m j (fun c hc => hgt.trans (habove c hc))] at hj
        exact absurd hj.symm hu

/-- The canonical form of a part of a canonical memory. -/
theorem Memory.wf_filter (m : Memory) (hm : Memory.wf m = true) (q : Host.Cell → Bool) :
    Memory.wf (m.filter q) = true := by
  induction m with
  | nil => rfl
  | cons c m ih =>
    obtain ⟨i, w⟩ := c
    obtain ⟨hw, habove, hm'⟩ := (Memory.wf_cons i w m).1 hm
    rw [List.filter_cons]
    split
    · exact (Memory.wf_cons i w _).2 ⟨hw, fun c hc => habove c (List.mem_of_mem_filter hc), ih hm'⟩
    · exact ih hm'

theorem ramCell_lt (a : Word) : ramCell a < 0x800 := by
  have : ramCell a ≤ 0x07FF := by
    unfold ramCell; rw [BitVec.toNat_and]; exact Nat.and_le_right
  omega

theorem prgRamCell_range (a : Word) : 0x6000 ≤ prgRamCell a ∧ prgRamCell a < 0x8000 := by
  have : (a &&& 0x1FFF).toNat ≤ 0x1FFF := by
    rw [BitVec.toNat_and]; exact Nat.and_le_right
  unfold prgRamCell; omega

theorem prgRomCell_ge (npages : Nat) (a : Word) : 0x8000 ≤ prgRomCell npages a := by
  unfold prgRomCell; omega

/-- The cell of a PRG-ROM address exists in an image with a page. -/
theorem prgRomCell_lt (npages : Nat) (h : npages ≠ 0) (a : Word) :
    prgRomCell npages a < 0x8000 + 1024 * min npages 32 := by
  have hoff : (a &&& 0x03FF).toNat ≤ 0x03FF := by
    rw [BitVec.toNat_and]; exact Nat.and_le_right
  have hi : ((a &&& 0x7FFF) >>> 10).toNat < 32 := by
    rw [BitVec.toNat_ushiftRight, Nat.shiftRight_eq_div_pow]
    have : (a &&& 0x7FFF).toNat ≤ 0x7FFF := by
      rw [BitVec.toNat_and]; exact Nat.and_le_right
    omega
  have hb : bank npages ((a &&& 0x7FFF) >>> 10).toNat < min npages 32 := by
    unfold bank
    have h1 := Nat.mod_lt ((a &&& 0x7FFF) >>> 10).toNat (Nat.pos_of_ne_zero h)
    have h2 := Nat.mod_le ((a &&& 0x7FFF) >>> 10).toNat npages
    omega
  unfold prgRomCell
  omega

/-- A writable cell is one of internal RAM or of PRG-RAM, and never one of PRG-ROM. -/
theorem writableCell_range {a : Word} {k : Nat} (h : writableCell a = some k) :
    k < 0x800 ∨ (0x6000 ≤ k ∧ k < 0x8000) := by
  unfold writableCell at h
  split at h <;> simp at h
  · exact .inl (h ▸ ramCell_lt a)
  · exact .inr (h ▸ prgRamCell_range a)

/-- A writable cell exists, whatever the image. -/
theorem writableCell_exists {a : Word} {k : Nat} (h : writableCell a = some k) (npages : Nat) :
    cellExists npages k = true := by
  rcases writableCell_range h with h | ⟨h1, h2⟩
  · simp [cellExists, h]
  · simp [cellExists]; omega

theorem regionOf_ram {a : Word} (h : a.toNat < 0x2000) : regionOf a = .ram := by
  unfold regionOf; rw [if_pos h]

theorem regionOf_prgRom {a : Word} (h : 0x8000 ≤ a.toNat) : regionOf a = .prgRom := by
  unfold regionOf
  rw [if_neg (by omega), if_neg (by omega), if_neg (by omega), if_neg (by omega), if_neg (by omega)]

end Sys2Proof.Machine
end

