-- ==== Sys2Proof/Laws/Ops.lean ====
section
/-! SUPPORT. One lemma for each bus, stack and interrupt operation that says what it can do: which fields it may
change, and what memory reads as after it. -/

namespace Sys2Proof.Machine

/-! ## Reading -/

/-- What a read returns depends on memory, the image's page count and the draw counter only. -/
theorem State.peek_congr {s t : State} (hm : t.mem = s.mem) (hp : t.romPages = s.romPages) (hd : t.draws = s.draws)
    (a : Word) : t.peek a = s.peek a := by
  simp only [State.peek, hm, hp, hd]

/-- Outside the open band it does not depend on the draw counter. -/
theorem State.peek_congr_of_not_band {s t : State} (hm : t.mem = s.mem) (hp : t.romPages = s.romPages) {a : Word}
    (ha : regionOf a ≠ .openBand) : t.peek a = s.peek a := by
  simp only [State.peek, hm, hp]
  split <;> simp_all

@[simp] theorem State.peek_setA (s : State) (v : Byte) (a : Word) : (s.setA v).peek a = s.peek a := rfl
@[simp] theorem State.peek_setX (s : State) (v : Byte) (a : Word) : (s.setX v).peek a = s.peek a := rfl
@[simp] theorem State.peek_setY (s : State) (v : Byte) (a : Word) : (s.setY v).peek a = s.peek a := rfl
@[simp] theorem State.peek_setSp (s : State) (v : Byte) (a : Word) : (s.setSp v).peek a = s.peek a := rfl
@[simp] theorem State.peek_setP (s : State) (v : Byte) (a : Word) : (s.setP v).peek a = s.peek a := rfl
@[simp] theorem State.peek_setPc (s : State) (v : Word) (a : Word) : (s.setPc v).peek a = s.peek a := rfl
@[simp] theorem State.peek_setCyc (s : State) (n : Nat) (a : Word) : (s.setCyc n).peek a = s.peek a := rfl
@[simp] theorem State.peek_setPending (s : State) (e : Option Event) (a : Word) :
    (s.setPending e).peek a = s.peek a := rfl
@[simp] theorem State.peek_setFlag (s : State) (f : Flag) (v : Bool) (a : Word) :
    (s.setFlag f v).peek a = s.peek a := rfl
@[simp] theorem peek_setNZ (v : Byte) (s : State) (a : Word) : (setNZ v s).peek a = s.peek a := rfl

/-- A read changes the draw counter at most. -/
theorem afterRead_eq (a : Word) (s : State) :
    afterRead a s = s.setDraws (s.draws + if regionOf a = .openBand then 1 else 0) := by
  unfold afterRead
  cases regionOf a <;> rfl

/-- A read outside the open band changes nothing (R75). -/
theorem afterRead_of_not_band {a : Word} (h : regionOf a ≠ .openBand) (s : State) : afterRead a s = s := by
  unfold afterRead
  split <;> simp_all

/-- Reads elsewhere do not see a draw. -/
theorem peek_setDraws_of_not_band {a : Word} (h : regionOf a ≠ .openBand) (s : State) (n : Nat) :
    (s.setDraws n).peek a = s.peek a :=
  State.peek_congr_of_not_band (s := s) (t := s.setDraws n) rfl rfl h

theorem peek_afterRead_of_not_band {a : Word} (h : regionOf a ≠ .openBand) (b : Word) (s : State) :
    (afterRead b s).peek a = s.peek a := by
  rw [afterRead_eq]; exact peek_setDraws_of_not_band h s _

@[simp] theorem afterRead_a (b : Word) (s : State) : (afterRead b s).a = s.a := by rw [afterRead_eq]; rfl
@[simp] theorem afterRead_x (b : Word) (s : State) : (afterRead b s).x = s.x := by rw [afterRead_eq]; rfl
@[simp] theorem afterRead_y (b : Word) (s : State) : (afterRead b s).y = s.y := by rw [afterRead_eq]; rfl
@[simp] theorem afterRead_sp (b : Word) (s : State) : (afterRead b s).sp = s.sp := by rw [afterRead_eq]; rfl
@[simp] theorem afterRead_p (b : Word) (s : State) : (afterRead b s).p = s.p := by rw [afterRead_eq]; rfl
@[simp] theorem afterRead_pc (b : Word) (s : State) : (afterRead b s).pc = s.pc := by rw [afterRead_eq]; rfl
@[simp] theorem afterRead_pending (b : Word) (s : State) : (afterRead b s).pending = s.pending := by
  rw [afterRead_eq]; rfl
@[simp] theorem afterRead_cyc (b : Word) (s : State) : (afterRead b s).cyc = s.cyc := by rw [afterRead_eq]; rfl
@[simp] theorem afterRead_session (b : Word) (s : State) : (afterRead b s).session = s.session := by
  rw [afterRead_eq]; rfl
@[simp] theorem afterRead_mem (b : Word) (s : State) : (afterRead b s).mem = s.mem := by rw [afterRead_eq]; rfl
@[simp] theorem afterRead_romPages (b : Word) (s : State) : (afterRead b s).romPages = s.romPages := by
  rw [afterRead_eq]; rfl
@[simp] theorem afterRead_flag (b : Word) (s : State) (f : Flag) : (afterRead b s).flag f = s.flag f := by
  rw [afterRead_eq]; rfl

/-- A two-byte read of PRG-ROM, such as a vector's, changes nothing. -/
theorem readWord_of_not_band {a : Word} (h0 : regionOf a ≠ .openBand) (h1 : regionOf (a + 1) ≠ .openBand) (s : State) :
    readWord a s = (wordOf (s.peek a) (s.peek (a + 1)), s) := by
  simp only [readWord, memRead, afterRead_of_not_band h0, afterRead_of_not_band h1]

/-! ## Writing -/

/-- A write changes memory at most. -/
theorem memWrite_eq (a : Word) (v : Byte) (s : State) : ∃ m, memWrite a v s = s.setMem m := by
  unfold memWrite
  split
  · exact ⟨_, rfl⟩
  · exact ⟨s.mem, rfl⟩

@[simp] theorem memWrite_a (b : Word) (v : Byte) (s : State) : (memWrite b v s).a = s.a := by
  obtain ⟨m, h⟩ := memWrite_eq b v s; rw [h]; rfl
@[simp] theorem memWrite_x (b : Word) (v : Byte) (s : State) : (memWrite b v s).x = s.x := by
  obtain ⟨m, h⟩ := memWrite_eq b v s; rw [h]; rfl
@[simp] theorem memWrite_y (b : Word) (v : Byte) (s : State) : (memWrite b v s).y = s.y := by
  obtain ⟨m, h⟩ := memWrite_eq b v s; rw [h]; rfl
@[simp] theorem memWrite_sp (b : Word) (v : Byte) (s : State) : (memWrite b v s).sp = s.sp := by
  obtain ⟨m, h⟩ := memWrite_eq b v s; rw [h]; rfl
@[simp] theorem memWrite_p (b : Word) (v : Byte) (s : State) : (memWrite b v s).p = s.p := by
  obtain ⟨m, h⟩ := memWrite_eq b v s; rw [h]; rfl
@[simp] theorem memWrite_pc (b : Word) (v : Byte) (s : State) : (memWrite b v s).pc = s.pc := by
  obtain ⟨m, h⟩ := memWrite_eq b v s; rw [h]; rfl
@[simp] theorem memWrite_pending (b : Word) (v : Byte) (s : State) : (memWrite b v s).pending = s.pending := by
  obtain ⟨m, h⟩ := memWrite_eq b v s; rw [h]; rfl
@[simp] theorem memWrite_cyc (b : Word) (v : Byte) (s : State) : (memWrite b v s).cyc = s.cyc := by
  obtain ⟨m, h⟩ := memWrite_eq b v s; rw [h]; rfl
@[simp] theorem memWrite_session (b : Word) (v : Byte) (s : State) : (memWrite b v s).session = s.session := by
  obtain ⟨m, h⟩ := memWrite_eq b v s; rw [h]; rfl
@[simp] theorem memWrite_romPages (b : Word) (v : Byte) (s : State) : (memWrite b v s).romPages = s.romPages := by
  obtain ⟨m, h⟩ := memWrite_eq b v s; rw [h]; rfl
@[simp] theorem memWrite_draws (b : Word) (v : Byte) (s : State) : (memWrite b v s).draws = s.draws := by
  obtain ⟨m, h⟩ := memWrite_eq b v s; rw [h]; rfl
@[simp] theorem memWrite_flag (b : Word) (v : Byte) (s : State) (f : Flag) : (memWrite b v s).flag f = s.flag f := by
  obtain ⟨m, h⟩ := memWrite_eq b v s; rw [h]; rfl

/-- What a write makes of memory. -/
theorem memWrite_mem (a : Word) (v : Byte) (s : State) :
    (memWrite a v s).mem = match writableCell a with | some k => s.mem.write k v | none => s.mem := by
  unfold memWrite; cases writableCell a <;> rfl

/-- A write keeps the canonical form. -/
theorem memWrite_wf (a : Word) (v : Byte) (s : State) (h : Memory.wf s.mem = true) :
    Memory.wf (memWrite a v s).mem = true := by
  rw [memWrite_mem]
  split
  · exact Memory.wf_write _ h _ _
  · exact h

/-- Writing a cell changes no other cell, in the canonical form or not. -/
theorem Memory.read_write_ne (m : Memory) (k j : Nat) (v : Byte) (h : j ≠ k) :
    Memory.read (Memory.write m k v) j = Memory.read m j := by
  induction m with
  | nil =>
    unfold Memory.write
    split
    · rfl
    · rw [Memory.read_cons, if_neg (Ne.symm h)]
  | cons c m ih =>
    obtain ⟨i, w⟩ := c
    unfold Memory.write
    split
    · split
      · rfl
      · rw [Memory.read_cons, if_neg (Ne.symm h)]
    · split
      case isTrue hik =>
        subst hik
        split
        · rw [Memory.read_cons, if_neg (Ne.symm h)]
        · rw [Memory.read_cons, Memory.read_cons, if_neg (Ne.symm h), if_neg (Ne.symm h)]
      case isFalse => rw [Memory.read_cons, Memory.read_cons, ih]

/-- The cell a read of a writable address reads. -/
theorem peek_of_writableCell {a : Word} {k : Nat} (h : writableCell a = some k) (s : State) :
    s.peek a = s.mem.read k := by
  unfold writableCell at h
  unfold State.peek
  split at h <;> simp_all

/-- A write reads back at every address of its cell (R79, R88). -/
theorem peek_memWrite_same {a b : Word} (hs : SharesCell a b) (v : Byte) (s : State) (h : Memory.wf s.mem = true) :
    (memWrite a v s).peek b = v := by
  obtain ⟨k, ha, hb⟩ := hs
  rw [peek_of_writableCell hb, memWrite_mem, ha]
  simp only
  rw [Memory.read_write _ h, if_pos rfl]

/-- A write changes no byte of another cell (R75). -/
theorem peek_memWrite_other {a b : Word} (hs : ¬ SharesCell a b) (v : Byte) (s : State) :
    (memWrite a v s).peek b = s.peek b := by
  unfold memWrite
  split
  case h_2 => rfl
  case h_1 k hk =>
    by_cases hb : ∃ j, writableCell b = some j
    · obtain ⟨j, hj⟩ := hb
      rw [peek_of_writableCell hj, peek_of_writableCell hj]
      exact Memory.read_write_ne _ _ _ _ (fun e => hs ⟨k, hk, e ▸ hj⟩)
    · unfold State.peek
      have hr := writableCell_range hk
      split
      case h_1 h => exact absurd ⟨ramCell b, by simp [writableCell, h]⟩ hb
      case h_5 h => exact absurd ⟨prgRamCell b, by simp [writableCell, h]⟩ hb
      case h_6 h =>
        refine Memory.read_write_ne _ _ _ _ ?_
        have := prgRomCell_ge s.romPages b
        simp only [State.setMem_romPages]
        omega
      all_goals rfl

/-! ## The stack -/

theorem zext_toNat (b : Byte) : (zext b).toNat = b.toNat := by
  simp [zext]; omega

/-- A stack address lies in page 1 (R77). -/
theorem stackAddr_toNat (sp : Byte) : (stackAddr sp).toNat = 0x0100 + sp.toNat := by
  revert sp; decide

theorem regionOf_stackAddr (sp : Byte) : regionOf (stackAddr sp) = .ram :=
  regionOf_ram (by rw [stackAddr_toNat]; omega)

theorem stackAddr_not_band (sp : Byte) : regionOf (stackAddr sp) ≠ .openBand := by
  rw [regionOf_stackAddr]; decide

theorem writableCell_stackAddr (sp : Byte) : writableCell (stackAddr sp) = some (0x0100 + sp.toNat) := by
  have h : ramCell (stackAddr sp) = 0x0100 + sp.toNat := by revert sp; decide
  simp [writableCell, regionOf_stackAddr, h]

/-- Two stack addresses share a cell exactly when they are the same. -/
theorem sharesCell_stackAddr (p q : Byte) : SharesCell (stackAddr p) (stackAddr q) ↔ p = q := by
  constructor
  · rintro ⟨k, hp, hq⟩
    rw [writableCell_stackAddr] at hp hq
    have : p.toNat = q.toNat := by
      have := Option.some.inj hp; have := Option.some.inj hq; omega
    exact BitVec.eq_of_toNat_eq this
  · rintro rfl
    exact ⟨_, writableCell_stackAddr p, writableCell_stackAddr p⟩

theorem SharesCell.comm {a b : Word} : SharesCell a b ↔ SharesCell b a :=
  ⟨fun ⟨k, h1, h2⟩ => ⟨k, h2, h1⟩, fun ⟨k, h1, h2⟩ => ⟨k, h2, h1⟩⟩

@[simp] theorem push_a (v : Byte) (s : State) : (push v s).a = s.a := by simp [push]
@[simp] theorem push_x (v : Byte) (s : State) : (push v s).x = s.x := by simp [push]
@[simp] theorem push_y (v : Byte) (s : State) : (push v s).y = s.y := by simp [push]
@[simp] theorem push_sp (v : Byte) (s : State) : (push v s).sp = s.sp - 1 := by simp [push]
@[simp] theorem push_p (v : Byte) (s : State) : (push v s).p = s.p := by simp [push]
@[simp] theorem push_pc (v : Byte) (s : State) : (push v s).pc = s.pc := by simp [push]
@[simp] theorem push_pending (v : Byte) (s : State) : (push v s).pending = s.pending := by simp [push]
@[simp] theorem push_cyc (v : Byte) (s : State) : (push v s).cyc = s.cyc := by simp [push]
@[simp] theorem push_session (v : Byte) (s : State) : (push v s).session = s.session := by simp [push]
@[simp] theorem push_romPages (v : Byte) (s : State) : (push v s).romPages = s.romPages := by simp [push]
@[simp] theorem push_draws (v : Byte) (s : State) : (push v s).draws = s.draws := by simp [push]
@[simp] theorem push_flag (v : Byte) (s : State) (f : Flag) : (push v s).flag f = s.flag f := by simp [push]

theorem push_wf (v : Byte) (s : State) (h : Memory.wf s.mem = true) : Memory.wf (push v s).mem = true := by
  simp only [push, State.setSp_mem]; exact memWrite_wf _ _ _ h

/-- A push reads back at its stack byte. -/
theorem peek_push_same (v : Byte) (s : State) (h : Memory.wf s.mem = true) : (push v s).peek (stackAddr s.sp) = v := by
  simp only [push, State.peek_setSp]
  exact peek_memWrite_same ((sharesCell_stackAddr _ _).2 rfl) v s h

/-- A push changes no other byte. -/
theorem peek_push_other {a : Word} (v : Byte) (s : State) (h : ¬ SharesCell a (stackAddr s.sp)) :
    (push v s).peek a = s.peek a := by
  simp only [push, State.peek_setSp]
  exact peek_memWrite_other (fun e => h (SharesCell.comm.1 e)) v s

/-- A pull changes S and nothing else, and reads the byte above (R290). -/
theorem pull_eq (s : State) : pull s = (s.peek (stackAddr (s.sp + 1)), s.setSp (s.sp + 1)) := by
  simp only [pull, memRead, State.peek_setSp, afterRead_of_not_band (stackAddr_not_band _)]

/-- Pulling a word changes S by 2 and nothing else. -/
theorem pullWord_eq (s : State) :
    pullWord s =
      (wordOf (s.peek (stackAddr (s.sp + 1))) (s.peek (stackAddr (s.sp + 1 + 1))), s.setSp (s.sp + 1 + 1)) := by
  simp only [pullWord, pull_eq, State.peek_setSp, State.setSp_sp]; rfl

/-- Pulling P changes S and P and nothing else (R294). -/
theorem pullStatus_eq (s : State) :
    pullStatus s = (s.setSp (s.sp + 1)).setP (loadedStatus (s.peek (stackAddr (s.sp + 1)))) := by
  simp only [pullStatus, pull_eq]

/-- RTI changes P, S and PC and nothing else (R297). -/
theorem returnFromInterrupt_eq (s : State) :
    returnFromInterrupt s =
      ((s.setP (loadedStatus (s.peek (stackAddr (s.sp + 1))))).setSp (s.sp + 1 + 1 + 1)).setPc
        (wordOf (s.peek (stackAddr (s.sp + 1 + 1))) (s.peek (stackAddr (s.sp + 1 + 1 + 1)))) := by
  simp only [returnFromInterrupt, pullStatus_eq, pullWord_eq, State.setP_sp, State.setSp_sp, State.peek_setP,
    State.peek_setSp]
  rfl

/-! ## Taking an interrupt -/

/-- The state after the three pushes of a frame (R417). -/
def pushFrame (pushed : Byte) (s : State) : State := push pushed (push (loByte s.pc) (push (hiByte s.pc) s))

theorem vector_not_band (v : Word) (h : 0x8000 ≤ v.toNat) : regionOf v ≠ .openBand := by
  rw [regionOf_prgRom h]; decide

/-- Three pushes change no byte of PRG-ROM. -/
theorem peek_pushFrame_rom (pushed : Byte) (s : State) {a : Word} (h : 0x8000 ≤ a.toNat) :
    (pushFrame pushed s).peek a = s.peek a := by
  have hs : ∀ sp, ¬ SharesCell a (stackAddr sp) := by
    rintro sp ⟨k, hk, -⟩
    simp [writableCell, regionOf_prgRom h] at hk
  simp only [pushFrame]
  rw [peek_push_other _ _ (hs _), peek_push_other _ _ (hs _), peek_push_other _ _ (hs _)]

/-- Taking an interrupt through a vector in PRG-ROM: the frame is pushed, D and I change as asked, and PC becomes the
vector's target (R417, R418, R298). -/
theorem takeInterrupt_eq (vector : Word) (h : 0x8000 ≤ vector.toNat) (h1 : 0x8000 ≤ (vector + 1).toNat) (pushed : Byte)
    (clearsD setsI : Bool) (s : State) :
    ∃ p, takeInterrupt vector pushed clearsD setsI s =
        ((pushFrame pushed s).setP p).setPc (wordOf (s.peek vector) (s.peek (vector + 1))) ∧
      ∀ f, flagOf p f =
        if f = .i ∧ setsI = true then true else if f = .d ∧ clearsD = true then false else s.flag f := by
  have hframe : push pushed (push (loByte s.pc) (push (hiByte s.pc) s)) = pushFrame pushed s := rfl
  have hp : (pushFrame pushed s).p = s.p := by simp [pushFrame]
  have e0 := peek_pushFrame_rom pushed s h
  have e1 := peek_pushFrame_rom pushed s h1
  simp only [takeInterrupt, hframe]
  rw [readWord_of_not_band (vector_not_band _ h) (vector_not_band _ h1)]
  generalize pushFrame pushed s = u at hp e0 e1
  rw [← e0, ← e1]
  refine ⟨((fun u : State => if setsI then u.setFlag .i true else u)
    ((fun u : State => if clearsD then u.setFlag .d false else u) u)).p, ?_, ?_⟩
  · cases clearsD <;> cases setsI <;> rfl
  · intro f
    cases clearsD <;> cases setsI <;> cases f <;> simp [hp, flagOf_withFlag, State.flag]

end Sys2Proof.Machine
end

