-- ==== Sys2Proof/Laws/Operands.lean ====
section
/-! SUPPORT. One lemma for the frame every meaning runs in, and for each access class: what it reads, what it writes,
and what stays. -/

namespace Sys2Proof.Machine

/-- The state in which an instruction's operation runs: PC past the instruction, CYC at its cost. -/
def begun (cfg : Config) (i : Instr) (s : State) : State :=
  (s.setPc (s.pc + BitVec.ofNat 16 i.length)).setCyc (costOf cfg i s)

/-- The effective address does not depend on PC or CYC, but for the two modes that take it from PC. -/
theorem effAddr_setPc_setCyc (m : Operand) (s : State) (w : Word) (n : Nat) (hi : m.mode ≠ .imm) (hr : m.mode ≠ .rel) :
    effAddr m ((s.setPc w).setCyc n) = effAddr m s := by
  cases m <;> first | rfl | exact absurd rfl hi | exact absurd rfl hr | skip
  case ind v =>
    simp only [effAddr, resolveIndirect, memRead, State.peek_setPc, State.peek_setCyc]
    congr 1
    exact State.peek_congr (by simp [afterRead_eq]) (by simp [afterRead_eq]) (by simp [afterRead_eq]) _

/-- Page crossing does not depend on PC or CYC (R190). -/
theorem pageCross_setPc_setCyc (m : Operand) (s : State) (w : Word) (n : Nat) :
    pageCross m ((s.setPc w).setCyc n) = pageCross m s := by
  cases m <;> first | rfl | simp [pageCross, indexBase]

/-- What the frame of a meaning answers (R151, R152). -/
theorem runInstr_eq (cfg : Config) (i : Instr) (s : State) (f : State → State) :
    runInstr cfg i s f =
      match i.opcode cfg with
      | some _ => .next (f (begun cfg i s))
      | none => .refused .notAnInstruction := by
  unfold runInstr
  cases h : i.opcode cfg with
  | none => rfl
  | some op =>
    have hstart : chargePage cfg op i.operand (advance cfg i op s) = begun cfg i s := by
      simp only [chargePage, advance, pageCross_setPc_setCyc, begun, costOf, h]
      by_cases hc : (penaltyBearing cfg op && pageCross i.operand s) = true
      · simp only [hc, if_true]; rfl
      · simp only [hc]; rfl
    simp only [hstart]

/-- A well-formed instruction completes: its operation runs in `begun` (R151). -/
theorem runInstr_of_wf {cfg : Config} {i : Instr} (h : i.wf cfg = true) (s : State) (f : State → State) :
    runInstr cfg i s f = .next (f (begun cfg i s)) := by
  obtain ⟨op, hop⟩ := opcode_of_wf h
  rw [runInstr_eq, hop]

/-- If a meaning answers a next state, the term was well formed and that state is its operation's. -/
theorem runInstr_next {cfg : Config} {i : Instr} {s t : State} {f : State → State} (h : runInstr cfg i s f = .next t) :
    i.wf cfg = true ∧ t = f (begun cfg i s) := by
  rw [runInstr_eq] at h
  cases hop : i.opcode cfg with
  | none => rw [hop] at h; cases h
  | some op =>
    rw [hop] at h
    exact ⟨wf_of_opcode hop, by cases h; rfl⟩

@[simp] theorem begun_a (cfg : Config) (i : Instr) (s : State) : (begun cfg i s).a = s.a := rfl
@[simp] theorem begun_x (cfg : Config) (i : Instr) (s : State) : (begun cfg i s).x = s.x := rfl
@[simp] theorem begun_y (cfg : Config) (i : Instr) (s : State) : (begun cfg i s).y = s.y := rfl
@[simp] theorem begun_sp (cfg : Config) (i : Instr) (s : State) : (begun cfg i s).sp = s.sp := rfl
@[simp] theorem begun_p (cfg : Config) (i : Instr) (s : State) : (begun cfg i s).p = s.p := rfl
@[simp] theorem begun_pc (cfg : Config) (i : Instr) (s : State) : (begun cfg i s).pc = s.pc + BitVec.ofNat 16 i.length := rfl
@[simp] theorem begun_pending (cfg : Config) (i : Instr) (s : State) : (begun cfg i s).pending = s.pending := rfl
@[simp] theorem begun_cyc (cfg : Config) (i : Instr) (s : State) : (begun cfg i s).cyc = costOf cfg i s := rfl
@[simp] theorem begun_session (cfg : Config) (i : Instr) (s : State) : (begun cfg i s).session = s.session := rfl
@[simp] theorem begun_mem (cfg : Config) (i : Instr) (s : State) : (begun cfg i s).mem = s.mem := rfl
@[simp] theorem begun_romPages (cfg : Config) (i : Instr) (s : State) : (begun cfg i s).romPages = s.romPages := rfl
@[simp] theorem begun_draws (cfg : Config) (i : Instr) (s : State) : (begun cfg i s).draws = s.draws := rfl
@[simp] theorem begun_flag (cfg : Config) (i : Instr) (s : State) (f : Flag) : (begun cfg i s).flag f = s.flag f := rfl
@[simp] theorem begun_peek (cfg : Config) (i : Instr) (s : State) (a : Word) : (begun cfg i s).peek a = s.peek a := rfl

/-- The effective address in `begun` is the one in the state the instruction starts from. -/
theorem effAddr_begun (m : Operand) (cfg : Config) (i : Instr) (s : State) (hi : m.mode ≠ .imm) (hr : m.mode ≠ .rel) :
    effAddr m (begun cfg i s) = effAddr m s := effAddr_setPc_setCyc m s _ _ hi hr

/-- So is the operand's value. -/
theorem operandValue_begun (m : Operand) (cfg : Config) (i : Instr) (s : State) (hr : m.mode ≠ .rel) :
    operandValue m (begun cfg i s) = operandValue m s := by
  by_cases hi : m.mode = .imm
  · cases m <;> first | rfl | cases hi
  · have he := effAddr_begun m cfg i s hi hr
    cases m <;> simp only [operandValue, begun_a, begun_peek, he]

/-- Reading an operand changes the draw counter at most. -/
theorem afterOperand_eq (m : Operand) (s : State) : ∃ n, afterOperand m s = s.setDraws n := by
  cases m <;> first | exact ⟨s.draws, rfl⟩ | exact ⟨_, afterRead_eq _ _⟩

@[simp] theorem afterOperand_a (m : Operand) (s : State) : (afterOperand m s).a = s.a := by
  obtain ⟨n, h⟩ := afterOperand_eq m s; rw [h]; rfl
@[simp] theorem afterOperand_x (m : Operand) (s : State) : (afterOperand m s).x = s.x := by
  obtain ⟨n, h⟩ := afterOperand_eq m s; rw [h]; rfl
@[simp] theorem afterOperand_y (m : Operand) (s : State) : (afterOperand m s).y = s.y := by
  obtain ⟨n, h⟩ := afterOperand_eq m s; rw [h]; rfl
@[simp] theorem afterOperand_sp (m : Operand) (s : State) : (afterOperand m s).sp = s.sp := by
  obtain ⟨n, h⟩ := afterOperand_eq m s; rw [h]; rfl
@[simp] theorem afterOperand_p (m : Operand) (s : State) : (afterOperand m s).p = s.p := by
  obtain ⟨n, h⟩ := afterOperand_eq m s; rw [h]; rfl
@[simp] theorem afterOperand_pc (m : Operand) (s : State) : (afterOperand m s).pc = s.pc := by
  obtain ⟨n, h⟩ := afterOperand_eq m s; rw [h]; rfl
@[simp] theorem afterOperand_pending (m : Operand) (s : State) : (afterOperand m s).pending = s.pending := by
  obtain ⟨n, h⟩ := afterOperand_eq m s; rw [h]; rfl
@[simp] theorem afterOperand_cyc (m : Operand) (s : State) : (afterOperand m s).cyc = s.cyc := by
  obtain ⟨n, h⟩ := afterOperand_eq m s; rw [h]; rfl
@[simp] theorem afterOperand_session (m : Operand) (s : State) : (afterOperand m s).session = s.session := by
  obtain ⟨n, h⟩ := afterOperand_eq m s; rw [h]; rfl
@[simp] theorem afterOperand_mem (m : Operand) (s : State) : (afterOperand m s).mem = s.mem := by
  obtain ⟨n, h⟩ := afterOperand_eq m s; rw [h]; rfl
@[simp] theorem afterOperand_romPages (m : Operand) (s : State) : (afterOperand m s).romPages = s.romPages := by
  obtain ⟨n, h⟩ := afterOperand_eq m s; rw [h]; rfl
@[simp] theorem afterOperand_flag (m : Operand) (s : State) (f : Flag) : (afterOperand m s).flag f = s.flag f := by
  obtain ⟨n, h⟩ := afterOperand_eq m s; rw [h]; rfl

/-- Writing the result of a read-modify-write operation changes A or memory, by the mode (R156, R182). -/
theorem writeOperand_eq (m : Operand) (ea : Word) (r : Byte) (s : State) :
    writeOperand m ea r s = if m = .acc then s.setA r else memWrite ea r s := by
  cases m <;> simp [writeOperand]

/-- States with the same memory and image have the same bytes outside the open band. -/
theorem SameMemory.of_mem {s t : State} (hm : t.mem = s.mem) (hp : t.romPages = s.romPages) : SameMemory s t :=
  fun _ ha => State.peek_congr_of_not_band hm hp ha

/-- A state whose memory is that of a write has stored that byte and no other (R75). -/
theorem StoresByte.of_mem {s t : State} {ea : Word} {v : Byte} (hw : Memory.wf s.mem = true)
    (hm : t.mem = (memWrite ea v s).mem) (hp : t.romPages = s.romPages) : StoresByte ea v s t := by
  have hpeek : ∀ a, regionOf a ≠ .openBand → t.peek a = (memWrite ea v s).peek a := fun a ha =>
    State.peek_congr_of_not_band hm (by rw [hp, memWrite_romPages]) ha
  constructor
  · intro k hk
    have hb : regionOf ea ≠ .openBand := by
      intro hb; simp [writableCell, hb] at hk
    rw [hpeek ea hb]
    exact peek_memWrite_same ⟨k, hk, hk⟩ v s hw
  · intro a ha hs
    rw [hpeek a ha]
    exact peek_memWrite_other (fun e => hs ea (by simp) (SharesCell.comm.1 e)) v s

/-- A write reads the same cell whatever the other fields of the state are. -/
theorem memWrite_mem_congr {s t : State} (h : t.mem = s.mem) (ea : Word) (v : Byte) :
    (memWrite ea v t).mem = (memWrite ea v s).mem := by
  rw [memWrite_mem, memWrite_mem, h]

end Sys2Proof.Machine
end

