-- ==== Sys2Proof/Laws/Exec.lean ====
section
/-! SUPPORT. `exec` and `execWith` in one form: every instruction runs one operation in the frame of `runInstr`. -/

namespace Sys2Proof.Machine

/-- The operation that an instruction runs, on the state in which PC and CYC have advanced. -/
def operationOf (cfg : Config) : Instr → State → State
  | .adc m => readClass m addWithCarry
  | .sbc m => readClass m subWithBorrow
  | .sbcEB v => readClass (.imm v) subWithBorrow
  | .and m => readClass m andA
  | .ora m => readClass m orA
  | .eor m => readClass m eorA
  | .bit m => readClass m bitTest
  | .cmp m => readClass m (fun v t => compare t.a v t)
  | .cpx m => readClass m (fun v t => compare t.x v t)
  | .cpy m => readClass m (fun v t => compare t.y v t)
  | .asl m => modifyClass m shiftLeft noSecond
  | .lsr m => modifyClass m shiftRight noSecond
  | .rol m => modifyClass m rotateLeft noSecond
  | .ror m => modifyClass m rotateRight noSecond
  | .inc m => modifyClass m increment noSecond
  | .dec m => modifyClass m decrement noSecond
  | .inx => fun t => setNZ (t.x + 1) (t.setX (t.x + 1))
  | .iny => fun t => setNZ (t.y + 1) (t.setY (t.y + 1))
  | .dex => fun t => setNZ (t.x - 1) (t.setX (t.x - 1))
  | .dey => fun t => setNZ (t.y - 1) (t.setY (t.y - 1))
  | .bpl offset => branchIf (fun t => !t.flag .n) offset
  | .bmi offset => branchIf (fun t => t.flag .n) offset
  | .bvc offset => branchIf (fun t => !t.flag .v) offset
  | .bvs offset => branchIf (fun t => t.flag .v) offset
  | .bcc offset => branchIf (fun t => !t.flag .c) offset
  | .bcs offset => branchIf (fun t => t.flag .c) offset
  | .bne offset => branchIf (fun t => !t.flag .z) offset
  | .beq offset => branchIf (fun t => t.flag .z) offset
  | .jmp m => jump m
  | .pha => fun t => push t.a t
  | .php => fun t => push (pushedStatus t.p) t
  | .pla => fun t => setNZ (pull t).1 ((pull t).2.setA (pull t).1)
  | .plp => pullStatus
  | .jsr target => callSubroutine target
  | .rts => returnFromSubroutine
  | .rti => returnFromInterrupt
  | .brk => softwareInterrupt cfg
  | .tax => fun t => setNZ t.a (t.setX t.a)
  | .tay => fun t => setNZ t.a (t.setY t.a)
  | .txa => fun t => setNZ t.x (t.setA t.x)
  | .tya => fun t => setNZ t.y (t.setA t.y)
  | .tsx => fun t => setNZ t.sp (t.setX t.sp)
  | .txs => fun t => t.setSp t.x
  | .sec => fun t => t.setFlag .c true
  | .clc => fun t => t.setFlag .c false
  | .sed => fun t => t.setFlag .d true
  | .cld => fun t => t.setFlag .d false
  | .sei => fun t => t.setFlag .i true
  | .cli => fun t => t.setFlag .i false
  | .clv => fun t => t.setFlag .v false
  | .lax m => readClass m (fun v t => setNZ v ((t.setA v).setX v))
  | .sax m => writeClass m (fun t => t.a &&& t.x)
  | .dcp m => modifyClass m decrement (fun r t => compare t.a r t)
  | .isc m => modifyClass m increment subWithBorrow
  | .slo m => modifyClass m shiftLeft orA
  | .rla m => modifyClass m rotateLeft andA
  | .sre m => modifyClass m shiftRight eorA
  | .rra m => modifyClass m rotateRight addWithCarry
  | .dop _ m => readClass m (fun _ t => t)
  | .top _ m => readClass m (fun _ t => t)
  | .lda m => readClass m (fun v t => setNZ v (t.setA v))
  | .ldx m => readClass m (fun v t => setNZ v (t.setX v))
  | .ldy m => readClass m (fun v t => setNZ v (t.setY v))
  | .sta m => writeClass m (fun t => t.a)
  | .stx m => writeClass m (fun t => t.x)
  | .sty m => writeClass m (fun t => t.y)
  | .nop => fun t => t
  | .defaultNop _ => fun t => t

/-- Every meaning is its instruction's operation in the frame of R151. -/
theorem execWith_eq (cfg : Config) (i : Instr) (s : State) : execWith cfg i s = runInstr cfg i s (operationOf cfg i) := by
  cases i <;> rfl

/-- `exec` is the meanings at the default parameters (R9). -/
theorem exec_eq_execWith (i : Instr) (s : State) : exec i s = execWith hardware i s := by cases i <;> rfl

/-- Every arm of `exec` is its instruction's operation in the frame of R151. -/
theorem exec_eq (i : Instr) (s : State) : exec i s = runInstr hardware i s (operationOf hardware i) := by
  rw [exec_eq_execWith, execWith_eq]

/-- A well-formed instruction completes under any parameters, with its operation run in `begun`. -/
theorem execWith_of_wf {cfg : Config} {i : Instr} (h : i.wf cfg = true) (s : State) :
    execWith cfg i s = .next (operationOf cfg i (begun cfg i s)) := by
  rw [execWith_eq, runInstr_of_wf h]

/-- If an instruction answers a next state, the term is well formed and that state is its operation's. -/
theorem execWith_next {cfg : Config} {i : Instr} {s t : State} (h : execWith cfg i s = .next t) :
    i.wf cfg = true ∧ t = operationOf cfg i (begun cfg i s) := by
  rw [execWith_eq] at h; exact runInstr_next h

/-- A well-formed instruction completes, with its operation run in `begun`. -/
theorem exec_of_wf {i : Instr} (h : i.wf hardware = true) (s : State) :
    exec i s = .next (operationOf hardware i (begun hardware i s)) := by
  rw [exec_eq_execWith, execWith_of_wf h]

/-- If an instruction answers a next state, the term is well formed and that state is its operation's. -/
theorem exec_next {i : Instr} {s t : State} (h : exec i s = .next t) :
    i.wf hardware = true ∧ t = operationOf hardware i (begun hardware i s) := by
  rw [exec_eq_execWith] at h; exact execWith_next h

end Sys2Proof.Machine
end

