-- ==== Sys2Proof/Laws/Host.lean ====
section
/-! SUPPORT. The memory operations outside the core keep the canonical form: the loader's, power-on's, and the one that
places an instruction; and what memory reads as after power-on. -/

namespace Sys2Proof.Machine

/-- After reset, memory is in canonical form. -/
theorem State.reset_mem_wf : Memory.wf State.reset.mem = true := rfl

theorem pokeByte_wf (a : Word) (v : Byte) (s : State) (h : Memory.wf s.mem = true) :
    Memory.wf (pokeByte a v s).mem = true := by
  unfold pokeByte
  split
  · exact Memory.wf_write _ h _ _
  · exact h

theorem pokeBytes_wf (bytes : List Byte) (a : Word) (s : State) (h : Memory.wf s.mem = true) :
    Memory.wf (pokeBytes a bytes s).mem = true := by
  induction bytes generalizing a s with
  | nil => exact h
  | cons b rest ih => exact ih _ _ (pokeByte_wf a b s h)

/-- Two canonical memories, the first below the second, make one. -/
theorem Memory.wf_append (m m' : Memory) (h : Memory.wf m = true) (h' : Memory.wf m' = true)
    (hlt : ∀ c ∈ m, ∀ d ∈ m', c.1 < d.1) : Memory.wf (m ++ m') = true := by
  induction m with
  | nil => exact h'
  | cons c m ih =>
    obtain ⟨i, w⟩ := c
    obtain ⟨hw, habove, hm⟩ := (Memory.wf_cons i w m).1 h
    refine (Memory.wf_cons i w _).2 ⟨hw, fun d hd => ?_, ih hm (fun c hc => hlt c (by simp [hc]))⟩
    rcases List.mem_append.1 hd with hd | hd
    · exact habove d hd
    · exact hlt (i, w) (by simp) d hd

/-- Power-on makes canonical memory of a canonical PRG_RAM_INIT and a canonical image (R460). -/
theorem powerOnMemory_wf (prgRamInit loaded : Memory) (h : Memory.wf prgRamInit = true) (h' : Memory.wf loaded = true) :
    Memory.wf (powerOnMemory prgRamInit loaded) = true := by
  refine Memory.wf_append _ _ (Memory.wf_filter _ h _) (Memory.wf_filter _ h' _) (fun c hc d hd => ?_)
  have hc := List.of_mem_filter hc
  have hd := List.of_mem_filter hd
  simp only [isPrgRamCell, isPrgRomCell, Bool.and_eq_true, decide_eq_true_eq] at hc hd
  omega

theorem mem_cellsFrom {bytes : List Byte} {k : Nat} {c : Host.Cell} (h : c ∈ cellsFrom k bytes) : k ≤ c.1 := by
  induction bytes generalizing k with
  | nil => simp [cellsFrom] at h
  | cons b rest ih =>
    unfold cellsFrom at h
    split at h
    · have := ih h; omega
    · rcases List.mem_cons.1 h with rfl | h
      · exact Nat.le_refl _
      · have := ih h; omega

/-- The loader makes canonical memory (R86). -/
theorem cellsFrom_wf (bytes : List Byte) (k : Nat) : Memory.wf (cellsFrom k bytes) = true := by
  induction bytes generalizing k with
  | nil => rfl
  | cons b rest ih =>
    unfold cellsFrom
    split
    · exact ih _
    · refine (Memory.wf_cons k b _).2 ⟨‹_›, fun c hc => ?_, ih _⟩
      have := mem_cellsFrom hc
      omega

/-- Everything putting a cartridge in place can do: before an initialisation it replaces the image and memory, by
canonical memory, and changes nothing else (R86, R89). -/
theorem insertCartridge_next {file : List Byte} {s t : State} (h : insertCartridge file s = .next t) :
    s.session = .beforeInit ∧ ∃ m n, t = { s with mem := m, romPages := n } ∧ Memory.wf m = true := by
  unfold insertCartridge at h
  split at h
  · cases h
  · rename_i hs
    refine ⟨hs, ?_⟩
    simp only at h
    split at h <;> cases h
    · exact ⟨_, _, rfl, cellsFrom_wf _ _⟩
    · exact ⟨_, _, rfl, rfl⟩

/-- What a cell of power-on memory reads as: PRG-ROM as loaded, PRG-RAM as given, internal RAM 0 (R460). -/
theorem powerOnMemory_read (prgRamInit loaded : Memory) (k : Nat) :
    Memory.read (powerOnMemory prgRamInit loaded) k =
      if 0x8000 ≤ k then Memory.read loaded k else if 0x6000 ≤ k then Memory.read prgRamInit k else unlisted k := by
  unfold powerOnMemory
  induction prgRamInit with
  | nil =>
    simp only [List.filter_nil, List.nil_append]
    induction loaded with
    | nil => simp [unlisted]
    | cons c m ih =>
      obtain ⟨j, v⟩ := c
      rw [List.filter_cons]
      by_cases hj : 0x8000 ≤ j
      · rw [if_pos (by simp [isPrgRomCell, hj]), Memory.read_cons, Memory.read_cons, ih]
        split
        case isTrue e => subst e; rw [if_pos hj]
        case isFalse => rfl
      · rw [if_neg (by simp [isPrgRomCell]; omega), ih, Memory.read_cons]
        split <;> [rw [if_neg (by omega)]; rfl]
  | cons c p ih =>
    obtain ⟨j, v⟩ := c
    rw [List.filter_cons]
    by_cases hj : 0x6000 ≤ j ∧ j < 0x8000
    · rw [if_pos (by simp [isPrgRamCell, hj]), List.cons_append, Memory.read_cons, Memory.read_cons, ih]
      split
      case isTrue e => subst e; rw [if_neg (by omega), if_pos hj.1]
      case isFalse => rfl
    · rw [if_neg (by simp [isPrgRamCell]; omega), ih, Memory.read_cons]
      split
      · rfl
      · split <;> [rw [if_neg (by omega)]; rfl]

end Sys2Proof.Machine
end

