-- ==== Sys2Proof/Laws/PerInstr.lean ====
section
/-! SUPPORT. The statements made once per instruction: the bytes of a well-formed instruction are as many as its mode
says (R120, R121), and the first of them is its opcode byte. -/

namespace Sys2Proof.Laws.EncodedLength

/-- A well-formed instruction's encoding starts with its opcode byte and has the length of its mode. -/
def Statement (i : Instr) : Prop :=
  ∀ cfg, i.wf cfg = true → (encode cfg i).head? = i.opcode cfg ∧ (encode cfg i).length = i.length

theorem of_opcode (i : Instr) : Statement i := by
  intro cfg h
  obtain ⟨op, hop⟩ := opcode_of_wf h
  simp only [encode, hop, List.head?_cons, List.length_cons, Operand.bytes_length, Instr.length, and_self]

theorem adc (m : Operand) : Statement (.adc m) := of_opcode _
theorem sbc (m : Operand) : Statement (.sbc m) := of_opcode _
theorem sbcEB (v : Byte) : Statement (.sbcEB v) := of_opcode _
theorem and (m : Operand) : Statement (.and m) := of_opcode _
theorem ora (m : Operand) : Statement (.ora m) := of_opcode _
theorem eor (m : Operand) : Statement (.eor m) := of_opcode _
theorem bit (m : Operand) : Statement (.bit m) := of_opcode _
theorem cmp (m : Operand) : Statement (.cmp m) := of_opcode _
theorem cpx (m : Operand) : Statement (.cpx m) := of_opcode _
theorem cpy (m : Operand) : Statement (.cpy m) := of_opcode _
theorem asl (m : Operand) : Statement (.asl m) := of_opcode _
theorem lsr (m : Operand) : Statement (.lsr m) := of_opcode _
theorem rol (m : Operand) : Statement (.rol m) := of_opcode _
theorem ror (m : Operand) : Statement (.ror m) := of_opcode _
theorem inc (m : Operand) : Statement (.inc m) := of_opcode _
theorem dec (m : Operand) : Statement (.dec m) := of_opcode _
theorem inx : Statement (.inx) := of_opcode _
theorem iny : Statement (.iny) := of_opcode _
theorem dex : Statement (.dex) := of_opcode _
theorem dey : Statement (.dey) := of_opcode _
theorem bpl (offset : Byte) : Statement (.bpl offset) := of_opcode _
theorem bmi (offset : Byte) : Statement (.bmi offset) := of_opcode _
theorem bvc (offset : Byte) : Statement (.bvc offset) := of_opcode _
theorem bvs (offset : Byte) : Statement (.bvs offset) := of_opcode _
theorem bcc (offset : Byte) : Statement (.bcc offset) := of_opcode _
theorem bcs (offset : Byte) : Statement (.bcs offset) := of_opcode _
theorem bne (offset : Byte) : Statement (.bne offset) := of_opcode _
theorem beq (offset : Byte) : Statement (.beq offset) := of_opcode _
theorem jmp (m : Operand) : Statement (.jmp m) := of_opcode _
theorem pha : Statement (.pha) := of_opcode _
theorem php : Statement (.php) := of_opcode _
theorem pla : Statement (.pla) := of_opcode _
theorem plp : Statement (.plp) := of_opcode _
theorem jsr (target : Word) : Statement (.jsr target) := of_opcode _
theorem rts : Statement (.rts) := of_opcode _
theorem rti : Statement (.rti) := of_opcode _
theorem brk : Statement (.brk) := of_opcode _
theorem tax : Statement (.tax) := of_opcode _
theorem tay : Statement (.tay) := of_opcode _
theorem txa : Statement (.txa) := of_opcode _
theorem tya : Statement (.tya) := of_opcode _
theorem tsx : Statement (.tsx) := of_opcode _
theorem txs : Statement (.txs) := of_opcode _
theorem sec : Statement (.sec) := of_opcode _
theorem clc : Statement (.clc) := of_opcode _
theorem sed : Statement (.sed) := of_opcode _
theorem cld : Statement (.cld) := of_opcode _
theorem sei : Statement (.sei) := of_opcode _
theorem cli : Statement (.cli) := of_opcode _
theorem clv : Statement (.clv) := of_opcode _
theorem lax (m : Operand) : Statement (.lax m) := of_opcode _
theorem sax (m : Operand) : Statement (.sax m) := of_opcode _
theorem dcp (m : Operand) : Statement (.dcp m) := of_opcode _
theorem isc (m : Operand) : Statement (.isc m) := of_opcode _
theorem slo (m : Operand) : Statement (.slo m) := of_opcode _
theorem rla (m : Operand) : Statement (.rla m) := of_opcode _
theorem sre (m : Operand) : Statement (.sre m) := of_opcode _
theorem rra (m : Operand) : Statement (.rra m) := of_opcode _
theorem dop (op : Byte) (m : Operand) : Statement (.dop op m) := of_opcode _
theorem top (op : Byte) (m : Operand) : Statement (.top op m) := of_opcode _
theorem lda (m : Operand) : Statement (.lda m) := of_opcode _
theorem ldx (m : Operand) : Statement (.ldx m) := of_opcode _
theorem ldy (m : Operand) : Statement (.ldy m) := of_opcode _
theorem sta (m : Operand) : Statement (.sta m) := of_opcode _
theorem stx (m : Operand) : Statement (.stx m) := of_opcode _
theorem sty (m : Operand) : Statement (.sty m) := of_opcode _
theorem nop : Statement (.nop) := of_opcode _
theorem defaultNop (op : Byte) : Statement (.defaultNop op) := of_opcode _

end Sys2Proof.Laws.EncodedLength
end

