-- ==== Sys2Proof/Laws/Step.lean ====
section
/-! SUPPORT. What a step can do: the fetch in one form, and an inversion lemma for `step`. -/

namespace Sys2Proof

/-- The opcode map read forwards and the opcode lists read backwards agree, at every byte but 0xEB (R124). -/
theorem assemble_of_nat (cfg : Config) (n : Nat) (h : n < 256) (hn : n ≠ 0xEB) (b1 b2 : Byte) :
    (assemble cfg (BitVec.ofNat 8 n) b1 b2).opcode cfg = some (BitVec.ofNat 8 n) ∧
      (assemble cfg (BitVec.ofNat 8 n) b1 b2).length = lengthOf cfg (BitVec.ofNat 8 n) := by
  interval_cases n <;> first | exact ⟨rfl, rfl⟩ | exact absurd rfl hn

/-- The instruction made for an opcode byte has that opcode byte, and the length of the byte's mode (R123). -/
theorem assemble_opcode (cfg : Config) (op b1 b2 : Byte) :
    (assemble cfg op b1 b2).opcode cfg = some op ∧ (assemble cfg op b1 b2).length = lengthOf cfg op := by
  by_cases h : op.toNat = 0xEB
  · obtain rfl : op = 0xEB := BitVec.eq_of_toNat_eq h
    cases hc : cfg.ebIsSbc <;>
      simp [assemble, lengthOf, entryOf, hc, Instr.opcode, Instr.length, Instr.operand, noEntry, fixed, Operand.mode,
        opcodeMap, mapRowE, imm8]
  · have := assemble_of_nat cfg op.toNat op.isLt h b1 b2
    rwa [BitVec.ofNat_toNat, BitVec.setWidth_eq] at this

/-- So it is well formed. -/
theorem assemble_wf (cfg : Config) (op b1 b2 : Byte) : (assemble cfg op b1 b2).wf cfg = true :=
  wf_of_opcode (assemble_opcode cfg op b1 b2).1

end Sys2Proof

namespace Sys2Proof.Machine

/-- The fetch makes an instruction of the byte at PC, and changes the draw counter at most (R92, R151). -/
theorem fetchInstr_spec (cfg : Config) (s : State) :
    (fetchInstr cfg s).1.wf cfg = true ∧ (fetchInstr cfg s).1.opcode cfg = some (s.peek s.pc) ∧
      ∃ n, (fetchInstr cfg s).2 = s.setDraws n := by
  refine ⟨assemble_wf _ _ _ _, (assemble_opcode _ _ _ _).1, ?_⟩
  unfold fetchInstr
  simp only [memRead, afterRead_eq]
  split <;> split <;> exact ⟨_, rfl⟩

/-- `step` is the step at the default parameters (R9). -/
theorem step_eq_stepWith (s : State) : step s = stepWith hardware s := by
  unfold step stepWith
  exact congrArg (stepBy hardware · s) (funext fun i => funext fun u => exec_eq_execWith i u)

/-- Everything a step can do under any parameters: service the latched event, or run one well-formed instruction
(R150). -/
theorem stepWith_cases {cfg : Config} {s t : State} (h : stepWith cfg s = .next t) :
    s.session = .live ∧ s.romPages ≠ 0 ∧
      ((∃ e, s.pending = some e ∧ t = serviceEvent cfg e s) ∨
        (s.pending = none ∧ ∃ i n, i.wf cfg = true ∧ i.opcode cfg = some (s.peek s.pc) ∧
          t = operationOf cfg i (begun cfg i (s.setDraws n)))) := by
  unfold stepWith stepBy at h
  split at h
  · cases h
  · rename_i hs
    split at h
    · cases h
    · rename_i hp
      refine ⟨hs, hp, ?_⟩
      split at h
      · exact .inl ⟨_, ‹_›, by cases h; rfl⟩
      · obtain ⟨hwf, hop, n, hn⟩ := fetchInstr_spec cfg s
        rw [hn] at h
        exact .inr ⟨‹_›, _, n, hwf, hop, (execWith_next h).2⟩

/-- Everything a step can do: service the latched event, or run one well-formed instruction (R150). -/
theorem step_cases {s t : State} (h : step s = .next t) :
    s.session = .live ∧ s.romPages ≠ 0 ∧
      ((∃ e, s.pending = some e ∧ t = serviceEvent hardware e s) ∨
        (s.pending = none ∧ ∃ i n, i.wf hardware = true ∧ i.opcode hardware = some (s.peek s.pc) ∧
          t = operationOf hardware i (begun hardware i (s.setDraws n)))) :=
  stepWith_cases (step_eq_stepWith s ▸ h)

/-- A live machine with an image and nothing pending fetches and executes. -/
theorem stepWith_of_ready (cfg : Config) {s : State} (hr : Ready s) (hn : s.pending = none) :
    stepWith cfg s = execWith cfg (fetchInstr cfg s).1 (fetchInstr cfg s).2 := by
  simp [stepWith, stepBy, hr.1, hr.2, hn]

/-- A live machine with an image and an event pending services it. -/
theorem stepWith_of_pending (cfg : Config) {s : State} {e : Event} (hr : Ready s) (he : s.pending = some e) :
    stepWith cfg s = .next (serviceEvent cfg e s) := by
  simp [stepWith, stepBy, hr.1, hr.2, he]

/-- A live machine with an image and nothing pending fetches and executes. -/
theorem step_of_ready {s : State} (hr : Ready s) (hn : s.pending = none) :
    step s = exec (fetchInstr hardware s).1 (fetchInstr hardware s).2 := by
  simp [step, stepBy, hr.1, hr.2, hn]

/-- A live machine with an image and an event pending services it. -/
theorem step_of_pending {s : State} {e : Event} (hr : Ready s) (he : s.pending = some e) :
    step s = .next (serviceEvent hardware e s) := by
  simp [step, stepBy, hr.1, hr.2, he]

end Sys2Proof.Machine
end

