-- ==== Sys2Proof/Tests/Slice0.lean ====
section
/-! SUPPORT. The model's own tests: ill-formed terms refused, words of the spec decoded, the spec's test vectors
(95_test_vectors.md) run, and for each statement with hypotheses a witness that meets them. -/

namespace Sys2Proof.Tests

open Sys2Proof.Machine

/-! ## Ill-formed terms (one for each check of `Instr.wf`) -/

theorem test_wf_refuses_alu_modes :
    [Instr.adc .acc, .sbc (.zpy 1), .and .imp, .ora (.ind 1), .eor (.rel 1), .cmp .acc, .lda (.zpy 1)].any
      (·.wf hardware) = false := by decide

theorem test_wf_refuses_bit_and_index_compares :
    [Instr.bit (.imm 1), .cpx (.zpx 1), .cpy (.abx 1)].any (·.wf hardware) = false := by decide

theorem test_wf_refuses_shift_modes :
    [Instr.asl (.imm 1), .lsr (.aby 1), .rol (.izy 1), .ror .imp, .inc .acc, .dec (.aby 1)].any
      (·.wf hardware) = false := by decide

theorem test_wf_refuses_jump_modes : [Instr.jmp (.abx 1), .jmp (.imm 1)].any (·.wf hardware) = false := by decide

theorem test_wf_refuses_undocumented_modes :
    [Instr.lax (.imm 1), .sax (.abx 1), .dcp .acc, .isc (.imm 1), .slo .imp, .rla (.zpy 1), .sre (.ind 1), .rra .acc,
      .dop 0x80 (.zp 1), .dop 0x04 (.imm 1), .top 0x0C (.abx 1), .top 0x1A .imp].any (·.wf hardware) = false := by decide

theorem test_wf_refuses_load_and_store_modes :
    [Instr.ldx (.zpx 1), .ldy (.zpy 1), .sta (.imm 1), .stx (.abx 1), .sty (.aby 1)].any (·.wf hardware) = false := by
  decide

theorem test_wf_refuses_dispatched_bytes :
    [Instr.defaultNop 0xEA, .defaultNop 0xEB, .defaultNop 0x00].any (·.wf hardware) = false := by decide

theorem test_wf_follows_eb_is_sbc :
    (Instr.sbcEB 1).wf hardware = true ∧ (Instr.sbcEB 1).wf { hardware with ebIsSbc := false } = false ∧
      (Instr.defaultNop 0xEB).wf { hardware with ebIsSbc := false } = true := by decide

/-- A term that no byte encodes is refused by its meaning, and by no step. -/
theorem test_ill_formed_term_is_refused : exec (.sta (.imm 1)) State.reset = .refused .notAnInstruction := rfl

/-! ## Words written out from the encoding rules (R121, R124, and the opcode lines of 42_ to 48_) -/

/-- The bytes decode to the instruction, with nothing left. -/
def reads (bytes : List Byte) (i : Instr) : Bool :=
  match decode hardware bytes with
  | .ok (j, []) => j == i
  | .ok (_, _ :: _) => false
  | .error _ => false

theorem test_decode_arith_logic_compare :
    (reads [0x69, 0x05] (.adc (.imm 0x05)) &&
      reads [0xF1, 0x10] (.sbc (.izy 0x10)) &&
      reads [0xEB, 0x05] (.sbcEB 0x05) &&
      reads [0x35, 0x10] (.and (.zpx 0x10)) &&
      reads [0x19, 0x34, 0x12] (.ora (.aby 0x1234)) &&
      reads [0x41, 0x10] (.eor (.izx 0x10)) &&
      reads [0x2C, 0x34, 0x12] (.bit (.abs 0x1234)) &&
      reads [0xDD, 0x34, 0x12] (.cmp (.abx 0x1234)) &&
      reads [0xE4, 0x10] (.cpx (.zp 0x10)) &&
      reads [0xC0, 0x05] (.cpy (.imm 0x05))) = true := by decide

theorem test_decode_shift_incdec :
    (reads [0x0A] (.asl .acc) &&
      reads [0x5E, 0x34, 0x12] (.lsr (.abx 0x1234)) &&
      reads [0x26, 0x10] (.rol (.zp 0x10)) &&
      reads [0x76, 0x10] (.ror (.zpx 0x10)) &&
      reads [0xEE, 0x34, 0x12] (.inc (.abs 0x1234)) &&
      reads [0xC6, 0x10] (.dec (.zp 0x10)) &&
      reads [0xE8] (.inx) &&
      reads [0xC8] (.iny) &&
      reads [0xCA] (.dex) &&
      reads [0x88] (.dey)) = true := by decide

theorem test_decode_branch_jump :
    (reads [0x10, 0x0E] (.bpl 0x0E) &&
      reads [0x30, 0x0E] (.bmi 0x0E) &&
      reads [0x50, 0x0E] (.bvc 0x0E) &&
      reads [0x70, 0x0E] (.bvs 0x0E) &&
      reads [0x90, 0x0E] (.bcc 0x0E) &&
      reads [0xB0, 0x0E] (.bcs 0x0E) &&
      reads [0xD0, 0x0E] (.bne 0x0E) &&
      reads [0xF0, 0xFB] (.beq 0xFB) &&
      reads [0x4C, 0xF5, 0xC5] (.jmp (.abs 0xC5F5)) &&
      reads [0x6C, 0xFF, 0x02] (.jmp (.ind 0x02FF))) = true := by decide

theorem test_decode_stack_call_interrupt :
    (reads [0x48] (.pha) &&
      reads [0x08] (.php) &&
      reads [0x68] (.pla) &&
      reads [0x28] (.plp) &&
      reads [0x20, 0x10, 0x80] (.jsr 0x8010) &&
      reads [0x60] (.rts) &&
      reads [0x40] (.rti) &&
      reads [0x00] (.brk)) = true := by decide

theorem test_decode_transfer_flags :
    (reads [0xAA] (.tax) &&
      reads [0xA8] (.tay) &&
      reads [0x8A] (.txa) &&
      reads [0x98] (.tya) &&
      reads [0xBA] (.tsx) &&
      reads [0x9A] (.txs) &&
      reads [0x38] (.sec) &&
      reads [0x18] (.clc) &&
      reads [0xF8] (.sed) &&
      reads [0xD8] (.cld) &&
      reads [0x78] (.sei) &&
      reads [0x58] (.cli) &&
      reads [0xB8] (.clv)) = true := by decide

theorem test_decode_undocumented :
    (reads [0xB7, 0x10] (.lax (.zpy 0x10)) &&
      reads [0x83, 0x10] (.sax (.izx 0x10)) &&
      reads [0xCF, 0x34, 0x12] (.dcp (.abs 0x1234)) &&
      reads [0xF3, 0x10] (.isc (.izy 0x10)) &&
      reads [0x17, 0x10] (.slo (.zpx 0x10)) &&
      reads [0x3B, 0x34, 0x12] (.rla (.aby 0x1234)) &&
      reads [0x5F, 0x34, 0x12] (.sre (.abx 0x1234)) &&
      reads [0x67, 0x10] (.rra (.zp 0x10)) &&
      reads [0x89, 0x05] (.dop 0x89 (.imm 0x05)) &&
      reads [0xD4, 0x10] (.dop 0xD4 (.zpx 0x10)) &&
      reads [0xFC, 0x34, 0x12] (.top 0xFC (.abx 0x1234))) = true := by decide

theorem test_decode_load_store_nop :
    (reads [0xBD, 0xF0, 0x12] (.lda (.abx 0x12F0)) &&
      reads [0xB6, 0xF0] (.ldx (.zpy 0xF0)) &&
      reads [0xA0, 0x7F] (.ldy (.imm 0x7F)) &&
      reads [0x91, 0x10] (.sta (.izy 0x10)) &&
      reads [0x96, 0xFF] (.stx (.zpy 0xFF)) &&
      reads [0x94, 0x10] (.sty (.zpx 0x10)) &&
      reads [0xEA] (.nop) &&
      reads [0x02] (.defaultNop 0x02)) = true := by decide

/-- R120, R127: an empty string, or one cut before its operand bytes, does not decode, and the refusal says which. -/
theorem test_decode_names_its_refusals :
    decode hardware [] = .error .noOpcode ∧ decode hardware [0xA9] = .error .missingOperand ∧
      decode hardware [0xAD, 0x34] = .error .missingOperand := ⟨rfl, rfl, rfl⟩

/-- The table's bits: the second byte is bits 15 to 8, and the bits above `nbits` are 0. -/
theorem test_decode_table_word :
    decodeTableWord 8 0xAD = some (.lda (.abs 0x0000)) ∧ decodeTableWord 16 0x37A9 = some (.lda (.imm 0x37)) ∧
      decodeTableWord 24 0x1234AD = some (.lda (.abs 0x1234)) ∧ decodeTableWord 8 0x37A9 = some (.lda (.imm 0x00)) := by
  decide

/-- The word placed by `withFetchWord` is the first instruction after reset. -/
theorem test_with_fetch_word :
    step (State.reset.withFetchWord 8 0xAD) = exec (.lda (.abs 0)) (State.reset.withFetchWord 8 0xAD) ∧
      step (State.reset.withFetchWord 16 0x37A9) = exec (.lda (.imm 0x37)) (State.reset.withFetchWord 16 0x37A9) :=
  ⟨rfl, rfl⟩

/-! ## The spec's test vectors -/

/-- A launch state (R464) over an image of 32 PRG-ROM pages, so that every cell of 0x8000-0xFFFF is its own. -/
def start (a x y sp p : Byte) (pc : Word) (mem : Memory) : State :=
  { State.reset with a := a, x := x, y := y, sp := sp, p := p, pc := pc, cyc := 0, mem := mem, romPages := 32 }

/-- After `n` steps the registers, CYC and the bytes at some addresses are as given. -/
def after (n : Nat) (s : State) (a x y sp p : Byte) (pc : Word) (cyc : Nat) (bytes : List (Word × Byte)) : Bool :=
  match core.run n s with
  | .next t => t.a == a && t.x == x && t.y == y && t.sp == sp && t.p == p && t.pc == pc && t.cyc == cyc
      && bytes.all (fun b => State.peek t b.1 == b.2)
  | .fault _ => false
  | .refused _ => false

/-! 42_arith_logic_compare.md -/

-- 95_test_vectors.md, AL2: ADC carry out, zero result
theorem test_adc_al2 : after 1
    (start 0xFF 0x00 0x00 0xFD 0x24 0x8000 [(0x8000, 0x69), (0x8001, 0x01)])
    0x00 0x00 0x00 0xFD 0x27 0x8002 2
    [] = true := by decide

-- 95_test_vectors.md, AL5: ADC with D=1 is binary (0x09+0x09=0x12)
theorem test_adc_al5 : after 1
    (start 0x09 0x00 0x00 0xFD 0x2C 0x8000 [(0x8000, 0x69), (0x8001, 0x09)])
    0x12 0x00 0x00 0xFD 0x2C 0x8002 2
    [] = true := by decide

-- 95_test_vectors.md, AL6: SBC borrow: 0x00-0x01
theorem test_sbc_al6 : after 1
    (start 0x00 0x00 0x00 0xFD 0x25 0x8000 [(0x8000, 0xE9), (0x8001, 0x01)])
    0xFF 0x00 0x00 0xFD 0xA4 0x8002 2
    [] = true := by decide

-- 95_test_vectors.md, AL8: SBC with C=0 subtracts one more
theorem test_sbc_al8 : after 1
    (start 0x7F 0x00 0x00 0xFD 0x24 0x8000 [(0x8000, 0xE9), (0x8001, 0x7F)])
    0xFF 0x00 0x00 0xFD 0xA4 0x8002 2
    [] = true := by decide

-- 95_test_vectors.md, UD30: SBC 0xEB
theorem test_sbc_ud30 : after 1
    (start 0x05 0x00 0x00 0xFD 0x25 0x8000 [(0x8000, 0xEB), (0x8001, 0x03)])
    0x02 0x00 0x00 0xFD 0x25 0x8002 2
    [] = true := by decide

-- 95_test_vectors.md, UD31: SBC 0xEB with borrow out
theorem test_sbc_ud31 : after 1
    (start 0x02 0x00 0x00 0xFD 0x25 0x8000 [(0x8000, 0xEB), (0x8001, 0x03)])
    0xFF 0x00 0x00 0xFD 0xA4 0x8002 2
    [] = true := by decide

-- 95_test_vectors.md, AL10: AND to zero
theorem test_and_al10 : after 1
    (start 0xF0 0x00 0x00 0xFD 0x24 0x8000 [(0x8000, 0x29), (0x8001, 0x0F)])
    0x00 0x00 0x00 0xFD 0x26 0x8002 2
    [] = true := by decide

-- 95_test_vectors.md, AL11: ORA sets N
theorem test_ora_al11 : after 1
    (start 0x01 0x00 0x00 0xFD 0x24 0x8000 [(0x8000, 0x09), (0x8001, 0x80)])
    0x81 0x00 0x00 0xFD 0xA4 0x8002 2
    [] = true := by decide

-- 95_test_vectors.md, AL12: EOR to zero
theorem test_eor_al12 : after 1
    (start 0xFF 0x00 0x00 0xFD 0x24 0x8000 [(0x8000, 0x49), (0x8001, 0xFF)])
    0x00 0x00 0x00 0xFD 0x26 0x8002 2
    [] = true := by decide

-- 95_test_vectors.md, AL13: BIT: N, V from M; Z from A&M
theorem test_bit_al13 : after 1
    (start 0x01 0x00 0x00 0xFD 0x24 0x8000 [(0x0010, 0xC0), (0x8000, 0x24), (0x8001, 0x10)])
    0x01 0x00 0x00 0xFD 0xE6 0x8002 3
    [] = true := by decide

-- 95_test_vectors.md, AL14: BIT abs clears N, keeps A
theorem test_bit_al14 : after 1
    (start 0x40 0x00 0x00 0xFD 0xE6 0x8000 [(0x0200, 0x40), (0x8000, 0x2C), (0x8002, 0x02)])
    0x40 0x00 0x00 0xFD 0x64 0x8003 4
    [] = true := by decide

-- 95_test_vectors.md, AL16: CMP less
theorem test_cmp_al16 : after 1
    (start 0x40 0x00 0x00 0xFD 0x24 0x8000 [(0x8000, 0xC9), (0x8001, 0x41)])
    0x40 0x00 0x00 0xFD 0xA4 0x8002 2
    [] = true := by decide

-- 95_test_vectors.md, AL17: CMP unsigned greater, negative difference bit
theorem test_cmp_al17 : after 1
    (start 0x80 0x00 0x00 0xFD 0x24 0x8000 [(0x8000, 0xC9)])
    0x80 0x00 0x00 0xFD 0xA5 0x8002 2
    [] = true := by decide

-- 95_test_vectors.md, AL18: CPX less
theorem test_cpx_al18 : after 1
    (start 0x00 0x05 0x00 0xFD 0x24 0x8000 [(0x8000, 0xE0), (0x8001, 0x10)])
    0x00 0x05 0x00 0xFD 0xA4 0x8002 2
    [] = true := by decide

-- 95_test_vectors.md, AL19: CPY equal at 0xFF
theorem test_cpy_al19 : after 1
    (start 0x00 0x00 0xFF 0xFD 0x24 0x8000 [(0x8000, 0xC0), (0x8001, 0xFF)])
    0x00 0x00 0xFF 0xFD 0x27 0x8002 2
    [] = true := by decide

/-! 43_shift_incdec.md -/

-- 95_test_vectors.md, SH1: ASL A
theorem test_asl_sh1 : after 1
    (start 0x81 0x00 0x00 0xFD 0x24 0x8000 [(0x8000, 0x0A)])
    0x02 0x00 0x00 0xFD 0x25 0x8001 2
    [] = true := by decide

-- 95_test_vectors.md, SH3: ASL zp
theorem test_asl_sh3 : after 1
    (start 0x00 0x00 0x00 0xFD 0x24 0x8000 [(0x0010, 0x40), (0x8000, 0x06), (0x8001, 0x10)])
    0x00 0x00 0x00 0xFD 0xA4 0x8002 5
    [(0x0010, 0x80)] = true := by decide

-- 95_test_vectors.md, SH4: LSR A to zero
theorem test_lsr_sh4 : after 1
    (start 0x01 0x00 0x00 0xFD 0x24 0x8000 [(0x8000, 0x4A)])
    0x00 0x00 0x00 0xFD 0x27 0x8001 2
    [] = true := by decide

-- 95_test_vectors.md, SH5: LSR abs
theorem test_lsr_sh5 : after 1
    (start 0x00 0x00 0x00 0xFD 0x24 0x8000 [(0x0200, 0xFF), (0x8000, 0x4E), (0x8002, 0x02)])
    0x00 0x00 0x00 0xFD 0x25 0x8003 6
    [(0x0200, 0x7F)] = true := by decide

-- 95_test_vectors.md, SH6: ROL A feeds carry in
theorem test_rol_sh6 : after 1
    (start 0x80 0x00 0x00 0xFD 0x25 0x8000 [(0x8000, 0x2A)])
    0x01 0x00 0x00 0xFD 0x25 0x8001 2
    [] = true := by decide

-- 95_test_vectors.md, SH7: ROL zp,X wraps in page 0
theorem test_rol_sh7 : after 1
    (start 0x00 0x02 0x00 0xFD 0x25 0x8000 [(0x0001, 0x7F), (0x8000, 0x36), (0x8001, 0xFF)])
    0x00 0x02 0x00 0xFD 0xA4 0x8002 6
    [(0x0001, 0xFF)] = true := by decide

-- 95_test_vectors.md, SH8: ROR A to zero
theorem test_ror_sh8 : after 1
    (start 0x01 0x00 0x00 0xFD 0x24 0x8000 [(0x8000, 0x6A)])
    0x00 0x00 0x00 0xFD 0x27 0x8001 2
    [] = true := by decide

-- 95_test_vectors.md, SH10: ROR abs,X crossing, no penalty
theorem test_ror_sh10 : after 1
    (start 0x00 0x01 0x00 0xFD 0x25 0x8000 [(0x0300, 0x02), (0x8000, 0x7E), (0x8001, 0xFF), (0x8002, 0x02)])
    0x00 0x01 0x00 0xFD 0xA4 0x8003 7
    [(0x0300, 0x81)] = true := by decide

-- 95_test_vectors.md, AM17: RMW class: INC abs,X crossing, no penalty
theorem test_inc_am17 : after 1
    (start 0x00 0x01 0x00 0xFD 0x24 0x8000 [(0x0300, 0x7F), (0x8000, 0xFE), (0x8001, 0xFF), (0x8002, 0x02)])
    0x00 0x01 0x00 0xFD 0xA4 0x8003 7
    [(0x0300, 0x80)] = true := by decide

-- 95_test_vectors.md, SH11: INC zp wraps 0xFF to 0x00, C unchanged
theorem test_inc_sh11 : after 1
    (start 0x00 0x00 0x00 0xFD 0x24 0x8000 [(0x0010, 0xFF), (0x8000, 0xE6), (0x8001, 0x10)])
    0x00 0x00 0x00 0xFD 0x26 0x8002 5
    [(0x0010, 0x00)] = true := by decide

-- 95_test_vectors.md, SH12: DEC zp wraps 0x00 to 0xFF
theorem test_dec_sh12 : after 1
    (start 0x00 0x00 0x00 0xFD 0x24 0x8000 [(0x8000, 0xC6), (0x8001, 0x10)])
    0x00 0x00 0x00 0xFD 0xA4 0x8002 5
    [(0x0010, 0xFF)] = true := by decide

-- 95_test_vectors.md, SH13: DEC zp to zero
theorem test_dec_sh13 : after 1
    (start 0x00 0x00 0x00 0xFD 0x24 0x8000 [(0x0010, 0x01), (0x8000, 0xC6), (0x8001, 0x10)])
    0x00 0x00 0x00 0xFD 0x26 0x8002 5
    [(0x0010, 0x00)] = true := by decide

-- 95_test_vectors.md, SH14: INX wraps, keeps C
theorem test_inx_sh14 : after 1
    (start 0x00 0xFF 0x00 0xFD 0x25 0x8000 [(0x8000, 0xE8)])
    0x00 0x00 0x00 0xFD 0x27 0x8001 2
    [] = true := by decide

-- 95_test_vectors.md, SH15: INY to 0x80
theorem test_iny_sh15 : after 1
    (start 0x00 0x00 0x7F 0xFD 0x24 0x8000 [(0x8000, 0xC8)])
    0x00 0x00 0x80 0xFD 0xA4 0x8001 2
    [] = true := by decide

-- 95_test_vectors.md, SH16: DEX wraps
theorem test_dex_sh16 : after 1
    (start 0x00 0x00 0x00 0xFD 0x24 0x8000 [(0x8000, 0xCA)])
    0x00 0xFF 0x00 0xFD 0xA4 0x8001 2
    [] = true := by decide

-- 95_test_vectors.md, SH17: DEY to zero
theorem test_dey_sh17 : after 1
    (start 0x00 0x00 0x01 0xFD 0x24 0x8000 [(0x8000, 0x88)])
    0x00 0x00 0x00 0xFD 0x26 0x8001 2
    [] = true := by decide

/-! 44_branch_jump.md -/

-- 95_test_vectors.md, BR8: BPL taken
theorem test_bpl_br8 : after 1
    (start 0x00 0x00 0x00 0xFD 0x24 0x8000 [(0x8000, 0x10), (0x8001, 0x02)])
    0x00 0x00 0x00 0xFD 0x24 0x8004 3
    [] = true := by decide

-- 95_test_vectors.md, BR12: BPL target wraps past 0xFFFF
theorem test_bpl_br12 : after 1
    (start 0x00 0x00 0x00 0xFD 0x24 0xFFF0 [(0xFFF0, 0x10), (0xFFF1, 0x7F)])
    0x00 0x00 0x00 0xFD 0x24 0x0071 4
    [] = true := by decide

-- 95_test_vectors.md, BR9: BMI taken
theorem test_bmi_br9 : after 1
    (start 0x00 0x00 0x00 0xFD 0xA4 0x8000 [(0x8000, 0x30), (0x8001, 0x02)])
    0x00 0x00 0x00 0xFD 0xA4 0x8004 3
    [] = true := by decide

-- 95_test_vectors.md, BR10: BVC taken
theorem test_bvc_br10 : after 1
    (start 0x00 0x00 0x00 0xFD 0x24 0x8000 [(0x8000, 0x50), (0x8001, 0x02)])
    0x00 0x00 0x00 0xFD 0x24 0x8004 3
    [] = true := by decide

-- 95_test_vectors.md, BR11: BVS taken
theorem test_bvs_br11 : after 1
    (start 0x00 0x00 0x00 0xFD 0x64 0x8000 [(0x8000, 0x70), (0x8001, 0x02)])
    0x00 0x00 0x00 0xFD 0x64 0x8004 3
    [] = true := by decide

-- 95_test_vectors.md, BR5: BCC taken
theorem test_bcc_br5 : after 1
    (start 0x00 0x00 0x00 0xFD 0x24 0x8000 [(0x8000, 0x90), (0x8001, 0x02)])
    0x00 0x00 0x00 0xFD 0x24 0x8004 3
    [] = true := by decide

-- 95_test_vectors.md, BR6: BCS not taken
theorem test_bcs_br6 : after 1
    (start 0x00 0x00 0x00 0xFD 0x24 0x8000 [(0x8000, 0xB0), (0x8001, 0x02)])
    0x00 0x00 0x00 0xFD 0x24 0x8002 2
    [] = true := by decide

-- 95_test_vectors.md, BR7: BCS taken
theorem test_bcs_br7 : after 1
    (start 0x00 0x00 0x00 0xFD 0x25 0x8000 [(0x8000, 0xB0), (0x8001, 0x02)])
    0x00 0x00 0x00 0xFD 0x25 0x8004 3
    [] = true := by decide

-- 95_test_vectors.md, AM15: Relative, backward across a page
theorem test_bne_am15 : after 1
    (start 0x00 0x00 0x00 0xFD 0x24 0x8000 [(0x8000, 0xD0), (0x8001, 0xFC)])
    0x00 0x00 0x00 0xFD 0x24 0x7FFE 4
    [] = true := by decide

-- 95_test_vectors.md, BR4: BNE taken, offset 0x80 = -128, across a page
theorem test_bne_br4 : after 1
    (start 0x00 0x00 0x00 0xFD 0x24 0x8010 [(0x8010, 0xD0), (0x8011, 0x80)])
    0x00 0x00 0x00 0xFD 0x24 0x7F92 4
    [] = true := by decide

-- 95_test_vectors.md, BR1: BEQ not taken
theorem test_beq_br1 : after 1
    (start 0x00 0x00 0x00 0xFD 0x24 0x8000 [(0x8000, 0xF0), (0x8001, 0x10)])
    0x00 0x00 0x00 0xFD 0x24 0x8002 2
    [] = true := by decide

-- 95_test_vectors.md, BR2: BEQ taken, same page
theorem test_beq_br2 : after 1
    (start 0x00 0x00 0x00 0xFD 0x26 0x8000 [(0x8000, 0xF0), (0x8001, 0x10)])
    0x00 0x00 0x00 0xFD 0x26 0x8012 3
    [] = true := by decide

-- 95_test_vectors.md, AM14: (abs) for JMP at a page end: high byte from 0x0200, not 0x0300
theorem test_jmp_am14 : after 1
    (start 0x00 0x00 0x00 0xFD 0x24 0x8000 [(0x0200, 0x12), (0x02FF, 0x34), (0x0300, 0x56), (0x8000, 0x6C), (0x8001, 0xFF), (0x8002, 0x02)])
    0x00 0x00 0x00 0xFD 0x24 0x1234 5
    [] = true := by decide

-- 95_test_vectors.md, BR15: JMP indirect, page-end pointer
theorem test_jmp_br15 : after 1
    (start 0x00 0x00 0x00 0xFD 0x24 0x8000 [(0x0200, 0x12), (0x02FF, 0x34), (0x0300, 0x56), (0x8000, 0x6C), (0x8001, 0xFF), (0x8002, 0x02)])
    0x00 0x00 0x00 0xFD 0x24 0x1234 5
    [] = true := by decide

/-! 45_stack_call_interrupt.md -/

-- 95_test_vectors.md, ST1: PHA
theorem test_pha_st1 : after 1
    (start 0x42 0x00 0x00 0xFD 0x24 0x8000 [(0x8000, 0x48)])
    0x42 0x00 0x00 0xFC 0x24 0x8001 3
    [(0x01FD, 0x42)] = true := by decide

-- 95_test_vectors.md, ST2: PHA at S=0x00 wraps
theorem test_pha_st2 : after 1
    (start 0x42 0x00 0x00 0x00 0x24 0x8000 [(0x8000, 0x48)])
    0x42 0x00 0x00 0xFF 0x24 0x8001 3
    [(0x0100, 0x42)] = true := by decide

-- 95_test_vectors.md, ST3: PHP pushes B=1, R=1
theorem test_php_st3 : after 1
    (start 0x00 0x00 0x00 0xFD 0x24 0x8000 [(0x8000, 0x08)])
    0x00 0x00 0x00 0xFC 0x24 0x8001 3
    [(0x01FD, 0x34)] = true := by decide

-- 95_test_vectors.md, ST4: PHP of 0xC3
theorem test_php_st4 : after 1
    (start 0x00 0x00 0x00 0xFD 0xC3 0x8000 [(0x8000, 0x08)])
    0x00 0x00 0x00 0xFC 0xC3 0x8001 3
    [(0x01FD, 0xF3)] = true := by decide

-- 95_test_vectors.md, ST5: PLA sets N
theorem test_pla_st5 : after 1
    (start 0x00 0x00 0x00 0xFC 0x24 0x8000 [(0x01FD, 0x80), (0x8000, 0x68)])
    0x80 0x00 0x00 0xFD 0xA4 0x8001 4
    [] = true := by decide

-- 95_test_vectors.md, ST7: PLA at S=0xFF reads 0x0100
theorem test_pla_st7 : after 1
    (start 0x00 0x00 0x00 0xFF 0x24 0x8000 [(0x0100, 0x01), (0x8000, 0x68)])
    0x01 0x00 0x00 0x00 0x24 0x8001 4
    [] = true := by decide

-- 95_test_vectors.md, ST8: PLP of 0xFF: B cleared
theorem test_plp_st8 : after 1
    (start 0x00 0x00 0x00 0xFC 0x24 0x8000 [(0x01FD, 0xFF), (0x8000, 0x28)])
    0x00 0x00 0x00 0xFD 0xEF 0x8001 4
    [] = true := by decide

-- 95_test_vectors.md, ST9: PLP of 0x00: R forced
theorem test_plp_st9 : after 1
    (start 0x00 0x00 0x00 0xFC 0x24 0x8000 [(0x8000, 0x28)])
    0x00 0x00 0x00 0xFD 0x20 0x8001 4
    [] = true := by decide

-- 95_test_vectors.md, ST10: JSR pushes address of its last byte
theorem test_jsr_st10 : after 1
    (start 0x00 0x00 0x00 0xFD 0x24 0x8000 [(0x8000, 0x20), (0x8002, 0x90)])
    0x00 0x00 0x00 0xFB 0x24 0x9000 6
    [(0x01FD, 0x80), (0x01FC, 0x02)] = true := by decide

-- 95_test_vectors.md, ST11: RTS adds 1
theorem test_rts_st11 : after 1
    (start 0x00 0x00 0x00 0xFB 0x24 0x8000 [(0x01FC, 0x02), (0x01FD, 0x80), (0x8000, 0x60)])
    0x00 0x00 0x00 0xFD 0x24 0x8003 6
    [] = true := by decide

-- 95_test_vectors.md, ST12: RTS of 0xFFFF wraps to 0x0000
theorem test_rts_st12 : after 1
    (start 0x00 0x00 0x00 0xFB 0x24 0x8000 [(0x01FC, 0xFF), (0x01FD, 0xFF), (0x8000, 0x60)])
    0x00 0x00 0x00 0xFD 0x24 0x0000 6
    [] = true := by decide

-- 95_test_vectors.md, ST13: RTI, no +1
theorem test_rti_st13 : after 1
    (start 0x00 0x00 0x00 0xFA 0x24 0x8000 [(0x01FB, 0xA1), (0x01FC, 0x34), (0x01FD, 0x12), (0x8000, 0x40)])
    0x00 0x00 0x00 0xFD 0xA1 0x1234 6
    [] = true := by decide

-- 95_test_vectors.md, ST14: RTI of a BRK frame clears B
theorem test_rti_st14 : after 1
    (start 0x00 0x00 0x00 0xFA 0x24 0x8000 [(0x01FB, 0x10), (0x01FD, 0x80), (0x8000, 0x40)])
    0x00 0x00 0x00 0xFD 0x20 0x8000 6
    [] = true := by decide

-- 95_test_vectors.md, ST15: BRK with D=1: pushed P keeps D, P clears it
theorem test_brk_st15 : after 1
    (start 0x00 0x00 0x00 0xFD 0x2C 0x8000 [(0x8001, 0xEA), (0xFFFF, 0x90)])
    0x00 0x00 0x00 0xFA 0x34 0x9000 7
    [(0x01FD, 0x80), (0x01FC, 0x02), (0x01FB, 0x3C)] = true := by decide

-- 95_test_vectors.md, ST16: BRK at S=0x01: frame wraps
theorem test_brk_st16 : after 1
    (start 0x00 0x00 0x00 0x01 0x24 0x8000 [(0x8001, 0xEA), (0xFFFF, 0x90)])
    0x00 0x00 0x00 0xFE 0x34 0x9000 7
    [(0x0101, 0x80), (0x0100, 0x02), (0x01FF, 0x34)] = true := by decide

/-! 46_transfer_flags.md -/

-- 95_test_vectors.md, TR1: TAX negative
theorem test_tax_tr1 : after 1
    (start 0x80 0x00 0x00 0xFD 0x24 0x8000 [(0x8000, 0xAA)])
    0x80 0x80 0x00 0xFD 0xA4 0x8001 2
    [] = true := by decide

-- 95_test_vectors.md, TR2: TAX zero
theorem test_tax_tr2 : after 1
    (start 0x00 0x55 0x00 0xFD 0x24 0x8000 [(0x8000, 0xAA)])
    0x00 0x00 0x00 0xFD 0x26 0x8001 2
    [] = true := by decide

-- 95_test_vectors.md, TR3: TAY
theorem test_tay_tr3 : after 1
    (start 0x7F 0x00 0x00 0xFD 0x24 0x8000 [(0x8000, 0xA8)])
    0x7F 0x00 0x7F 0xFD 0x24 0x8001 2
    [] = true := by decide

-- 95_test_vectors.md, TR4: TXA zero
theorem test_txa_tr4 : after 1
    (start 0x12 0x00 0x00 0xFD 0x24 0x8000 [(0x8000, 0x8A)])
    0x00 0x00 0x00 0xFD 0x26 0x8001 2
    [] = true := by decide

-- 95_test_vectors.md, TR5: TYA negative
theorem test_tya_tr5 : after 1
    (start 0x00 0x00 0xFF 0xFD 0x24 0x8000 [(0x8000, 0x98)])
    0xFF 0x00 0xFF 0xFD 0xA4 0x8001 2
    [] = true := by decide

-- 95_test_vectors.md, TR6: TSX
theorem test_tsx_tr6 : after 1
    (start 0x00 0x00 0x00 0xFD 0x24 0x8000 [(0x8000, 0xBA)])
    0x00 0xFD 0x00 0xFD 0xA4 0x8001 2
    [] = true := by decide

-- 95_test_vectors.md, TR7: TSX of 0x00
theorem test_tsx_tr7 : after 1
    (start 0x00 0x00 0x00 0x00 0x24 0x8000 [(0x8000, 0xBA)])
    0x00 0x00 0x00 0x00 0x26 0x8001 2
    [] = true := by decide

-- 95_test_vectors.md, TR8: TXS of 0x00 sets no flag
theorem test_txs_tr8 : after 1
    (start 0x00 0x00 0x00 0xFD 0x24 0x8000 [(0x8000, 0x9A)])
    0x00 0x00 0x00 0x00 0x24 0x8001 2
    [] = true := by decide

-- 95_test_vectors.md, TR9: SEC
theorem test_sec_tr9 : after 1
    (start 0x00 0x00 0x00 0xFD 0x24 0x8000 [(0x8000, 0x38)])
    0x00 0x00 0x00 0xFD 0x25 0x8001 2
    [] = true := by decide

-- 95_test_vectors.md, TR10: CLC
theorem test_clc_tr10 : after 1
    (start 0x00 0x00 0x00 0xFD 0x25 0x8000 [(0x8000, 0x18)])
    0x00 0x00 0x00 0xFD 0x24 0x8001 2
    [] = true := by decide

-- 95_test_vectors.md, TR11: SED
theorem test_sed_tr11 : after 1
    (start 0x00 0x00 0x00 0xFD 0x24 0x8000 [(0x8000, 0xF8)])
    0x00 0x00 0x00 0xFD 0x2C 0x8001 2
    [] = true := by decide

-- 95_test_vectors.md, TR12: CLD
theorem test_cld_tr12 : after 1
    (start 0x00 0x00 0x00 0xFD 0x2C 0x8000 [(0x8000, 0xD8)])
    0x00 0x00 0x00 0xFD 0x24 0x8001 2
    [] = true := by decide

-- 95_test_vectors.md, TR13: SEI
theorem test_sei_tr13 : after 1
    (start 0x00 0x00 0x00 0xFD 0x20 0x8000 [(0x8000, 0x78)])
    0x00 0x00 0x00 0xFD 0x24 0x8001 2
    [] = true := by decide

-- 95_test_vectors.md, TR14: CLI
theorem test_cli_tr14 : after 1
    (start 0x00 0x00 0x00 0xFD 0x24 0x8000 [(0x8000, 0x58)])
    0x00 0x00 0x00 0xFD 0x20 0x8001 2
    [] = true := by decide

-- 95_test_vectors.md, TR15: CLV
theorem test_clv_tr15 : after 1
    (start 0x00 0x00 0x00 0xFD 0x64 0x8000 [(0x8000, 0xB8)])
    0x00 0x00 0x00 0xFD 0x24 0x8001 2
    [] = true := by decide

/-! 47_undocumented.md -/

-- 95_test_vectors.md, UD2: LAX zero
theorem test_lax_ud2 : after 1
    (start 0x05 0x06 0x00 0xFD 0x24 0x8000 [(0x8000, 0xA7), (0x8001, 0x10)])
    0x00 0x00 0x00 0xFD 0x26 0x8002 3
    [] = true := by decide

-- 95_test_vectors.md, UD5: LAX abs,Y crossing: +1
theorem test_lax_ud5 : after 1
    (start 0x00 0x00 0x10 0xFD 0x24 0x8000 [(0x0308, 0x44), (0x8000, 0xBF), (0x8001, 0xF8), (0x8002, 0x02)])
    0x44 0x44 0x10 0xFD 0x24 0x8003 5
    [] = true := by decide

-- 95_test_vectors.md, UD6: SAX zp
theorem test_sax_ud6 : after 1
    (start 0xF0 0x3C 0x00 0xFD 0x24 0x8000 [(0x8000, 0x87), (0x8001, 0x10)])
    0xF0 0x3C 0x00 0xFD 0x24 0x8002 3
    [(0x0010, 0x30)] = true := by decide

-- 95_test_vectors.md, UD8: SAX of zero sets no flag
theorem test_sax_ud8 : after 1
    (start 0xF0 0x0F 0x00 0xFD 0x24 0x8000 [(0x8000, 0x8F), (0x8002, 0x02)])
    0xF0 0x0F 0x00 0xFD 0x24 0x8003 4
    [(0x0200, 0x00)] = true := by decide

-- 95_test_vectors.md, UD10: DCP of 0x00 with A=0xFF
theorem test_dcp_ud10 : after 1
    (start 0xFF 0x00 0x00 0xFD 0x24 0x8000 [(0x8000, 0xC7), (0x8001, 0x10)])
    0xFF 0x00 0x00 0xFD 0x27 0x8002 5
    [(0x0010, 0xFF)] = true := by decide

-- 95_test_vectors.md, UD11: DCP abs,Y crossing: no penalty
theorem test_dcp_ud11 : after 1
    (start 0x00 0x00 0x01 0xFD 0x24 0x8000 [(0x0300, 0x01), (0x8000, 0xDB), (0x8001, 0xFF), (0x8002, 0x02)])
    0x00 0x00 0x01 0xFD 0x27 0x8003 7
    [(0x0300, 0x00)] = true := by decide

-- 95_test_vectors.md, UD13: ISC of 0xFF with C=0
theorem test_isc_ud13 : after 1
    (start 0x20 0x00 0x00 0xFD 0x24 0x8000 [(0x0010, 0xFF), (0x8000, 0xE7), (0x8001, 0x10)])
    0x1F 0x00 0x00 0xFD 0x25 0x8002 5
    [(0x0010, 0x00)] = true := by decide

-- 95_test_vectors.md, UD14: ISC overflow
theorem test_isc_ud14 : after 1
    (start 0x80 0x00 0x00 0xFD 0x25 0x8000 [(0x8000, 0xEF), (0x8002, 0x02)])
    0x7F 0x00 0x00 0xFD 0x65 0x8003 6
    [(0x0200, 0x01)] = true := by decide

-- 95_test_vectors.md, UD15: SLO
theorem test_slo_ud15 : after 1
    (start 0x01 0x00 0x00 0xFD 0x24 0x8000 [(0x0010, 0x81), (0x8000, 0x07), (0x8001, 0x10)])
    0x03 0x00 0x00 0xFD 0x25 0x8002 5
    [(0x0010, 0x02)] = true := by decide

-- 95_test_vectors.md, UD16: SLO of 0x80
theorem test_slo_ud16 : after 1
    (start 0x00 0x00 0x00 0xFD 0x24 0x8000 [(0x0010, 0x80), (0x8000, 0x07), (0x8001, 0x10)])
    0x00 0x00 0x00 0xFD 0x27 0x8002 5
    [(0x0010, 0x00)] = true := by decide

-- 95_test_vectors.md, UD17: RLA
theorem test_rla_ud17 : after 1
    (start 0xFF 0x00 0x00 0xFD 0x24 0x8000 [(0x0010, 0x81), (0x8000, 0x27), (0x8001, 0x10)])
    0x02 0x00 0x00 0xFD 0x25 0x8002 5
    [(0x0010, 0x02)] = true := by decide

-- 95_test_vectors.md, UD18: RLA with carry-in
theorem test_rla_ud18 : after 1
    (start 0xFF 0x00 0x00 0xFD 0x25 0x8000 [(0x0010, 0x40), (0x8000, 0x27), (0x8001, 0x10)])
    0x81 0x00 0x00 0xFD 0xA4 0x8002 5
    [(0x0010, 0x81)] = true := by decide

-- 95_test_vectors.md, UD19: SRE to zero
theorem test_sre_ud19 : after 1
    (start 0x01 0x00 0x00 0xFD 0x24 0x8000 [(0x0010, 0x03), (0x8000, 0x47), (0x8001, 0x10)])
    0x00 0x00 0x00 0xFD 0x27 0x8002 5
    [(0x0010, 0x01)] = true := by decide

-- 95_test_vectors.md, UD20: SRE N from A
theorem test_sre_ud20 : after 1
    (start 0x80 0x00 0x00 0xFD 0x24 0x8000 [(0x0010, 0x02), (0x8000, 0x47), (0x8001, 0x10)])
    0x81 0x00 0x00 0xFD 0xA4 0x8002 5
    [(0x0010, 0x01)] = true := by decide

-- 95_test_vectors.md, UD21: RRA: ADC uses ROR's carry
theorem test_rra_ud21 : after 1
    (start 0x10 0x00 0x00 0xFD 0x24 0x8000 [(0x0010, 0x03), (0x8000, 0x67), (0x8001, 0x10)])
    0x12 0x00 0x00 0xFD 0x24 0x8002 5
    [(0x0010, 0x01)] = true := by decide

-- 95_test_vectors.md, UD23: RRA carry-in goes to bit 7
theorem test_rra_ud23 : after 1
    (start 0x00 0x00 0x00 0xFD 0x25 0x8000 [(0x8000, 0x67), (0x8001, 0x10)])
    0x80 0x00 0x00 0xFD 0xA4 0x8002 5
    [(0x0010, 0x80)] = true := by decide

-- 95_test_vectors.md, UD24: DOP #
theorem test_dop_ud24 : after 1
    (start 0x00 0x00 0x00 0xFD 0x24 0x8000 [(0x8000, 0x80), (0x8001, 0x55)])
    0x00 0x00 0x00 0xFD 0x24 0x8002 2
    [] = true := by decide

-- 95_test_vectors.md, UD26: DOP zp,X
theorem test_dop_ud26 : after 1
    (start 0x00 0x01 0x00 0xFD 0x24 0x8000 [(0x8000, 0x14), (0x8001, 0x10)])
    0x00 0x01 0x00 0xFD 0x24 0x8002 4
    [] = true := by decide

-- 95_test_vectors.md, UD27: TOP abs
theorem test_top_ud27 : after 1
    (start 0x00 0x00 0x00 0xFD 0x24 0x8000 [(0x8000, 0x0C), (0x8002, 0x02)])
    0x00 0x00 0x00 0xFD 0x24 0x8003 4
    [] = true := by decide

-- 95_test_vectors.md, UD28: TOP abs,X no crossing
theorem test_top_ud28 : after 1
    (start 0x00 0x01 0x00 0xFD 0x24 0x8000 [(0x8000, 0x1C), (0x8002, 0x10)])
    0x00 0x01 0x00 0xFD 0x24 0x8003 4
    [] = true := by decide

/-! 48_load_store_nop.md and R155 -/

-- 95_test_vectors.md, AM8: Absolute,Y, 16-bit wrap at 0xFFFF counts as crossing
theorem test_lda_am8 : after 1
    (start 0x00 0x00 0x02 0xFD 0x24 0x8000 [(0x0001, 0x99), (0x8000, 0xB9), (0x8001, 0xFF), (0x8002, 0xFF)])
    0x99 0x00 0x02 0xFD 0xA4 0x8003 5
    [] = true := by decide

-- 95_test_vectors.md, AM11: (zp),Y, crossing: +1
theorem test_lda_am11 : after 1
    (start 0x00 0x00 0x01 0xFD 0x24 0x8000 [(0x0020, 0xFF), (0x0021, 0x04), (0x0500, 0x66), (0x8000, 0xB1), (0x8001, 0x20)])
    0x66 0x00 0x01 0xFD 0x24 0x8002 6
    [] = true := by decide

-- 95_test_vectors.md, AM4: Zero Page,Y wraps in page 0
theorem test_ldx_am4 : after 1
    (start 0x00 0x00 0x20 0xFD 0x24 0x8000 [(0x0010, 0x01), (0x8000, 0xB6), (0x8001, 0xF0)])
    0x00 0x01 0x20 0xFD 0x24 0x8002 4
    [] = true := by decide

-- 95_test_vectors.md, LS5: LDX abs,Y crossing to zero
theorem test_ldx_ls5 : after 1
    (start 0x00 0x00 0x01 0xFD 0x24 0x8000 [(0x8000, 0xBE), (0x8001, 0xFF), (0x8002, 0x02)])
    0x00 0x00 0x01 0xFD 0x26 0x8003 5
    [] = true := by decide

-- 95_test_vectors.md, LS6: LDY abs,X
theorem test_ldy_ls6 : after 1
    (start 0x00 0x05 0x00 0xFD 0x24 0x8000 [(0x0205, 0xFE), (0x8000, 0xBC), (0x8002, 0x02)])
    0x00 0x05 0xFE 0xFD 0xA4 0x8003 4
    [] = true := by decide

-- 95_test_vectors.md, LS7: LDY #
theorem test_ldy_ls7 : after 1
    (start 0x00 0x00 0x00 0xFD 0x24 0x8000 [(0x8000, 0xA0), (0x8001, 0x7F)])
    0x00 0x00 0x7F 0xFD 0x24 0x8002 2
    [] = true := by decide

-- 95_test_vectors.md, AM16: write class: STA abs,Y never pays the penalty
theorem test_sta_am16 : after 1
    (start 0x42 0x00 0x20 0xFD 0x24 0x8000 [(0x8000, 0x99), (0x8001, 0xF0)])
    0x42 0x00 0x20 0xFD 0x24 0x8003 5
    [(0x0110, 0x42)] = true := by decide

-- 95_test_vectors.md, LS9: STA abs,X crossing, no penalty
theorem test_sta_ls9 : after 1
    (start 0x42 0x01 0x00 0xFD 0x24 0x8000 [(0x8000, 0x9D), (0x8001, 0xFF), (0x8002, 0x02)])
    0x42 0x01 0x00 0xFD 0x24 0x8003 5
    [(0x0300, 0x42)] = true := by decide

-- 95_test_vectors.md, LS12: STX zp,Y wraps
theorem test_stx_ls12 : after 1
    (start 0x00 0x9A 0x02 0xFD 0x24 0x8000 [(0x8000, 0x96), (0x8001, 0xFF)])
    0x00 0x9A 0x02 0xFD 0x24 0x8002 4
    [(0x0001, 0x9A)] = true := by decide

-- 95_test_vectors.md, LS13: STX abs
theorem test_stx_ls13 : after 1
    (start 0x00 0x9A 0x00 0xFD 0x24 0x8000 [(0x8000, 0x8E), (0x8002, 0x06)])
    0x00 0x9A 0x00 0xFD 0x24 0x8003 4
    [(0x0600, 0x9A)] = true := by decide

-- 95_test_vectors.md, LS14: STY zp,X wraps
theorem test_sty_ls14 : after 1
    (start 0x00 0x02 0x9B 0xFD 0x24 0x8000 [(0x8000, 0x94), (0x8001, 0xFF)])
    0x00 0x02 0x9B 0xFD 0x24 0x8002 4
    [(0x0001, 0x9B)] = true := by decide

-- 95_test_vectors.md, LS15: STY abs
theorem test_sty_ls15 : after 1
    (start 0x00 0x00 0x9B 0xFD 0x24 0x8000 [(0x8000, 0x8C), (0x8002, 0x06)])
    0x00 0x00 0x9B 0xFD 0x24 0x8003 4
    [(0x0600, 0x9B)] = true := by decide

-- 95_test_vectors.md, LS16: NOP
theorem test_nop_ls16 : after 1
    (start 0x01 0x00 0x00 0xFD 0xE7 0x8000 [(0x8000, 0xEA)])
    0x01 0x00 0x00 0xFD 0xE7 0x8001 2
    [] = true := by decide

-- 95_test_vectors.md, NO1: 0x02 (KIL on NMOS) is a 1-byte no-op
theorem test_default_nop_no1 : after 1
    (start 0x01 0x00 0x00 0xFD 0xE7 0x8000 [(0x8000, 0x02)])
    0x01 0x00 0x00 0xFD 0xE7 0x8001 2
    [] = true := by decide

-- 95_test_vectors.md, NO2: 0x1A
theorem test_default_nop_no2 : after 1
    (start 0x00 0x00 0x00 0xFD 0x24 0x8000 [(0x8000, 0x1A)])
    0x00 0x00 0x00 0xFD 0x24 0x8001 2
    [] = true := by decide

/-! 60_exceptions.md -/

-- 95_test_vectors.md, EV1: Nmi entry
theorem test_event_ev1 : after 1
    (request .nmi (start 0x00 0x00 0x00 0xFD 0x24 0x8123 [(0x8123, 0xEA), (0xFFFB, 0xC0), (0xFFFD, 0x80), (0xFFFF, 0xD0)]))
    0x00 0x00 0x00 0xFA 0x24 0xC000 7
    [(0x01FD, 0x81), (0x01FC, 0x23), (0x01FB, 0x24)] = true := by decide

-- 95_test_vectors.md, EV2: Nmi with I=0, D=1: D cleared, I unchanged
theorem test_event_ev2 : after 1
    (request .nmi (start 0x00 0x00 0x00 0xFD 0x28 0x8123 [(0x8123, 0xEA), (0xFFFB, 0xC0), (0xFFFD, 0x80), (0xFFFF, 0xD0)]))
    0x00 0x00 0x00 0xFA 0x20 0xC000 7
    [(0x01FD, 0x81), (0x01FC, 0x23), (0x01FB, 0x28)] = true := by decide

-- 95_test_vectors.md, EV3: Irq entry
theorem test_event_ev3 : after 1
    (request .irq (start 0x00 0x00 0x00 0xFD 0xA0 0x8123 [(0x8123, 0xEA), (0xFFFB, 0xC0), (0xFFFD, 0x80), (0xFFFF, 0xD0)]))
    0x00 0x00 0x00 0xFA 0xA4 0xD000 7
    [(0x01FD, 0x81), (0x01FC, 0x23), (0x01FB, 0xA0)] = true := by decide

-- 95_test_vectors.md, EV4: Irq entry with D=1, C=1
theorem test_event_ev4 : after 1
    (request .irq (start 0x00 0x00 0x00 0xFD 0x29 0x8123 [(0x8123, 0xEA), (0xFFFB, 0xC0), (0xFFFD, 0x80), (0xFFFF, 0xD0)]))
    0x00 0x00 0x00 0xFA 0x25 0xD000 7
    [(0x01FD, 0x81), (0x01FC, 0x23), (0x01FB, 0x29)] = true := by decide

-- 95_test_vectors.md, EV5: Irq dropped with I=1
theorem test_event_ev5 : after 1
    (request .irq (start 0x00 0x00 0x00 0xFD 0x24 0x8123 [(0x8123, 0xEA), (0xFFFB, 0xC0), (0xFFFD, 0x80), (0xFFFF, 0xD0)]))
    0x00 0x00 0x00 0xFD 0x24 0x8123 0
    [] = true := by decide

-- 95_test_vectors.md, EV6: Irq dropped, then the next step runs the NOP
theorem test_event_ev6 : after 2
    (request .irq (start 0x00 0x00 0x00 0xFD 0x24 0x8123 [(0x8123, 0xEA), (0xFFFB, 0xC0), (0xFFFD, 0x80), (0xFFFF, 0xD0)]))
    0x00 0x00 0x00 0xFD 0x24 0x8124 2
    [] = true := by decide

-- 95_test_vectors.md, EV7: Reset entry
theorem test_event_ev7 : after 1
    (request .reset (start 0x01 0x02 0x03 0x10 0xE5 0x8123 [(0x8123, 0xEA), (0xFFFB, 0xC0), (0xFFFD, 0x80), (0xFFFF, 0xD0)]))
    0x00 0x00 0x00 0xFF 0x22 0x8000 7
    [] = true := by decide

-- 95_test_vectors.md, EV8: Nmi then Reset requested: Reset
theorem test_event_ev8 : after 1
    (request .reset (request .nmi (start 0x00 0x00 0x00 0xFD 0x24 0x8123 [(0x8123, 0xEA), (0xFFFB, 0xC0), (0xFFFD, 0x80), (0xFFFF, 0xD0)])))
    0x00 0x00 0x00 0xFF 0x22 0x8000 7
    [] = true := by decide

-- 95_test_vectors.md, EV9: Nmi then Irq requested: Nmi; the Irq is lost
theorem test_event_ev9 : after 2
    (request .irq (request .nmi (start 0x00 0x00 0x00 0xFD 0x20 0x8123 [(0x8123, 0xEA), (0xC000, 0xEA), (0xFFFB, 0xC0), (0xFFFD, 0x80), (0xFFFF, 0xD0)])))
    0x00 0x00 0x00 0xFA 0x20 0xC001 2
    [(0x01FD, 0x81), (0x01FC, 0x23), (0x01FB, 0x20)] = true := by decide

-- 95_test_vectors.md, EV10: Irq then Nmi requested: Nmi replaces Irq
theorem test_event_ev10 : after 1
    (request .nmi (request .irq (start 0x00 0x00 0x00 0xFD 0x20 0x8123 [(0x8123, 0xEA), (0xFFFB, 0xC0), (0xFFFD, 0x80), (0xFFFF, 0xD0)])))
    0x00 0x00 0x00 0xFA 0x20 0xC000 7
    [(0x01FD, 0x81), (0x01FC, 0x23), (0x01FB, 0x20)] = true := by decide

-- 95_test_vectors.md, EV11: Nmi at S=0x01: frame wraps
theorem test_event_ev11 : after 1
    (request .nmi (start 0x00 0x00 0x00 0x01 0x24 0x8123 [(0x8123, 0xEA), (0xFFFB, 0xC0), (0xFFFD, 0x80), (0xFFFF, 0xD0)]))
    0x00 0x00 0x00 0xFE 0x24 0xC000 7
    [(0x0101, 0x81), (0x0100, 0x23), (0x01FF, 0x24)] = true := by decide


/-! ## Power-on, launch and the host's requests (95_test_vectors.md, PW1 to PW6) -/

/-- A machine before its first initialisation, with an image whose reset vector is 0x8000 and whose first byte is NOP. -/
def unpowered : State := { State.reset with session := .beforeInit, mem := [(0x8000, 0xEA), (0xFFFD, 0x80)], romPages := 32 }

/-- One operation after another. -/
def andThen (r : Result) (f : State → Result) : Result :=
  match r with
  | .next s => f s
  | .fault e => .fault e
  | .refused e => .refused e

-- 95_test_vectors.md, PW1
theorem test_power_on_pw1 :
    (match powerOn [] unpowered with
      | .next t => [t.a, t.x, t.y, t.sp, t.p] == [0, 0, 0, 0xFF, 0x34] && t.pc == 0x8000 && t.cyc == 7
          && t.pending == none && t.peek 0x0000 == 0 && t.peek 0x07FF == 0
      | .fault _ => false
      | .refused _ => false) = true := by decide

-- 95_test_vectors.md, PW2
theorem test_power_on_pw2 : andThen (powerOn [] unpowered) (powerOn []) = .refused .secondPowerOn := rfl

-- 95_test_vectors.md, PW3
theorem test_power_on_pw3 : step unpowered = .refused .stepBeforeInit := rfl

-- 95_test_vectors.md, PW4
theorem test_power_on_pw4 :
    (match launch (conformanceLaunch [] [(0x8000, 0xEA)] 32) unpowered with
      | .next t => [t.a, t.x, t.y, t.sp, t.p] == [0, 0, 0, 0xFD, 0x24] && t.pc == 0xC000 && t.cyc == 0 && t.pending == none
      | .fault _ => false
      | .refused _ => false) = true := by decide

-- 95_test_vectors.md, PW5
theorem test_power_on_pw5 :
    (match andThen (powerOn [] unpowered) (fun t => step (request .irq t)) with
      | .next t => t.cyc == 0 && t.pc == 0x8000 && t.pending == none
      | .fault _ => false
      | .refused _ => false) = true := by decide

-- 95_test_vectors.md, PW6
theorem test_power_on_pw6 :
    (match andThen (powerOn [] (request .nmi unpowered)) step with
      | .next t => t.pc == 0x8001 && t.cyc == 2
      | .fault _ => false
      | .refused _ => false) = true := by decide

/-- `State.reset` is what `powerOn` makes of sixteen empty pages and an empty PRG_RAM_INIT (log 4, log 5). -/
theorem test_reset_is_power_on :
    powerOn [] { State.reset with session := .beforeInit } = .next State.reset := rfl

/-- R86: a trainer is skipped, and the header's byte 4 counts 16 KiB units. -/
theorem test_cartridge_header :
    (headerOf [0x4E, 0x45, 0x53, 0x1A, 0x02, 0x00, 0x04, 0x00, 0x00]).npages = 32 ∧
      (headerOf [0x4E, 0x45, 0x53, 0x1A, 0x02, 0x00, 0x04, 0x00, 0x00]).hasTrainer = true ∧
      (headerOf [0x4E, 0x45, 0x53, 0x1A, 0x02, 0x00, 0x04, 0x00, 0x00]).chrPages = 8 ∧
      (headerOf [0x4E, 0x45, 0x53, 0x1A, 0x02, 0x00, 0x04, 0x00, 0x00]).prgRamBytes = 8192 := by decide

/-- The model's choice (log 17): a file whose PRG data are cut short leaves no page, which R87 refuses. -/
theorem test_cartridge_too_short :
    insertCartridge [0x4E, 0x45, 0x53, 0x1A, 0x01, 0x01, 0x00, 0x00, 0x00] unpowered =
      .next { unpowered with mem := [], romPages := 0 } := rfl

/-- R89: a running machine takes no new image. -/
theorem test_cartridge_after_power_on :
    andThen (powerOn [] unpowered) (insertCartridge [0x4E, 0x45, 0x53, 0x1A]) = .refused .hostMemoryWrite := rfl

/-! ## Other values of the parameters (R9) -/

/-- R361: without `EB_IS_SBC`, 0xEB is a default no-op, one byte long; R153 gives it 2 cycles. -/
theorem test_eb_without_eb_is_sbc :
    stepWith { hardware with ebIsSbc := false } (start 0x05 0x00 0x00 0xFD 0x25 0x8000 [(0x8000, 0xEB), (0x8001, 0x03)]) =
      .next (start 0x05 0x00 0x00 0xFD 0x25 0x8000 [(0x8000, 0xEB), (0x8001, 0x03)] |>.setPc 0x8001 |>.setCyc 2) := rfl

/-- R154: INC $12FF,X with X = 1 crosses a page; it costs 7 (R153), and 8 where `RMW_PAGE_PENALTY` is true. -/
theorem test_inc_rmw_page_penalty :
    [false, true].map (fun rmw =>
      match stepWith { hardware with rmwPagePenalty := rmw }
          (start 0x00 0x01 0x00 0xFD 0x24 0x8000 [(0x8000, 0xFE), (0x8001, 0xFF), (0x8002, 0x12)]) with
      | .next t => t.cyc
      | .fault _ => 0
      | .refused _ => 0) = [7, 8] := by decide

/-- R81: a load from the open band takes the next draw, whatever it is, and counts it. -/
theorem test_open_band_load :
    exec (.lda (.abs 0x4000)) State.reset =
      .next { State.reset with
        a := Config.ioRead 0x4000 0, p := nzByte (Config.ioRead 0x4000 0) 0x34, pc := 3, cyc := 4, draws := 1 } := rfl

/-! ## Witnesses: for each statement with hypotheses, states and operands that meet them -/

/-- A launch state with a byte in zero page, one in PRG-RAM and one in PRG-ROM. -/
def w : State := start 0x50 0x01 0x02 0xFD 0x24 0x8000 [(0x0010, 0x81), (0x6000, 0x07), (0x8000, 0xA9), (0x8001, 0x37)]

theorem w_ready : Ready w ∧ w.pending = none ∧ Memory.wf w.mem = true := by decide

theorem witness_DecodeOfEncode :
    (Instr.lda (.abs 0xFFFF)).wf hardware = true ∧ (Instr.defaultNop 0xEB).wf { hardware with ebIsSbc := false } = true := by
  decide

theorem witness_EncodeOfDecode : decode hardware [0xAD, 0xFF, 0xFF, 0x00] = .ok (.lda (.abs 0xFFFF), [0x00]) := rfl

theorem witness_EffectiveAddresses : pageCross (.abx 0x10FF) w = true ∧ pageCross (.abx 0x10FE) w = false := by decide

theorem witness_AdcAddsWithCarry : (Instr.adc (.imm 0xFF)).wf hardware = true ∧ (Instr.adc (.izy 0xFF)).wf hardware = true := by
  decide

theorem witness_SbcSubtractsWithBorrow :
    (Instr.sbc (.zp 0x10)).wf hardware = true ∧ (Instr.sbcEB 0xFF).wf hardware = true ∧
      (∃ v, Instr.sbcEB 0xFF = .sbcEB v ∧ Operand.imm 0xFF = .imm v) ∧
      hardware.ebIsSbc = true ∧ { hardware with ebIsSbc := false }.ebIsSbc = false :=
  ⟨by decide, by decide, ⟨0xFF, rfl, rfl⟩, rfl, rfl⟩

theorem witness_OverflowIsSignedOverflow :
    (∃ t, exec (.adc (.imm 0x50)) w = .next t ∧ t.flag .v = true) ∧
      ∃ t, exec (.sbc (.imm 0x50)) w = .next t ∧ t.flag .v = false := ⟨⟨_, rfl, by decide⟩, ⟨_, rfl, by decide⟩⟩

theorem witness_LogicWritesA :
    (Instr.and (.imm 0x00)).wf hardware = true ∧ (Instr.ora (.imm 0x00)).wf hardware = true ∧
      (Instr.eor (.imm 0xFF)).wf hardware = true := by decide

theorem witness_BitTestsTheOperand : (Instr.bit (.zp 0x10)).wf hardware = true := by decide

theorem witness_CompareSetsFlagsOnly :
    (Instr.cmp (.imm 0x00)).wf hardware = true ∧ (Instr.cpx (.imm 0xFF)).wf hardware = true ∧
      (Instr.cpy (.abs 0x0010)).wf hardware = true := by decide

theorem witness_DecimalFlagChangesNothing :
    (∃ t, exec (.adc (.zp 0x10)) w = .next t) ∧ (∃ t, exec (.sbc (.zp 0x10)) w = .next t) ∧
      (∃ t, exec (.sbcEB 0x10) w = .next t) ∧ (∃ t, exec (.isc (.zp 0x10)) w = .next t) ∧
      ∃ t, exec (.rra (.zp 0x10)) w = .next t := ⟨⟨_, rfl⟩, ⟨_, rfl⟩, ⟨_, rfl⟩, ⟨_, rfl⟩, ⟨_, rfl⟩⟩

theorem witness_ShiftsAndRotates :
    Memory.wf w.mem = true ∧ (Instr.asl .acc).wf hardware = true ∧ (Instr.lsr (.zp 0x10)).wf hardware = true ∧
      (Instr.rol .acc).wf hardware = true ∧ (Instr.ror (.abx 0xFFFF)).wf hardware = true := by decide

theorem witness_IncDecMemory :
    Memory.wf w.mem = true ∧ (Instr.inc (.abs 0x6000)).wf hardware = true ∧ (Instr.dec (.zpx 0x0F)).wf hardware = true := by
  decide

theorem witness_PushesStoreOneByte : Memory.wf w.mem = true := by decide

theorem witness_JsrPushesItsLastByteAddress : Memory.wf ({ w with sp := 0x00, pc := 0xFFFE } : State).mem = true := by decide

theorem witness_BrkTakesTheIrqVector : Memory.wf ({ w with sp := 0x00, pc := 0xFFFF } : State).mem = true := by decide

theorem witness_RtsUndoesJsr :
    Memory.wf w.mem = true ∧ ∃ t, exec (.jsr 0x8010) w = .next t ∧ ∃ u, exec .rts t = .next u :=
  ⟨by decide, _, rfl, _, rfl⟩

theorem witness_LaxLoadsAAndX : (Instr.lax (.zpy 0xFF)).wf hardware = true := by decide

theorem witness_DcpAndIscCompose :
    Memory.wf w.mem = true ∧ (Instr.dcp (.zp 0x10)).wf hardware = true ∧ (Instr.isc (.aby 0x5FFE)).wf hardware = true := by
  decide

theorem witness_ShiftThenLogicCompose :
    Memory.wf w.mem = true ∧ (Instr.slo (.zp 0x10)).wf hardware = true ∧ (Instr.rla (.izx 0x0F)).wf hardware = true ∧
      (Instr.sre (.abs 0x6000)).wf hardware = true := by decide

theorem witness_RraAddsWithRorCarry : Memory.wf w.mem = true ∧ (Instr.rra (.zp 0x10)).wf hardware = true := by decide

theorem witness_DopAndTopOnlyRead :
    (Instr.dop 0x80 (.imm 0x05)).wf hardware = true ∧ (Instr.dop 0x04 (.zp 0x10)).wf hardware = true ∧
      (Instr.top 0x0C (.abs 0x4000)).wf hardware = true ∧ (Instr.top 0xFC (.abx 0x401F)).wf hardware = true := by decide

theorem witness_LoadsSetOneRegister :
    (Instr.lda (.imm 0x00)).wf hardware = true ∧ (Instr.ldx (.zpy 0x0E)).wf hardware = true ∧
      (Instr.ldy (.abx 0x000F)).wf hardware = true := by decide

theorem witness_StoresWriteOneByte :
    Memory.wf w.mem = true ∧ (Instr.sta (.abs 0x8000)).wf hardware = true ∧ (Instr.stx (.zpy 0x0E)).wf hardware = true ∧
      (Instr.sty (.abs 0x6000)).wf hardware = true ∧ (Instr.sax (.zp 0x10)).wf hardware = true := by decide

theorem witness_FlagsChangeOnlyAsNamed : (∃ t, exec .inx w = .next t) ∧ Flag.c ∉ flagsWritten .inx :=
  ⟨⟨_, rfl⟩, by decide⟩

theorem witness_RegistersChangeOnlyAsNamed : (∃ t, exec (.sta (.abs 0x6000)) w = .next t) ∧ Reg.a ∉ registersWritten .inx :=
  ⟨⟨_, rfl⟩, by decide⟩

theorem witness_MemoryChangesOnlyWhereStored :
    (∃ t, exec (.sta (.abs 0x6000)) w = .next t) ∧ storedAddresses (.sta (.abs 0x6000)) w = [0x6000] := ⟨⟨_, rfl⟩, rfl⟩

theorem witness_PrgRomNeverChanges : (∃ t, step w = .next t) ∧ 0x8000 ≤ (0x8000 : Word).toNat := ⟨⟨_, rfl⟩, by decide⟩

theorem witness_CycIsAnOutputOnly : ∃ t, stepWith { hardware with rmwPagePenalty := true } w = .next t := ⟨_, rfl⟩

theorem witness_StepCostsAtMostEight :
    (∃ t, execWith { hardware with rmwPagePenalty := true } (.inc (.abx 0x12FF)) w = .next t) ∧
      (Instr.inc (.abx 0x12FF)).operand.mode ≠ .rel ∧
    (∃ t, step w = .next t ∧ t.cyc = 2) ∧ (∃ t, step (request .irq w) = .next t ∧ t.cyc = 0) ∧
      (∃ t, step (request .nmi w) = .next t ∧ t.cyc = 7) ∧ ∃ t, step (request .reset w) = .next t ∧ t.cyc = 7 :=
  ⟨⟨_, rfl⟩, by decide, ⟨_, rfl, rfl⟩, ⟨_, rfl, rfl⟩, ⟨_, rfl, rfl⟩, ⟨_, rfl, rfl⟩⟩

theorem witness_StepRunsTheDecodedInstruction :
    Ready w ∧ w.pending = none ∧
      decode hardware [w.peek w.pc, w.peek (w.pc + 1), w.peek (w.pc + 2)] = .ok (.lda (.imm 0x37), [0x00]) ∧
      bandBytes w.pc (Instr.lda (.imm 0x37)).length = 0 := ⟨by decide, rfl, rfl, rfl⟩

theorem witness_OpenBandReadsAreDraws :
    Ready ({ w with pc := 0x4000 } : State) ∧ ({ w with pc := 0x4000 } : State).pending = none ∧ bandBytes 0x4000 2 = 2 ∧
      bandBytes 0x3FFF 3 = 2 ∧ bandBytes 0x401F 2 = 1 ∧
      [(0x4000 : Word), 0x401F].all (fun a => regionOf a == .openBand) = true := by decide

theorem witness_StepServicesTheLatch : Ready (request .irq w) ∧ (request .irq w).pending = some .irq := by decide

theorem witness_StepIsAlwaysPossible :
    Ready w ∧ (Instr.defaultNop 0xEB).wf { hardware with ebIsSbc := false } = true := by decide

theorem witness_RefusalsOfTheSpec :
    unpowered.session = .beforeInit ∧ w.session = .live ∧ ({ w with romPages := 0 } : State).romPages = 0 ∧
      ({ w with romPages := 0 } : State).session = .live ∧ (conformanceLaunch [] [] 0).romPages = 0 := by decide

theorem witness_StepKeepsInv : Inv w ∧ ∃ t, step w = .next t := ⟨by decide, _, rfl⟩

theorem witness_ReservedBitIsAlwaysSet :
    Reachable hardware (enterReset w) ∧ ∃ t, powerOn [] unpowered = .next t ∧ Reachable hardware t :=
  ⟨.resetEntry w, _, rfl, .powerOn (s := unpowered) (prgRamInit := []) rfl⟩

theorem witness_LatchHoldsTheHighestRequest : w.pending = none := rfl

theorem witness_NmiEntrySequence : Memory.wf ({ w with sp := 0x01 } : State).mem = true := by decide

theorem witness_IrqEntrySequence :
    Memory.wf ({ w with p := 0x20 } : State).mem = true ∧ ({ w with p := 0x20 } : State).flag .i = false := by decide

theorem witness_IrqIsDroppedWhenMasked :
    Ready (request .irq w) ∧ (request .irq w).pending = some .irq ∧ (request .irq w).flag .i = true := by decide

theorem witness_RtiUndoesAnEntry :
    (Ready (request .nmi w) ∧ Memory.wf w.mem = true ∧ (request .nmi w).pending = some .nmi ∧
      ∃ t, step (request .nmi w) = .next t ∧ ∃ u, exec .rti t = .next u) ∧
    Ready (request .irq { w with p := 0x20 }) ∧ (request .irq { w with p := 0x20 }).pending = some .irq ∧
      (request .irq { w with p := 0x20 }).flag .i = false ∧
      ∃ t, step (request .irq { w with p := 0x20 }) = .next t ∧ ∃ u, exec .rti t = .next u :=
  ⟨⟨by decide, by decide, rfl, _, rfl, _, rfl⟩, by decide, rfl, by decide, _, rfl, _, rfl⟩

theorem witness_PowerOnState :
    unpowered.session = .beforeInit ∧ imageOk unpowered.romPages (powerOnMemory [(0x6000, 0x5A)] unpowered.mem) = true ∧
      regionOf 0x6000 = .prgRam ∧ regionOf 0x7FFF = .prgRam ∧ regionOf 0x8000 = .prgRom ∧ regionOf 0xFFFF = .prgRom ∧
      w.session = .live := by decide

theorem witness_LaunchState :
    unpowered.session = .beforeInit ∧
      imageOk (conformanceLaunch [] [(0x8000, 0xEA)] 32).romPages (conformanceLaunch [] [(0x8000, 0xEA)] 32).mem = true := by
  decide

theorem witness_ReadReturnsTheLastWrite :
    Memory.wf w.mem = true ∧ SharesCell 0x0000 0x1800 ∧ SharesCell 0x7FFF 0x7FFF ∧ ¬ SharesCell 0x07FF 0x6000 ∧
      ¬ SharesCell 0x8000 0x8000 := by
  refine ⟨by decide, ⟨0, rfl, rfl⟩, ⟨0x7FFF, rfl, rfl⟩, ?_, ?_⟩
  · rintro ⟨k, h1, h2⟩
    have e1 : writableCell 0x07FF = some 0x07FF := rfl
    have e2 : writableCell 0x6000 = some 0x6000 := rfl
    rw [e1] at h1; rw [e2] at h2
    have := h1.trans h2.symm
    exact absurd this (by decide)
  · rintro ⟨k, h1, -⟩
    have e1 : writableCell 0x8000 = none := rfl
    rw [e1] at h1; cases h1

/-- The three ranges at their ends; the open band and the storage bands lie outside them. -/
theorem witness_BandsWithoutWritableStorage :
    [(0x2000 : Word), 0x3FFF].all (fun a => regionOf a == .ppu) = true ∧
      [(0x4020 : Word), 0x5FFF].all (fun a => regionOf a == .expansion) = true ∧
      [(0x8000 : Word), 0xFFFF].all (fun a => regionOf a == .prgRom) = true ∧
      [(0x4000 : Word), 0x401F].all (fun a => regionOf a == .openBand) = true ∧
      [(0x1FFF : Word), 0x6000, 0x7FFF].all (fun a => (writableCell a).isSome) = true := by decide

theorem witness_PushesStayInPageOne :
    Memory.wf w.mem = true ∧ ¬ SharesCell 0x0200 (stackAddr 0xFF) ∧ ¬ SharesCell 0x00FF (stackAddr 0x00) := by
  refine ⟨by decide, ?_, ?_⟩ <;>
  · rintro ⟨k, h1, h2⟩
    have := h1.trans h2.symm
    exact absurd this (by decide)

end Sys2Proof.Tests
end

section
/-! SUPPORT. Which registers and flags each operation may write, said once per operation; from it, for every
instruction, the registers and flags that the rules name (R31-R33, R36-R44). -/

namespace Sys2Proof.Machine

@[simp] theorem State.reg_setA (s : State) (v : Byte) (r : Reg) :
    (s.setA v).reg r = if r = .a then v else s.reg r := by cases r <;> rfl
@[simp] theorem State.reg_setX (s : State) (v : Byte) (r : Reg) :
    (s.setX v).reg r = if r = .x then v else s.reg r := by cases r <;> rfl
@[simp] theorem State.reg_setY (s : State) (v : Byte) (r : Reg) :
    (s.setY v).reg r = if r = .y then v else s.reg r := by cases r <;> rfl
@[simp] theorem State.reg_setSp (s : State) (v : Byte) (r : Reg) :
    (s.setSp v).reg r = if r = .s then v else s.reg r := by cases r <;> rfl

/-- From `s` to `t` at most the listed registers and flags change, and neither the latch, the session nor the image's
page count does. PC, CYC, memory and the draw counter are free. -/
structure ChangesOnly (regs : List Reg) (flags : List Flag) (s t : State) : Prop where
  reg : ∀ r, r ∉ regs → t.reg r = s.reg r
  flag : ∀ f, f ∉ flags → t.flag f = s.flag f
  pending : t.pending = s.pending
  session : t.session = s.session
  romPages : t.romPages = s.romPages

namespace ChangesOnly

variable {regs regs' : List Reg} {flags flags' : List Flag} {s t u : State}

theorem refl (s : State) : ChangesOnly regs flags s s := ⟨fun _ _ => rfl, fun _ _ => rfl, rfl, rfl, rfl⟩

theorem trans (h : ChangesOnly regs flags s t) (h' : ChangesOnly regs flags t u) : ChangesOnly regs flags s u where
  reg r hr := (h'.reg r hr).trans (h.reg r hr)
  flag f hf := (h'.flag f hf).trans (h.flag f hf)
  pending := h'.pending.trans h.pending
  session := h'.session.trans h.session
  romPages := h'.romPages.trans h.romPages

theorem mono (h : ChangesOnly regs flags s t) (hr : regs ⊆ regs' := by decide)
    (hf : flags ⊆ flags' := by decide) :
    ChangesOnly regs' flags' s t :=
  { h with reg := fun r hn => h.reg r (fun hm => hn (hr hm)), flag := fun f hn => h.flag f (fun hm => hn (hf hm)) }

/-- What the statements call `Keeps`, for registers and flags that are not among those listed. -/
theorem keeps (h : ChangesOnly regs flags s t) {rs : List Reg} {fs : List Flag} (hr : ∀ r ∈ rs, r ∉ regs)
    (hf : ∀ f ∈ fs, f ∉ flags) : Keeps rs fs s t :=
  ⟨fun r hm => h.reg r (hr r hm), fun f hm => h.flag f (hf f hm), h.pending, h.session, h.romPages⟩

/-! ## The writes of the state -/

theorem setA (h : ChangesOnly regs flags s t) (v : Byte) (ha : Reg.a ∈ regs := by decide) :
    ChangesOnly regs flags s (t.setA v) :=
  ⟨fun r hr => by rw [State.reg_setA, if_neg (ne_of_mem_of_not_mem ha hr).symm, h.reg r hr],
    h.flag, h.pending, h.session, h.romPages⟩

theorem setX (h : ChangesOnly regs flags s t) (v : Byte) (hx : Reg.x ∈ regs := by decide) :
    ChangesOnly regs flags s (t.setX v) :=
  ⟨fun r hr => by rw [State.reg_setX, if_neg (ne_of_mem_of_not_mem hx hr).symm, h.reg r hr],
    h.flag, h.pending, h.session, h.romPages⟩

theorem setY (h : ChangesOnly regs flags s t) (v : Byte) (hy : Reg.y ∈ regs := by decide) :
    ChangesOnly regs flags s (t.setY v) :=
  ⟨fun r hr => by rw [State.reg_setY, if_neg (ne_of_mem_of_not_mem hy hr).symm, h.reg r hr],
    h.flag, h.pending, h.session, h.romPages⟩

theorem setSp (h : ChangesOnly regs flags s t) (v : Byte) (hs : Reg.s ∈ regs := by decide) :
    ChangesOnly regs flags s (t.setSp v) :=
  ⟨fun r hr => by rw [State.reg_setSp, if_neg (ne_of_mem_of_not_mem hs hr).symm, h.reg r hr],
    h.flag, h.pending, h.session, h.romPages⟩

theorem setFlag (h : ChangesOnly regs flags s t) (f : Flag) (v : Bool) (hf : f ∈ flags := by decide) :
    ChangesOnly regs flags s (t.setFlag f v) :=
  ⟨h.reg, fun g hg => by rw [State.flag_setFlag, if_neg (ne_of_mem_of_not_mem hf hg).symm, h.flag g hg],
    h.pending, h.session, h.romPages⟩

/-- P is written as a whole only where every flag is named (R44). -/
theorem setP (h : ChangesOnly regs flags s t) (p : Byte) (hf : ∀ f, f ∈ flags := by decide) :
    ChangesOnly regs flags s (t.setP p) :=
  ⟨h.reg, fun f hn => absurd (hf f) hn, h.pending, h.session, h.romPages⟩

theorem setPc (h : ChangesOnly regs flags s t) (w : Word) : ChangesOnly regs flags s (t.setPc w) :=
  ⟨h.reg, h.flag, h.pending, h.session, h.romPages⟩

theorem setCyc (h : ChangesOnly regs flags s t) (n : Nat) : ChangesOnly regs flags s (t.setCyc n) :=
  ⟨h.reg, h.flag, h.pending, h.session, h.romPages⟩

theorem setMem (h : ChangesOnly regs flags s t) (m : Memory) : ChangesOnly regs flags s (t.setMem m) :=
  ⟨h.reg, h.flag, h.pending, h.session, h.romPages⟩

theorem setDraws (h : ChangesOnly regs flags s t) (n : Nat) : ChangesOnly regs flags s (t.setDraws n) :=
  ⟨h.reg, h.flag, h.pending, h.session, h.romPages⟩

/-! ## Flag computations (R12, R210-R216, R240-R245) -/

theorem setNZ (h : ChangesOnly regs flags s t) (v : Byte) (hn : Flag.n ∈ flags := by decide)
    (hz : Flag.z ∈ flags := by decide) : ChangesOnly regs flags s (setNZ v t) :=
  (h.setFlag .n _ hn).setFlag .z _ hz

theorem addWithCarry (m : Byte) (s : State) : ChangesOnly [.a] [.n, .v, .z, .c] s (addWithCarry m s) :=
  ((((refl s).setFlag .c _).setFlag .v _).setA _).setNZ _

theorem subWithBorrow (m : Byte) (s : State) : ChangesOnly [.a] [.n, .v, .z, .c] s (subWithBorrow m s) :=
  ((((refl s).setFlag .c _).setFlag .v _).setA _).setNZ _

theorem andA (m : Byte) (s : State) : ChangesOnly [.a] [.n, .z] s (andA m s) := ((refl s).setA _).setNZ _

theorem orA (m : Byte) (s : State) : ChangesOnly [.a] [.n, .z] s (orA m s) := ((refl s).setA _).setNZ _

theorem eorA (m : Byte) (s : State) : ChangesOnly [.a] [.n, .z] s (eorA m s) := ((refl s).setA _).setNZ _

theorem bitTest (m : Byte) (s : State) : ChangesOnly [] [.n, .v, .z] s (bitTest m s) :=
  (((refl s).setFlag .z _).setFlag .n _).setFlag .v _

theorem compare (reg m : Byte) (s : State) : ChangesOnly [] [.n, .z, .c] s (compare reg m s) :=
  ((refl s).setFlag .c _).setNZ _

theorem shiftLeft (v : Byte) (s : State) : ChangesOnly [] [.n, .z, .c] s (shiftLeft v s).2 :=
  ((refl s).setFlag .c _).setNZ _

theorem shiftRight (v : Byte) (s : State) : ChangesOnly [] [.n, .z, .c] s (shiftRight v s).2 :=
  ((refl s).setFlag .c _).setNZ _

theorem rotateLeft (v : Byte) (s : State) : ChangesOnly [] [.n, .z, .c] s (rotateLeft v s).2 :=
  ((refl s).setFlag .c _).setNZ _

theorem rotateRight (v : Byte) (s : State) : ChangesOnly [] [.n, .z, .c] s (rotateRight v s).2 :=
  ((refl s).setFlag .c _).setNZ _

theorem increment (v : Byte) (s : State) : ChangesOnly [] [.n, .z] s (increment v s).2 := (refl s).setNZ _

theorem decrement (v : Byte) (s : State) : ChangesOnly [] [.n, .z] s (decrement v s).2 := (refl s).setNZ _

/-! ## The bus, the stack and the interrupt operations -/

theorem afterRead (h : ChangesOnly regs flags s t) (a : Word) : ChangesOnly regs flags s (afterRead a t) := by
  rw [afterRead_eq]; exact h.setDraws _

theorem memWrite (h : ChangesOnly regs flags s t) (a : Word) (v : Byte) :
    ChangesOnly regs flags s (memWrite a v t) := by
  obtain ⟨m, hm⟩ := memWrite_eq a v t
  rw [hm]; exact h.setMem m

theorem push (h : ChangesOnly regs flags s t) (v : Byte) (hs : Reg.s ∈ regs := by decide) :
    ChangesOnly regs flags s (push v t) := (h.memWrite _ v).setSp _ hs

theorem pull (h : ChangesOnly regs flags s t) (hs : Reg.s ∈ regs := by decide) :
    ChangesOnly regs flags s (pull t).2 := (h.setSp _ hs).afterRead _

theorem pullStatus (s : State) : ChangesOnly [.s] [.n, .v, .r, .b, .d, .i, .z, .c] s (pullStatus s) :=
  ((refl s).pull).setP _ (by rintro ⟨⟩ <;> decide)

theorem callSubroutine (target : Word) (s : State) : ChangesOnly [.s] [] s (callSubroutine target s) :=
  (((refl s).push _).push _).setPc _

theorem returnFromSubroutine (s : State) : ChangesOnly [.s] [] s (returnFromSubroutine s) :=
  (((refl s).pull).pull).setPc _

theorem returnFromInterrupt (s : State) :
    ChangesOnly [.s] [.n, .v, .r, .b, .d, .i, .z, .c] s (returnFromInterrupt s) :=
  (((pullStatus s).pull).pull).setPc _

/-- Taking an interrupt writes S, and of the flags D and I at most (R417, R418, R298). -/
theorem takeInterrupt (h : ChangesOnly [.s] flags s t) (vector : Word) (pushed : Byte) (clearsD setsI : Bool)
    (hd : Flag.d ∈ flags := by decide) (hi : Flag.i ∈ flags := by decide) :
    ChangesOnly [.s] flags s (takeInterrupt vector pushed clearsD setsI t) := by
  have hpushed := ((h.push (hiByte t.pc)).push (loByte t.pc)).push pushed
  refine ChangesOnly.setPc (ChangesOnly.afterRead (ChangesOnly.afterRead ?_ _) _) _
  cases clearsD <;> cases setsI
  · exact hpushed
  · exact hpushed.setFlag .i _ hi
  · exact hpushed.setFlag .d _ hd
  · exact (hpushed.setFlag .d _ hd).setFlag .i _ hi

theorem softwareInterrupt (cfg : Config) (s : State) : ChangesOnly [.s] [.b, .d, .i] s (softwareInterrupt cfg s) :=
  (((refl s).setPc _).setFlag .b _).takeInterrupt _ _ _ _

/-! ## The access classes, branches and jumps -/

theorem begun (cfg : Config) (i : Instr) (s : State) : ChangesOnly regs flags s (begun cfg i s) :=
  ((refl s).setPc _).setCyc _

theorem afterOperand (m : Operand) (s : State) : ChangesOnly regs flags s (afterOperand m s) := by
  obtain ⟨n, hn⟩ := afterOperand_eq m s
  rw [hn]; exact (refl s).setDraws n

theorem readClass {act : Byte → State → State} (hact : ∀ v t, ChangesOnly regs flags t (act v t)) (m : Operand)
    (s : State) : ChangesOnly regs flags s (readClass m act s) :=
  (afterOperand m s).trans (hact _ _)

theorem writeClass (m : Operand) (value : State → Byte) (s : State) :
    ChangesOnly regs flags s (writeClass m value s) := (refl s).memWrite _ _

theorem writeOperand (h : ChangesOnly regs flags s t) (m : Operand) (ea : Word) (r : Byte)
    (ha : m = .acc → Reg.a ∈ regs) : ChangesOnly regs flags s (writeOperand m ea r t) := by
  rw [writeOperand_eq]
  split
  case isTrue hm => exact h.setA r (ha hm)
  case isFalse => exact h.memWrite ea r

/-- A read-modify-write instruction changes what its computation and its second operation change, and A in accumulator
mode. -/
theorem modifyClass {compute : Byte → State → Byte × State} {act : Byte → State → State} {m : Operand}
    (hc : ∀ v t, ChangesOnly [] flags' t (compute v t).2) (hact : ∀ r t, ChangesOnly regs flags t (act r t))
    (ha : m = .acc → Reg.a ∈ regs) (s : State) (hsub : flags' ⊆ flags := by decide) :
    ChangesOnly regs flags s (modifyClass m compute act s) :=
  have hcompute := (afterOperand m s).trans ((hc (operandValue m s) _).mono (List.nil_subset regs) hsub)
  (hcompute.writeOperand m _ _ ha).trans (hact _ _)

theorem branchIf (taken : State → Bool) (offset : Byte) (s : State) :
    ChangesOnly regs flags s (branchIf taken offset s) := by
  unfold Machine.branchIf
  split
  · exact ((refl s).setCyc _).setPc _
  · exact refl s

theorem jump (m : Operand) (s : State) : ChangesOnly regs flags s (jump m s) := by
  cases m
  case ind w => exact (((refl s).afterRead _).afterRead _).setPc _
  all_goals exact (refl s).setPc _

/-- Where a rule's modes do not have accumulator mode, a well-formed operand is not in it. -/
theorem ne_acc_of_mode {modes : List Mode} {m : Operand} (h : modes.contains m.mode = true)
    (hm : modes.contains .acc = false := by decide) : m ≠ .acc := by
  rintro rfl
  exact Bool.false_ne_true (hm.symm.trans h)

/-- Every instruction's operation changes only the registers and flags that its rule names (R31-R33, R36-R44). -/
theorem operation {cfg : Config} {i : Instr} (hwf : i.wf cfg = true) (s : State) :
    ChangesOnly (registersWritten i) (flagsWritten i) s (operationOf cfg i s) := by
  cases i <;> simp only [registersWritten, flagsWritten, operationOf]
  -- 42_arith_logic_compare.md
  case adc m => exact .readClass .addWithCarry m s
  case sbc m => exact .readClass .subWithBorrow m s
  case sbcEB v => exact .readClass .subWithBorrow (.imm v) s
  case and m => exact .readClass .andA m s
  case ora m => exact .readClass .orA m s
  case eor m => exact .readClass .eorA m s
  case bit m => exact .readClass .bitTest m s
  case cmp m | cpx m | cpy m => exact .readClass (fun v t => .compare _ v t) m s
  -- 43_shift_incdec.md
  case asl m => exact .modifyClass .shiftLeft (fun _ => .refl) (by simp +contextual) s
  case lsr m => exact .modifyClass .shiftRight (fun _ => .refl) (by simp +contextual) s
  case rol m => exact .modifyClass .rotateLeft (fun _ => .refl) (by simp +contextual) s
  case ror m => exact .modifyClass .rotateRight (fun _ => .refl) (by simp +contextual) s
  case inc m => exact .modifyClass .increment (fun _ => .refl) (absurd · (ne_acc_of_mode hwf)) s
  case dec m => exact .modifyClass .decrement (fun _ => .refl) (absurd · (ne_acc_of_mode hwf)) s
  case inx | dex | tax | tsx => exact ((refl s).setX _).setNZ _
  case iny | dey | tay => exact ((refl s).setY _).setNZ _
  -- 44_branch_jump.md
  case bpl b | bmi b | bvc b | bvs b | bcc b | bcs b | bne b | beq b => exact .branchIf _ b s
  case jmp m => exact .jump m s
  -- 45_stack_call_interrupt.md
  case pha | php => exact (refl s).push _
  case pla => exact ((refl s).pull.setA _).setNZ _
  case plp => exact .pullStatus s
  case jsr target => exact .callSubroutine target s
  case rts => exact .returnFromSubroutine s
  case rti => exact .returnFromInterrupt s
  case brk => exact .softwareInterrupt cfg s
  -- 46_transfer_flags.md
  case txa | tya => exact ((refl s).setA _).setNZ _
  case txs => exact (refl s).setSp _
  case sec | clc | sed | cld | sei | cli | clv => exact (refl s).setFlag _ _
  -- 47_undocumented.md
  case lax m => exact .readClass (fun v t => (((refl t).setA v).setX v).setNZ v) m s
  case dcp m => exact .modifyClass .decrement (fun r t => .compare _ r t) (absurd · (ne_acc_of_mode hwf)) s
  case isc m => exact .modifyClass .increment .subWithBorrow (by simp) s
  case slo m => exact .modifyClass .shiftLeft (fun r t => (orA r t).mono) (by simp) s
  case rla m => exact .modifyClass .rotateLeft (fun r t => (andA r t).mono) (by simp) s
  case sre m => exact .modifyClass .shiftRight (fun r t => (eorA r t).mono) (by simp) s
  case rra m => exact .modifyClass .rotateRight .addWithCarry (by simp) s
  case dop op m | top op m => exact .readClass (fun _ t => refl t) m s
  -- 48_load_store_nop.md
  case lda m => exact .readClass (fun v t => ((refl t).setA v).setNZ v) m s
  case ldx m => exact .readClass (fun v t => ((refl t).setX v).setNZ v) m s
  case ldy m => exact .readClass (fun v t => ((refl t).setY v).setNZ v) m s
  case sta m | stx m | sty m | sax m => exact .writeClass m _ s
  case nop | defaultNop op => exact refl s

end ChangesOnly

/-- So does every meaning under any parameters; its frame changes PC and CYC, which `ChangesOnly` leaves free
(R34, R47). -/
theorem execWith_changesOnly {cfg : Config} {i : Instr} {s t : State} (h : execWith cfg i s = .next t) :
    ChangesOnly (registersWritten i) (flagsWritten i) s t := by
  obtain ⟨hwf, rfl⟩ := execWith_next h
  exact (ChangesOnly.begun cfg i s).trans (ChangesOnly.operation hwf _)

/-- So does every instruction of this machine. -/
theorem exec_changesOnly {i : Instr} {s t : State} (h : exec i s = .next t) :
    ChangesOnly (registersWritten i) (flagsWritten i) s t :=
  execWith_changesOnly ((exec_eq_execWith i s).symm.trans h)

/-- Settles O35: a flag that the instruction's rule does not name is outside what `exec_changesOnly` lets change. -/
theorem flagsChangeOnlyAsNamed : Obligations.FlagsChangeOnlyAsNamed :=
  fun _ _ _ f h hf => (exec_changesOnly h).flag f hf

/-- Settles O36, by `exec_changesOnly` for the registers, the latch, the session and the page count. -/
theorem registersChangeOnlyAsNamed : Obligations.RegistersChangeOnlyAsNamed :=
  fun _ _ _ h => ⟨(exec_changesOnly h).reg, (exec_changesOnly h).keeps (by simp) (by simp)⟩

end Sys2Proof.Machine
end

section
/-! SUPPORT. CYC is an output only (R47): every operation answers the same but for CYC whatever CYC it starts with, a
step starts by overwriting it, and the two cost parameters reach it alone. -/

namespace Sys2Proof.Machine

/-! ## Operations with another CYC -/

@[simp] theorem State.setCyc_setCyc (s : State) (n k : Nat) : (s.setCyc n).setCyc k = s.setCyc k := rfl

@[simp] theorem State.setPc_setCyc (s : State) (w : Word) (n : Nat) :
    (s.setCyc n).setPc w = (s.setPc w).setCyc n := rfl

@[simp] theorem State.setFlag_setCyc (s : State) (f : Flag) (v : Bool) (n : Nat) :
    (s.setCyc n).setFlag f v = (s.setFlag f v).setCyc n := rfl

@[simp] theorem afterRead_setCyc (a : Word) (s : State) (n : Nat) :
    afterRead a (s.setCyc n) = (afterRead a s).setCyc n := by
  rw [afterRead_eq, afterRead_eq]; rfl

@[simp] theorem memRead_setCyc (a : Word) (s : State) (n : Nat) :
    memRead a (s.setCyc n) = ((memRead a s).1, (memRead a s).2.setCyc n) := by
  simp [memRead]

@[simp] theorem memWrite_setCyc (a : Word) (v : Byte) (s : State) (n : Nat) :
    memWrite a v (s.setCyc n) = (memWrite a v s).setCyc n := by
  unfold memWrite
  cases writableCell a <;> rfl

@[simp] theorem readWord_setCyc (a : Word) (s : State) (n : Nat) :
    readWord a (s.setCyc n) = ((readWord a s).1, (readWord a s).2.setCyc n) := by
  simp [readWord]

@[simp] theorem push_setCyc (v : Byte) (s : State) (n : Nat) : push v (s.setCyc n) = (push v s).setCyc n := by
  simp only [push, memWrite_setCyc, State.setCyc_sp]; rfl

theorem takeInterrupt_setCyc (vector : Word) (pushed : Byte) (clearsD setsI : Bool) (s : State) (n : Nat) :
    takeInterrupt vector pushed clearsD setsI (s.setCyc n) =
      (takeInterrupt vector pushed clearsD setsI s).setCyc n := by
  simp only [takeInterrupt, State.setCyc_pc, push_setCyc]
  cases clearsD <;> cases setsI <;> simp

@[simp] theorem effAddr_setCyc (m : Operand) (s : State) (n : Nat) : effAddr m (s.setCyc n) = effAddr m s := by
  cases m
  case ind w => simp [effAddr, resolveIndirect]
  all_goals rfl

@[simp] theorem operandValue_setCyc (m : Operand) (s : State) (n : Nat) :
    operandValue m (s.setCyc n) = operandValue m s := by
  cases m <;> simp [operandValue]

@[simp] theorem afterOperand_setCyc (m : Operand) (s : State) (n : Nat) :
    afterOperand m (s.setCyc n) = (afterOperand m s).setCyc n := by
  cases m <;> simp [afterOperand]

@[simp] theorem writeOperand_setCyc (m : Operand) (ea : Word) (r : Byte) (s : State) (n : Nat) :
    writeOperand m ea r (s.setCyc n) = (writeOperand m ea r s).setCyc n := by
  simp only [writeOperand_eq, memWrite_setCyc]
  split <;> rfl

theorem readClass_setCyc {act : Byte → State → State} (m : Operand) (s : State) (n : Nat)
    (hact : ∀ v t, act v (t.setCyc n) = (act v t).setCyc n := by intros; rfl) :
    readClass m act (s.setCyc n) = (readClass m act s).setCyc n := by
  simp only [readClass, operandValue_setCyc, afterOperand_setCyc, hact]

theorem writeClass_setCyc {value : State → Byte} (m : Operand) (s : State) (n : Nat)
    (hvalue : ∀ t, value (t.setCyc n) = value t := by intros; rfl) :
    writeClass m value (s.setCyc n) = (writeClass m value s).setCyc n := by
  simp only [writeClass, effAddr_setCyc, hvalue, memWrite_setCyc]

theorem modifyClass_setCyc {compute : Byte → State → Byte × State} {act : Byte → State → State} (m : Operand)
    (s : State) (n : Nat)
    (hcompute : ∀ v t, compute v (t.setCyc n) = ((compute v t).1, (compute v t).2.setCyc n) := by intros; rfl)
    (hact : ∀ r t, act r (t.setCyc n) = (act r t).setCyc n := by intros; rfl) :
    modifyClass m compute act (s.setCyc n) = (modifyClass m compute act s).setCyc n := by
  simp only [modifyClass, operandValue_setCyc, afterOperand_setCyc, effAddr_setCyc, writeOperand_setCyc, hcompute, hact]

/-- A branch decided by a flag adds its cycles to CYC, so its CYC differs; nothing else does (R270). -/
theorem branchIf_setCyc {taken : State → Bool} (offset : Byte) (s : State) (n : Nat)
    (htaken : taken (s.setCyc n) = taken s := by rfl) :
    ∃ k, branchIf taken offset (s.setCyc n) = (branchIf taken offset s).setCyc k := by
  simp only [branchIf, effAddr_setCyc, htaken]
  split <;> exact ⟨_, rfl⟩

theorem jump_setCyc (m : Operand) (s : State) (n : Nat) : jump m (s.setCyc n) = (jump m s).setCyc n := by
  cases m
  case ind w => simp only [jump, resolveIndirect, memRead_setCyc]; rfl
  all_goals simp only [jump, effAddr_setCyc]; rfl

/-- No operation reads CYC: from another CYC it makes the same state but for CYC (R47). -/
theorem operationOf_setCyc (cfg : Config) (i : Instr) (s : State) (n : Nat) :
    ∃ k, operationOf cfg i (s.setCyc n) = (operationOf cfg i s).setCyc k := by
  cases i <;> simp only [operationOf]
  case adc m | sbc m | and m | ora m | eor m | bit m | cmp m | cpx m | cpy m | lax m | dop op m | top op m | lda m
      | ldx m | ldy m =>
    exact ⟨n, readClass_setCyc m s n⟩
  case sbcEB v => exact ⟨n, readClass_setCyc (.imm v) s n⟩
  case asl m | lsr m | rol m | ror m | inc m | dec m | dcp m | isc m | slo m | rla m | sre m | rra m =>
    exact ⟨n, modifyClass_setCyc m s n⟩
  case sta m | stx m | sty m | sax m => exact ⟨n, writeClass_setCyc m s n⟩
  case bpl b | bmi b | bvc b | bvs b | bcc b | bcs b | bne b | beq b => exact branchIf_setCyc b s n
  case jmp m => exact ⟨n, jump_setCyc m s n⟩
  case pha | php => exact ⟨n, push_setCyc _ s n⟩
  case jsr target => exact ⟨n, by simp only [callSubroutine, push_setCyc, State.setCyc_pc]; rfl⟩
  case pla => exact ⟨n, by simp only [pull_eq]; rfl⟩
  case plp => exact ⟨n, by simp only [pullStatus_eq]; rfl⟩
  case rts => exact ⟨n, by simp only [returnFromSubroutine, pullWord_eq]; rfl⟩
  case rti => exact ⟨n, by simp only [returnFromInterrupt_eq]; rfl⟩
  case brk => exact ⟨n, takeInterrupt_setCyc _ _ _ _ ((s.setPc (s.pc + 1)).setFlag .b true) n⟩
  all_goals exact ⟨n, rfl⟩

/-! ## The step -/

/-- An instruction's frame overwrites CYC (R152). -/
theorem begun_setCyc (cfg : Config) (i : Instr) (s : State) (n : Nat) : begun cfg i (s.setCyc n) = begun cfg i s := by
  have hcross : pageCross i.operand (s.setCyc n) = pageCross i.operand s := pageCross_setPc_setCyc i.operand s s.pc n
  simp only [begun, costOf, hcross]; rfl

theorem execWith_setCyc (cfg : Config) (i : Instr) (s : State) (n : Nat) :
    execWith cfg i (s.setCyc n) = execWith cfg i s := by
  rw [execWith_eq, execWith_eq, runInstr_eq, runInstr_eq, begun_setCyc]

theorem fetchInstr_setCyc (cfg : Config) (s : State) (n : Nat) :
    fetchInstr cfg (s.setCyc n) = ((fetchInstr cfg s).1, (fetchInstr cfg s).2.setCyc n) := by
  simp only [fetchInstr, memRead_setCyc, State.setCyc_pc]
  split <;> split <;> simp

/-- The service of an event, the dropped Irq included, overwrites CYC (R416-R419). -/
theorem serviceEvent_setCyc (cfg : Config) (e : Event) (s : State) (n : Nat) :
    serviceEvent cfg e (s.setCyc n) = serviceEvent cfg e s := by
  have hclear : (s.setCyc n).setPending none = (s.setPending none).setCyc n := rfl
  unfold serviceEvent
  rw [hclear]
  generalize s.setPending none = u
  cases e
  case reset =>
    have hregs : ((((((u.setCyc n).setA 0).setX 0).setY 0).setSp 0xFF).setP 0x22) =
      (((((u.setA 0).setX 0).setY 0).setSp 0xFF).setP 0x22).setCyc n := rfl
    simp only [interruptEntry, enterReset, hregs, readWord_setCyc, State.setPc_setCyc, State.setCyc_setCyc]
  case nmi => simp only [interruptEntry, enterNmi, takeInterrupt_setCyc, State.setCyc_p, State.setCyc_setCyc]
  case irq =>
    simp only [interruptEntry, enterIrq, dropIrq, takeInterrupt_setCyc, State.setCyc_p, State.setCyc_setCyc,
      State.flag_setCyc]

/-- A step answers the same whatever CYC it starts with (R47). -/
theorem stepWith_setCyc (cfg : Config) (s : State) (n : Nat) : stepWith cfg (s.setCyc n) = stepWith cfg s := by
  simp only [stepWith, stepBy, State.setCyc_session, State.setCyc_romPages, State.setCyc_pending, serviceEvent_setCyc,
    fetchInstr_setCyc, execWith_setCyc]

/-! ## Other cost parameters -/

/-- The parameters with other costs: another `CycleCost` and `RMW_PAGE_PENALTY` (R153, R154). -/
def withCosts (cfg : Config) (cost : Byte → Nat) (rmw : Bool) : Config :=
  { cfg with cycleCost := cost, rmwPagePenalty := rmw }

theorem operationOf_withCosts (cfg : Config) (cost : Byte → Nat) (rmw : Bool) (i : Instr) :
    operationOf (withCosts cfg cost rmw) i = operationOf cfg i := by cases i <;> rfl

theorem opcode_withCosts (cfg : Config) (cost : Byte → Nat) (rmw : Bool) (i : Instr) :
    i.opcode (withCosts cfg cost rmw) = i.opcode cfg := by cases i <;> rfl

/-- Under other costs an instruction makes the same state but for CYC (R47). -/
theorem execWith_withCosts {cfg : Config} (cost : Byte → Nat) (rmw : Bool) {i : Instr} {s t : State}
    (h : execWith cfg i s = .next t) : ∃ n, execWith (withCosts cfg cost rmw) i s = .next (t.setCyc n) := by
  obtain ⟨hwf, rfl⟩ := execWith_next h
  obtain ⟨op, hop⟩ := opcode_of_wf hwf
  have hwf' : i.wf (withCosts cfg cost rmw) = true := wf_of_opcode ((opcode_withCosts cfg cost rmw i).trans hop)
  obtain ⟨n, hn⟩ := operationOf_setCyc cfg i (begun cfg i s) (costOf (withCosts cfg cost rmw) i s)
  exact ⟨n, by rw [execWith_of_wf hwf', operationOf_withCosts, ← hn]; rfl⟩

/-- Under other costs a step makes the same state but for CYC: an event's service does not look at them, and the fetch
makes the same instruction (R47). -/
theorem stepWith_withCosts {cfg : Config} (cost : Byte → Nat) (rmw : Bool) {s t : State}
    (h : stepWith cfg s = .next t) : ∃ n, stepWith (withCosts cfg cost rmw) s = .next (t.setCyc n) := by
  obtain ⟨hlive, hpages, -⟩ := stepWith_cases h
  have hready : Ready s := ⟨hlive, hpages⟩
  cases hp : s.pending with
  | some e =>
    rw [stepWith_of_pending cfg hready hp] at h
    cases h
    exact ⟨_, stepWith_of_pending (withCosts cfg cost rmw) hready hp⟩
  | none =>
    rw [stepWith_of_ready cfg hready hp] at h
    rw [stepWith_of_ready (withCosts cfg cost rmw) hready hp]
    exact execWith_withCosts cost rmw h

/-- Settles O39: a step overwrites CYC before any operation runs, and no operation reads it, so the costs reach CYC
alone. -/
theorem cycIsAnOutputOnly : Obligations.CycIsAnOutputOnly :=
  ⟨fun s n => by rw [step_eq_stepWith, step_eq_stepWith, stepWith_setCyc], stepWith_setCyc,
    fun _ cost rmw _ _ h => stepWith_withCosts cost rmw h⟩

end Sys2Proof.Machine
end

section
/-! SUPPORT. The bus decode in arithmetic: the cell of an address in each band, and which addresses share one
(R79, R80, R83-R85, R88). -/

namespace Sys2Proof.Machine

theorem regionOf_ppu {a : Word} (h : 0x2000 ≤ a.toNat) (h' : a.toNat < 0x4000) : regionOf a = .ppu := by
  rw [regionOf, if_neg (by omega), if_pos h']

theorem regionOf_expansion {a : Word} (h : 0x4020 ≤ a.toNat) (h' : a.toNat < 0x6000) : regionOf a = .expansion := by
  rw [regionOf, if_neg (by omega), if_neg (by omega), if_neg (by omega), if_pos h']

theorem regionOf_prgRam {a : Word} (h : 0x6000 ≤ a.toNat) (h' : a.toNat < 0x8000) : regionOf a = .prgRam := by
  rw [regionOf, if_neg (by omega), if_neg (by omega), if_neg (by omega), if_neg (by omega), if_pos h']

/-- The RAM cell is the address modulo the 0x800 of its mirrors (R79). -/
theorem ramCell_eq_mod (a : Word) : ramCell a = a.toNat % 0x800 := by
  rw [ramCell, BitVec.toNat_and]; exact Nat.and_two_pow_sub_one_eq_mod a.toNat 11

/-- The PRG-RAM cell is the address's place among the 8 KiB (R84). -/
theorem prgRamCell_eq_mod (a : Word) : prgRamCell a = 0x6000 + a.toNat % 0x2000 := by
  rw [prgRamCell, BitVec.toNat_and]; exact congrArg _ (Nat.and_two_pow_sub_one_eq_mod a.toNat 13)

/-- The PRG-ROM cell is a byte of the page that the bank table gives (R85). -/
theorem prgRomCell_eq_mod (npages : Nat) {a : Word} (h : 0x8000 ≤ a.toNat) :
    prgRomCell npages a = 0x8000 + 1024 * ((a.toNat - 0x8000) / 1024 % npages) + a.toNat % 1024 := by
  have hpage : ((a &&& 0x7FFF) >>> 10).toNat = (a.toNat - 0x8000) / 1024 := by
    have hmask : (a &&& 0x7FFF).toNat = a.toNat % 0x8000 := by
      rw [BitVec.toNat_and]; exact Nat.and_two_pow_sub_one_eq_mod a.toNat 15
    rw [BitVec.toNat_ushiftRight, Nat.shiftRight_eq_div_pow, hmask]
    omega
  have hoffset : (a &&& 0x03FF).toNat = a.toNat % 1024 := by
    rw [BitVec.toNat_and]; exact Nat.and_two_pow_sub_one_eq_mod a.toNat 10
  rw [prgRomCell, bank, hpage, hoffset]

/-- The addresses that writes change, and their cells (R79, R84). -/
theorem writableCell_eq_some_iff {a : Word} {k : Nat} :
    writableCell a = some k ↔
      (a.toNat < 0x2000 ∧ a.toNat % 0x800 = k) ∨ (0x6000 ≤ a.toNat ∧ a.toNat < 0x8000 ∧ a.toNat = k) := by
  have hram := ramCell_eq_mod a
  have hprgRam := prgRamCell_eq_mod a
  unfold writableCell regionOf
  split_ifs <;> simp only [Option.some.injEq, false_iff] <;> omega

/-- The cells of internal RAM and of PRG-RAM are apart, so addresses of different bands share none (R88). -/
theorem sharesCell_iff (a b : Word) :
    SharesCell a b ↔
      (a.toNat < 0x2000 ∧ b.toNat < 0x2000 ∧ a.toNat % 0x800 = b.toNat % 0x800) ∨
      (a = b ∧ 0x6000 ≤ a.toNat ∧ a.toNat < 0x8000) := by
  simp only [SharesCell, writableCell_eq_some_iff, ← BitVec.toNat_inj]
  constructor
  · rintro ⟨k, ha, hb⟩
    omega
  · rintro (⟨ha, hb, hab⟩ | ⟨hab, hlo, hhi⟩)
    · exact ⟨a.toNat % 0x800, .inl ⟨ha, rfl⟩, .inl ⟨hb, hab.symm⟩⟩
    · exact ⟨a.toNat, .inr ⟨hlo, hhi, rfl⟩, .inr ⟨hab ▸ hlo, hab ▸ hhi, hab.symm⟩⟩

/-- A PRG-ROM address shares its cell with no address, not even with itself: no write reaches it (R85). -/
theorem not_sharesCell_of_prgRom {a : Word} (h : 0x8000 ≤ a.toNat) (b : Word) : ¬ SharesCell a b := by
  rw [sharesCell_iff]; omega

/-- A write of an address outside internal RAM and PRG-RAM changes nothing (R80, R81, R83, R85). -/
theorem memWrite_of_not_writable {a : Word} (h : writableCell a = none) (v : Byte) (s : State) :
    memWrite a v s = s := by
  rw [memWrite, h]

/-- Settles O58: a write reads back at every address of its cell and nowhere else (`peek_memWrite_same`,
`peek_memWrite_other`), and `sharesCell_iff` says which those are. -/
theorem readReturnsTheLastWrite : Obligations.ReadReturnsTheLastWrite :=
  ⟨fun s _ _ v hwf => ⟨fun h => peek_memWrite_same h v s hwf, fun h => peek_memWrite_other h v s⟩, sharesCell_iff⟩

/-- Settles O59, band by band: the band fixes what a read returns, and that a write has no cell to change. -/
theorem bandsWithoutWritableStorage : Obligations.BandsWithoutWritableStorage := by
  intro s a v
  refine ⟨fun h h' => ?_, fun h h' => ?_, fun h => ?_⟩
  · have hregion := regionOf_ppu h h'
    exact ⟨by simp [memRead, State.peek, afterRead, hregion, ppuRead],
      memWrite_of_not_writable (by simp [writableCell, hregion]) v s⟩
  · have hregion := regionOf_expansion h h'
    exact ⟨by simp [memRead, State.peek, afterRead, hregion],
      memWrite_of_not_writable (by simp [writableCell, hregion]) v s⟩
  · have hregion := regionOf_prgRom h
    exact ⟨by simp [memRead, State.peek, afterRead, hregion, prgRomCell_eq_mod _ h],
      memWrite_of_not_writable (by simp [writableCell, hregion]) v s⟩

end Sys2Proof.Machine
end

section
/-! SUPPORT. What every operation does to memory and to CYC, said once per operation: memory changes only by writes at
the addresses that the instruction stores to, and CYC only where a branch is taken. From it, what every step keeps
(R75, R85, R87, R425). -/

namespace Sys2Proof.Machine

/-! ## Memory after writes at known addresses -/

/-- The second memory is the first after some writes through the bus, each at one of the listed addresses (R75). -/
inductive WrittenAt (stored : List Word) (m : Memory) : Memory → Prop
  | refl : WrittenAt stored m m
  | write {u : State} (h : WrittenAt stored m u.mem) {a : Word} (ha : a ∈ stored) (v : Byte) :
      WrittenAt stored m (memWrite a v u).mem

/-- Writes at the listed addresses change no byte but those that share a cell with one of them (R75, R88). -/
theorem SameMemoryOutside.of_writtenAt {stored : List Word} {s t : State} (h : WrittenAt stored s.mem t.mem)
    (hp : t.romPages = s.romPages) : SameMemoryOutside stored s t := by
  generalize hm : t.mem = m at h
  induction h generalizing t with
  | refl => exact fun a ha _ => SameMemory.of_mem hm hp a ha
  | @write u _ ea hea v ih =>
    intro a ha hs
    have hwrite : t.mem = (memWrite ea v (t.setMem u.mem)).mem :=
      hm.trans (memWrite_mem_congr (t := u) (s := t.setMem u.mem) rfl ea v)
    calc t.peek a = (memWrite ea v (t.setMem u.mem)).peek a :=
          State.peek_congr_of_not_band hwrite (memWrite_romPages ea v (t.setMem u.mem)).symm ha
      _ = (t.setMem u.mem).peek a := peek_memWrite_other (fun e => hs ea hea (SharesCell.comm.1 e)) v _
      _ = s.peek a := ih (t := t.setMem u.mem) hp rfl a ha hs

/-- A write keeps the image well formed: the cell it may list exists (R87). -/
theorem imageOk_memWrite {npages : Nat} {s : State} (h : imageOk npages s.mem = true) (a : Word) (v : Byte) :
    imageOk npages (memWrite a v s).mem = true := by
  simp only [imageOk, Bool.and_eq_true, List.all_eq_true] at h ⊢
  obtain ⟨⟨hpages, hwf⟩, hcells⟩ := h
  refine ⟨⟨hpages, memWrite_wf a v s hwf⟩, fun c hc => ?_⟩
  rw [memWrite_mem] at hc
  split at hc
  case h_1 k hk =>
    rcases Memory.mem_write hc with hc | hc
    · exact hcells c hc
    · exact hc ▸ writableCell_exists hk npages
  case h_2 => exact hcells c hc

/-- Any number of writes keep the image well formed. -/
theorem WrittenAt.imageOk {stored : List Word} {m m' : Memory} (h : WrittenAt stored m m') {npages : Nat}
    (hm : imageOk npages m = true) : imageOk npages m' = true := by
  induction h with
  | refl => exact hm
  | write _ _ v ih => exact imageOk_memWrite ih _ v

/-! ## What an operation stores -/

/-- From `s` to `t` memory changes only by writes at the listed addresses, and CYC does not change. -/
structure StoresOnly (stored : List Word) (s t : State) : Prop where
  mem : WrittenAt stored s.mem t.mem
  cyc : t.cyc = s.cyc

namespace StoresOnly

variable {stored : List Word} {s t u : State}

theorem refl (s : State) : StoresOnly stored s s := ⟨.refl, rfl⟩

/-- What changes neither memory nor CYC may come after. -/
theorem congr (h : StoresOnly stored s t) (hm : u.mem = t.mem := by rfl) (hc : u.cyc = t.cyc := by rfl) :
    StoresOnly stored s u := ⟨hm ▸ h.mem, hc.trans h.cyc⟩

theorem memWrite (h : StoresOnly stored s t) {a : Word} (ha : a ∈ stored) (v : Byte) :
    StoresOnly stored s (memWrite a v t) := ⟨h.mem.write ha v, (memWrite_cyc a v t).trans h.cyc⟩

theorem afterRead (h : StoresOnly stored s t) (a : Word) : StoresOnly stored s (afterRead a t) :=
  h.congr (afterRead_mem a t) (afterRead_cyc a t)

theorem pull (h : StoresOnly stored s t) : StoresOnly stored s (pull t).2 :=
  (h.congr (u := t.setSp (t.sp + 1))).afterRead _

theorem pullStatus (s : State) : StoresOnly stored s (pullStatus s) := (refl s).pull.congr

theorem returnFromInterrupt (s : State) : StoresOnly stored s (returnFromInterrupt s) :=
  (pullStatus s).pull.pull.congr

theorem push (h : StoresOnly stored s t) (v : Byte) (ha : stackAddr t.sp ∈ stored) :
    StoresOnly stored s (push v t) := (h.memWrite ha v).congr

/-- The frame of an interrupt is three bytes of the stack (R417). -/
theorem pushFrame (pushed : Byte) (s : State) :
    StoresOnly [stackAddr s.sp, stackAddr (s.sp - 1), stackAddr (s.sp - 2)] s (pushFrame pushed s) :=
  (((refl s).push _ (by simp)).push _ (by simp)).push _ (by simp [BitVec.sub_sub])

/-- Taking an interrupt stores its frame alone (R417, R418, R298). -/
theorem takeInterrupt {vector : Word} (h : 0x8000 ≤ vector.toNat) (h1 : 0x8000 ≤ (vector + 1).toNat) (pushed : Byte)
    (clearsD setsI : Bool) (s : State) :
    StoresOnly [stackAddr s.sp, stackAddr (s.sp - 1), stackAddr (s.sp - 2)] s
      (takeInterrupt vector pushed clearsD setsI s) := by
  obtain ⟨p, heq, -⟩ := takeInterrupt_eq vector h h1 pushed clearsD setsI s
  rw [heq]; exact (pushFrame pushed s).congr

theorem softwareInterrupt (cfg : Config) (s : State) :
    StoresOnly [stackAddr s.sp, stackAddr (s.sp - 1), stackAddr (s.sp - 2)] s (softwareInterrupt cfg s) :=
  let marked := (s.setPc (s.pc + 1)).setFlag .b true
  have h := takeInterrupt (vector := irqVector) (by decide) (by decide) (marked.p ||| 0x20) cfg.brkClearsD cfg.brkSetsI
    marked
  ⟨h.mem, h.cyc⟩

theorem callSubroutine (target : Word) (s : State) :
    StoresOnly [stackAddr s.sp, stackAddr (s.sp - 1)] s (callSubroutine target s) :=
  (((refl s).push _ (by simp)).push _ (by simp)).congr

/-- The read class stores nothing (R156). -/
theorem readClass {act : Byte → State → State} (m : Operand) (s : State)
    (hmem : ∀ v t, (act v t).mem = t.mem := by intros; rfl)
    (hcyc : ∀ v t, (act v t).cyc = t.cyc := by intros; rfl) : StoresOnly stored s (readClass m act s) :=
  (refl s).congr ((hmem _ _).trans (afterOperand_mem m s)) ((hcyc _ _).trans (afterOperand_cyc m s))

/-- The write class stores at its effective address (R156). -/
theorem writeClass (m : Operand) (value : State → Byte) (s : State) :
    StoresOnly [effAddr m s] s (writeClass m value s) := (refl s).memWrite (by simp) _

/-- The read-modify-write class stores at its effective address, but in accumulator mode (R156). -/
theorem modifyClass {compute : Byte → State → Byte × State} {act : Byte → State → State} (m : Operand) (s : State)
    (hea : m ≠ .acc → effAddr m s ∈ stored := by simp)
    (hmem : ∀ v t, (compute v t).2.mem = t.mem := by intros; rfl)
    (hcyc : ∀ v t, (compute v t).2.cyc = t.cyc := by intros; rfl)
    (hmem' : ∀ r t, (act r t).mem = t.mem := by intros; rfl)
    (hcyc' : ∀ r t, (act r t).cyc = t.cyc := by intros; rfl) : StoresOnly stored s (modifyClass m compute act s) := by
  have hcompute : StoresOnly stored s (compute (operandValue m s) (afterOperand m s)).2 :=
    (refl s).congr ((hmem _ _).trans (afterOperand_mem m s)) ((hcyc _ _).trans (afterOperand_cyc m s))
  refine StoresOnly.congr ?_ (hmem' _ _) (hcyc' _ _)
  rw [writeOperand_eq]
  split
  case isTrue => exact hcompute.congr
  case isFalse hm => exact hcompute.memWrite (hea hm) _

theorem jump (m : Operand) (s : State) : StoresOnly stored s (jump m s) := by
  cases m
  case ind w => exact (((refl s).afterRead _).afterRead _).congr
  all_goals exact (refl s).congr

end StoresOnly

/-- The eight branches (R271-R278). -/
def branches (offset : Byte) : List Instr :=
  [.bpl offset, .bmi offset, .bvc offset, .bvs offset, .bcc offset, .bcs offset, .bne offset, .beq offset]

/-- A branch stores nothing (R270). -/
theorem branchIf_mem (taken : State → Bool) (offset : Byte) (s : State) : (branchIf taken offset s).mem = s.mem := by
  unfold branchIf; split <;> rfl

/-- A branch costs at most two cycles more (R270). -/
theorem branchIf_cyc_le (taken : State → Bool) (offset : Byte) (s : State) :
    (branchIf taken offset s).cyc ≤ s.cyc + 2 := by
  simp only [branchIf]
  split
  case isTrue => simp only [State.setPc_cyc, State.setCyc_cyc]; split <;> omega
  case isFalse => exact Nat.le_add_right _ _

/-- Every operation is a branch's, or stores at the addresses of its rule and nowhere else, and leaves CYC as it is
(R75, R156, R290-R298, R270). -/
theorem operation_cases (cfg : Config) (i : Instr) (s : State) :
    StoresOnly (storedAddresses i s) s (operationOf cfg i s) ∨
      ∃ offset taken, i ∈ branches offset ∧ operationOf cfg i s = branchIf taken offset s := by
  cases i <;> simp only [storedAddresses, operationOf]
  case bpl b | bmi b | bvc b | bvs b | bcc b | bcs b | bne b | beq b => exact .inr ⟨b, _, by simp [branches], rfl⟩
  all_goals refine .inl ?_
  case adc m | sbc m | and m | ora m | eor m | bit m | cmp m | cpx m | cpy m | lax m | dop op m | top op m | lda m
      | ldx m | ldy m =>
    exact .readClass m s
  case sbcEB v => exact .readClass (.imm v) s
  case sta m | stx m | sty m | sax m => exact .writeClass m _ s
  case asl m | lsr m | rol m | ror m => exact .modifyClass m s (fun hm => by simp [hm])
  case inc m | dec m | dcp m | isc m | slo m | rla m | sre m | rra m => exact .modifyClass m s
  case jmp m => exact .jump m s
  case pha | php => exact (StoresOnly.refl s).push _ (by simp)
  case jsr target => exact .callSubroutine target s
  case brk => exact .softwareInterrupt cfg s
  case pla => exact (StoresOnly.refl s).pull.congr
  case plp => exact .pullStatus s
  case rts => exact (StoresOnly.refl s).pull.pull.congr
  case rti => exact .returnFromInterrupt s
  all_goals exact (StoresOnly.refl s).congr

/-- Every operation writes memory at the addresses of its rule and nowhere else. -/
theorem operationOf_writtenAt (cfg : Config) (i : Instr) (s : State) :
    WrittenAt (storedAddresses i s) s.mem (operationOf cfg i s).mem := by
  rcases operation_cases cfg i s with h | ⟨offset, taken, -, heq⟩
  · exact h.mem
  · rw [heq, branchIf_mem]; exact .refl

/-! ## Where an instruction stores -/

/-- A well-formed operand is in none of the modes that its rule does not list. -/
theorem mode_ne_of_contains {modes : List Mode} {m : Operand} {k : Mode} (h : modes.contains m.mode = true)
    (hk : modes.contains k = false := by decide) : m.mode ≠ k := by
  rintro rfl
  exact Bool.false_ne_true (hk.symm.trans h)

/-- The addresses a well-formed instruction stores to do not depend on PC or CYC: no storing instruction is immediate
or relative (R393, R240, R353). -/
theorem storedAddresses_begun {cfg : Config} {i : Instr} (hwf : i.wf cfg = true) (cfg' : Config) (j : Instr)
    (s : State) :
    storedAddresses i (begun cfg' j s) = storedAddresses i s := by
  cases i
  case sta m | stx m | sty m | sax m | inc m | dec m | dcp m | isc m | slo m | rla m | sre m | rra m | asl m | lsr m
      | rol m | ror m =>
    simp only [storedAddresses, effAddr_begun m cfg' j s (mode_ne_of_contains hwf) (mode_ne_of_contains hwf)]
  all_goals rfl

/-- Settles O37: an operation writes memory only at the addresses it stores to, and these are the same before its frame
moves PC. -/
theorem memoryChangesOnlyWhereStored : Obligations.MemoryChangesOnlyWhereStored := by
  intro i s t h
  have hpages := (exec_changesOnly h).romPages
  obtain ⟨hwf, rfl⟩ := exec_next h
  have hmem := operationOf_writtenAt hardware i (begun hardware i s)
  rw [storedAddresses_begun hwf] at hmem
  exact .of_writtenAt hmem hpages

/-! ## What every step keeps -/

/-- From `s` to `t` the session and the image's page count stay, memory changes only by writes through the bus, and the
Reserved bit stays set (R45, R75, R85). -/
structure KeepsMachine (s t : State) : Prop where
  session : t.session = s.session
  romPages : t.romPages = s.romPages
  mem : ∃ stored, WrittenAt stored s.mem t.mem
  reserved : s.flag .r = true → t.flag .r = true

/-- Where the Reserved bit is not among the flags that may change, it stays set with the others. -/
theorem ChangesOnly.keepsMachine {regs : List Reg} {flags : List Flag} {stored : List Word} {s t : State}
    (h : ChangesOnly regs flags s t) (hm : WrittenAt stored s.mem t.mem) (hr : Flag.r ∉ flags := by decide) :
    KeepsMachine s t :=
  ⟨h.session, h.romPages, ⟨stored, hm⟩, fun hset => (h.flag .r hr).trans hset⟩

theorem KeepsMachine.setCyc {s t : State} (h : KeepsMachine s t) (n : Nat) : KeepsMachine s (t.setCyc n) :=
  { h with }

/-- PLP and RTI load P with the Reserved bit set (R41). -/
theorem flagOf_loadedStatus_reserved (v : Byte) : flagOf (loadedStatus v) .r = true := by revert v; decide

/-- No instruction but PLP and RTI may write the Reserved bit (R41, R44). -/
theorem eq_plp_or_rti_of_reserved_written {i : Instr} (h : Flag.r ∈ flagsWritten i) : i = .plp ∨ i = .rti := by
  cases i <;> simp [flagsWritten] at h ⊢

/-- Every instruction's operation keeps the machine; PLP and RTI, which write the Reserved bit, set it. -/
theorem KeepsMachine.operation {cfg : Config} {i : Instr} (hwf : i.wf cfg = true) (s : State) :
    KeepsMachine s (operationOf cfg i s) := by
  have hchanges := ChangesOnly.operation hwf s
  have hmem := operationOf_writtenAt cfg i s
  by_cases hr : Flag.r ∈ flagsWritten i
  case neg => exact hchanges.keepsMachine hmem hr
  case pos =>
    refine ⟨hchanges.session, hchanges.romPages, ⟨_, hmem⟩, fun _ => ?_⟩
    rcases eq_plp_or_rti_of_reserved_written hr with rfl | rfl
    · simp only [operationOf, pullStatus_eq, State.flag_setP, flagOf_loadedStatus_reserved]
    · simp only [operationOf, returnFromInterrupt_eq, State.flag_setPc, State.flag_setSp, State.flag_setP,
        flagOf_loadedStatus_reserved]

/-- Taking an interrupt writes S, D, I and the frame's bytes (R417, R418). -/
theorem KeepsMachine.takeInterrupt {vector : Word} (h : 0x8000 ≤ vector.toNat) (h1 : 0x8000 ≤ (vector + 1).toNat)
    (pushed : Byte) (clearsD setsI : Bool) (s : State) : KeepsMachine s (takeInterrupt vector pushed clearsD setsI s) :=
  ((ChangesOnly.refl (flags := [.d, .i]) s).takeInterrupt vector pushed clearsD setsI).keepsMachine
    (StoresOnly.takeInterrupt h h1 pushed clearsD setsI s).mem

/-- The Reset entry writes the registers, P with the Reserved bit set, PC and CYC (R416, R41). -/
theorem enterReset_eq (s : State) :
    enterReset s = ((((((s.setA 0).setX 0).setY 0).setSp 0xFF).setP 0x22).setPc
      (wordOf (s.peek resetVector) (s.peek (resetVector + 1)))).setCyc 7 := by
  have hlo := vector_not_band resetVector (by decide)
  have hhi := vector_not_band (resetVector + 1) (by decide)
  simp only [enterReset, readWord_of_not_band hlo hhi]
  rfl

/-- Every entry keeps the machine, and so does the dropped Irq (R416-R419). -/
theorem KeepsMachine.interruptEntry (cfg : Config) (e : Event) (s : State) :
    KeepsMachine s (interruptEntry cfg e s) := by
  cases e
  case reset =>
    simp only [Machine.interruptEntry, enterReset_eq]
    exact ⟨rfl, rfl, ⟨[], .refl⟩, fun _ => (by decide : flagOf 0x22 .r = true)⟩
  case nmi => exact (takeInterrupt (vector := nmiVector) (by decide) (by decide) _ _ _ s).setCyc 7
  case irq =>
    simp only [Machine.interruptEntry]
    split
    · exact ⟨rfl, rfl, ⟨[], .refl⟩, id⟩
    · exact (takeInterrupt (vector := irqVector) (by decide) (by decide) _ _ _ s).setCyc 7

/-- Every step keeps the machine, whatever the parameters are: it services an event, or runs one operation (R150). -/
theorem stepWith_keepsMachine {cfg : Config} {s t : State} (h : stepWith cfg s = .next t) : KeepsMachine s t := by
  obtain ⟨-, -, ⟨e, -, rfl⟩ | ⟨-, i, n, hwf, -, rfl⟩⟩ := stepWith_cases h
  · exact { KeepsMachine.interruptEntry cfg e (s.setPending none) with }
  · exact { KeepsMachine.operation hwf (begun cfg i (s.setDraws n)) with }

/-- Settles O38: a step writes memory only through the bus, where no address shares a cell with one of PRG-ROM. -/
theorem prgRomNeverChanges : Obligations.PrgRomNeverChanges := by
  intro s t a h ha
  obtain ⟨-, hpages, ⟨stored, hmem⟩, -⟩ := stepWith_keepsMachine (step_eq_stepWith s ▸ h)
  have hband : regionOf a ≠ .openBand := vector_not_band a ha
  exact ⟨SameMemoryOutside.of_writtenAt hmem hpages a hband fun b _ => not_sharesCell_of_prgRom ha b, hpages⟩

/-! ## The cost of a step (R425) -/

/-- No opcode's base cost and page penalty make more than 8 (R153, R154). -/
theorem cycleCost_add_penalty_le (op : Byte) : cycleCost op + (if penaltyBearing hardware op then 1 else 0) ≤ 8 := by
  revert op; decide

/-- Before a branch is taken no instruction costs more than 8: the page penalty is charged at most once (R152). -/
theorem costOf_le_eight (i : Instr) (s : State) : costOf hardware i s ≤ 8 := by
  unfold costOf
  split
  case h_1 op _ =>
    have hop := cycleCost_add_penalty_le op
    have hpage : (if penaltyBearing hardware op && pageCross i.operand s then 1 else 0) ≤
        if penaltyBearing hardware op then 1 else 0 := by
      cases penaltyBearing hardware op <;> cases pageCross i.operand s <;> decide
    exact (Nat.add_le_add_left hpage _).trans hop
  case h_2 => exact Nat.zero_le 8

/-- A branch costs 2 before it is taken (R153). -/
theorem costOf_branch {i : Instr} {offset : Byte} (h : i ∈ branches offset) (s : State) : costOf hardware i s = 2 := by
  simp only [branches, List.mem_cons, List.not_mem_nil, or_false] at h
  rcases h with rfl | rfl | rfl | rfl | rfl | rfl | rfl | rfl <;> rfl

/-- An instruction costs at most 8: a branch 2 and at most 2 more, any other its base cost and page penalty (R425). -/
theorem operationOf_cyc_le (i : Instr) (s : State) : (operationOf hardware i (begun hardware i s)).cyc ≤ 8 := by
  rcases operation_cases hardware i (begun hardware i s) with h | ⟨offset, taken, hi, heq⟩
  · rw [h.cyc]; exact costOf_le_eight i s
  · have hcost : (begun hardware i s).cyc = 2 := costOf_branch hi s
    have hle := branchIf_cyc_le taken offset (begun hardware i s)
    rw [heq]; omega

/-- An entry costs 7, and a dropped Irq 0 (R416-R419). -/
theorem interruptEntry_cyc_le (cfg : Config) (e : Event) (s : State) : (interruptEntry cfg e s).cyc ≤ 7 := by
  cases e
  case reset => exact le_rfl
  case nmi => exact le_rfl
  case irq =>
    simp only [interruptEntry]
    split
    · exact Nat.zero_le 7
    · exact le_rfl

/-- A step costs at most 8 (R425). -/
theorem step_cyc_le {s t : State} (h : step s = .next t) : t.cyc ≤ 8 := by
  obtain ⟨-, -, ⟨e, -, rfl⟩ | ⟨-, i, n, -, -, rfl⟩⟩ := step_cases h
  · exact (interruptEntry_cyc_le hardware e _).trans (by decide)
  · exact operationOf_cyc_le i _

/-- Settles O46: a step keeps the image well formed by writing existing cells, keeps the session and the Reserved bit,
and costs at most 8; a request changes the latch, of which `Inv` does not speak. -/
theorem stepKeepsInv : Obligations.StepKeepsInv := by
  refine ⟨fun s t hinv h => ?_, fun _ _ hinv => hinv⟩
  obtain ⟨himage, hlive, hreserved, -⟩ := hinv
  obtain ⟨hsession, hpages, ⟨_, hmem⟩, hkeeps⟩ := stepWith_keepsMachine (step_eq_stepWith s ▸ h)
  exact ⟨hpages ▸ hmem.imageOk himage, hsession.trans hlive, hkeeps hreserved, step_cyc_le h⟩

end Sys2Proof.Machine
end

section
/-! SUPPORT. The decoder and the encoder undo each other: the opcode map of R124 and the opcode lists of the instruction
rules agree, an instruction carries the operand bytes of its entry's mode, and `decode` reads exactly these. -/

namespace Sys2Proof

/-! ## Operands and their bytes (R121, R122) -/

/-- The operand byte number `k`, or 0x00, as `decode` has it, where the operand has no such byte. -/
def Operand.byteAt (m : Operand) (k : Nat) : Byte := m.bytes.getD k 0

/-- An operand is the form of its mode made of its own bytes. -/
theorem operandOf_byteAt (m : Operand) : operandOf m.mode (m.byteAt 0) (m.byteAt 1) = m := by
  cases m
  case abs w | abx w | aby w | ind w => exact congrArg _ (wordOf_lo_hi w)
  all_goals rfl

/-- A form made of two bytes has as many of them as its mode consumes. -/
theorem operandOf_bytes (m : Mode) (b1 b2 : Byte) : (operandOf m b1 b2).bytes = [b1, b2].take (m.length - 1) := by
  cases m
  case abs | abx | aby | ind => simp [operandOf, Operand.bytes, Mode.length]
  all_goals rfl

/-! ## The opcode map and the opcode lists agree (R123, R124) -/

theorem mem_of_byteFor {forms : List (Mode × Byte)} {m : Mode} {op : Byte} (h : byteFor forms m = some op) :
    (m, op) ∈ forms := by
  obtain ⟨⟨m', op'⟩, hfind, rfl⟩ := Option.map_eq_some_iff.1 h
  obtain rfl : m' = m := by simpa using List.find?_some hfind
  exact List.mem_of_find?_eq_some hfind

theorem mem_of_byteIn {forms : List (Mode × Byte)} {m : Mode} {op op' : Byte} (h : byteIn forms op m = some op') :
    op = op' ∧ (m, op) ∈ forms := by
  unfold byteIn at h
  split at h
  case isTrue hmem => exact ⟨Option.some.inj h, by simpa using hmem⟩
  case isFalse => cases h

/-- The map's entry for an instruction: whatever it makes has the entry's mode and the bytes that follow, and of the
instruction's own bytes it makes the instruction. -/
structure Entry.Fits (e : Entry) (i : Instr) : Prop where
  operand_make : ∀ b1 b2, (e.make b1 b2).operand = operandOf e.mode b1 b2
  make_bytes : e.make (i.operand.byteAt 0) (i.operand.byteAt 1) = i

theorem Entry.Fits.form {f : Operand → Instr} (m : Operand) (hf : ∀ m, (f m).operand = m) :
    (form m.mode f).Fits (f m) where
  operand_make _ _ := hf _
  make_bytes := by rw [hf]; exact congrArg f (operandOf_byteAt m)

theorem Entry.Fits.fixed {i : Instr} (hi : i.operand = .imp) : (fixed i).Fits i := ⟨fun _ _ => hi, rfl⟩

/-- A byte that a rule's opcode list gives has a fitting entry, where the list agrees with the map row by row. -/
theorem entryOf_fits_of_byteFor {cfg : Config} {forms : List (Mode × Byte)} {f : Operand → Instr} {op : Byte}
    {m : Operand} (h : byteFor forms m.mode = some op) (hf : ∀ m, (f m).operand = m := by intro; rfl)
    (hmap : forms.Forall (fun p => entryOf cfg p.2 = form p.1 f) := by repeat' constructor) :
    (entryOf cfg op).Fits (f m) := by
  have hentry : entryOf cfg op = form m.mode f := List.forall_iff_forall_mem.1 hmap _ (mem_of_byteFor h)
  rw [hentry]; exact .form m hf

/-- The same for DOP and TOP, whose terms carry their opcode byte (R359, R360). -/
theorem entryOf_fits_of_byteIn {cfg : Config} {forms : List (Mode × Byte)} {f : Byte → Operand → Instr}
    {op op' : Byte} {m : Operand} (h : byteIn forms op m.mode = some op')
    (hf : ∀ m, (f op m).operand = m := by intro; rfl)
    (hmap : forms.Forall (fun p => entryOf cfg p.2 = form p.1 (f p.2)) := by repeat' constructor) :
    (entryOf cfg op').Fits (f op m) := by
  obtain ⟨rfl, hmem⟩ := mem_of_byteIn h
  have hentry : entryOf cfg op = form m.mode (f op) := List.forall_iff_forall_mem.1 hmap _ hmem
  rw [hentry]; exact .form m hf

/-- The 31 bytes of R126 have no entry, each checked in the map. -/
theorem entryOf_undispatched (cfg : Config) : undispatched.Forall (fun op => entryOf cfg op = noEntry op) := by
  repeat' constructor

/-- 0xEB is SBC or a default no-op, as `EB_IS_SBC` says (R361). -/
theorem entryOf_EB (cfg : Config) : entryOf cfg 0xEB = if cfg.ebIsSbc then imm8 .sbcEB else noEntry 0xEB := by
  unfold entryOf
  cases cfg.ebIsSbc <;> rfl

/-- A default no-op's byte has no dispatch entry (R126). -/
theorem entryOf_defaultNop {cfg : Config} {op : Byte} (h : (Instr.defaultNop op).wf cfg = true) :
    entryOf cfg op = noEntry op := by
  simp only [Instr.wf, Bool.or_eq_true, Bool.and_eq_true, beq_iff_eq, List.contains_iff_mem] at h
  obtain hmem | ⟨rfl, heb⟩ := h
  · exact List.forall_iff_forall_mem.1 (entryOf_undispatched cfg) op hmem
  · rw [entryOf_EB, if_neg (by simpa using heb)]

/-- The map and the opcode lists agree: the entry of an instruction's opcode byte fits the instruction. -/
theorem entryOf_fits {cfg : Config} {i : Instr} {op : Byte} (h : i.opcode cfg = some op) :
    (entryOf cfg op).Fits i := by
  cases i
  case dop op m | top op m => exact entryOf_fits_of_byteIn h
  case adc m | sbc m | and m | ora m | eor m | bit m | cmp m | cpx m | cpy m | asl m | lsr m | rol m | ror m | inc m
      | dec m | jmp m | lax m | sax m | dcp m | isc m | slo m | rla m | sre m | rra m | lda m | ldx m | ldy m | sta m
      | stx m | sty m =>
    exact entryOf_fits_of_byteFor h
  case sbcEB v =>
    obtain ⟨heb, hop⟩ := Option.ite_none_right_eq_some.1 h
    obtain rfl := Option.some.inj hop
    rw [entryOf_EB, if_pos heb]; exact ⟨fun _ _ => rfl, rfl⟩
  case defaultNop op =>
    obtain rfl := Option.some.inj (Option.ite_none_right_eq_some.1 h).2
    rw [entryOf_defaultNop (wf_of_opcode h)]; exact .fixed rfl
  all_goals obtain rfl := Option.some.inj h
  case jsr w => exact ⟨fun _ _ => rfl, congrArg Instr.jsr (wordOf_lo_hi w)⟩
  case bpl b | bmi b | bvc b | bvs b | bcc b | bcs b | bne b | beq b => exact ⟨fun _ _ => rfl, rfl⟩
  all_goals exact .fixed rfl

/-- The opcode byte and the operand bytes of an instruction make that instruction again. -/
theorem assemble_of_opcode {cfg : Config} {i : Instr} {op : Byte} (h : i.opcode cfg = some op) :
    assemble cfg op (i.operand.byteAt 0) (i.operand.byteAt 1) = i := (entryOf_fits h).make_bytes

/-- An instruction carries those of the bytes after its opcode byte that its length counts (R120, R128). -/
theorem assemble_operand_bytes (cfg : Config) (op b1 b2 : Byte) :
    (assemble cfg op b1 b2).operand.bytes = [b1, b2].take (lengthOf cfg op - 1) := by
  have hfits := entryOf_fits (assemble_opcode cfg op b1 b2).1
  rw [assemble, hfits.operand_make, operandOf_bytes, lengthOf]

/-! ## The decoder -/

/-- The decoder, given an opcode byte and the bytes of an operand of its length, takes exactly these. -/
theorem decode_operand {cfg : Config} {op : Byte} {m : Operand} (h : lengthOf cfg op = m.mode.length)
    (rest : List Byte) :
    decode cfg (op :: (m.bytes ++ rest)) = .ok (assemble cfg op (m.byteAt 0) (m.byteAt 1), rest) := by
  simp only [decode, h]
  cases m <;> rfl

/-- Decoding an instruction's opcode byte and operand bytes gives it back. -/
theorem decode_of_opcode {cfg : Config} {i : Instr} {op : Byte} (h : i.opcode cfg = some op) (rest : List Byte) :
    decode cfg (op :: (i.operand.bytes ++ rest)) = .ok (i, rest) := by
  have hmake := assemble_of_opcode h
  have hlen : i.length = lengthOf cfg op := hmake ▸ (assemble_opcode cfg op _ _).2
  rw [decode_operand hlen.symm, hmake]

theorem encode_of_opcode {cfg : Config} {i : Instr} {op : Byte} (h : i.opcode cfg = some op) :
    encode cfg i = op :: i.operand.bytes := by
  rw [encode, h]

theorem lengthOf_cases (cfg : Config) (op : Byte) :
    lengthOf cfg op = 1 ∨ lengthOf cfg op = 2 ∨ lengthOf cfg op = 3 := by
  rw [← (assemble_opcode cfg op 0 0).2]
  have := Instr.length_range (assemble cfg op 0 0)
  omega

/-- What the decoder answers: an instruction assembled from an opcode byte and two bytes, of which it has consumed as
many as the opcode byte's length counts. -/
theorem decode_cases {cfg : Config} {bytes rest : List Byte} {i : Instr} (h : decode cfg bytes = .ok (i, rest)) :
    ∃ op b1 b2, i = assemble cfg op b1 b2 ∧ bytes = op :: ([b1, b2].take (lengthOf cfg op - 1) ++ rest) := by
  cases bytes with
  | nil => cases h
  | cons op tail =>
    simp only [decode] at h
    split at h
    next hlen => cases h; exact ⟨op, 0, 0, rfl, by rw [hlen]; rfl⟩
    next b1 _ hlen => cases h; exact ⟨op, b1, 0, rfl, by rw [hlen]; rfl⟩
    next b1 b2 _ hne1 hne2 =>
      cases h
      have hlen : lengthOf cfg op = 3 := ((lengthOf_cases cfg op).resolve_left hne1).resolve_left hne2
      exact ⟨op, b1, b2, rfl, by rw [hlen]; rfl⟩
    next => cases h

/-! ## The statements -/

/-- Settles O1: the encoding is the opcode byte and the operand bytes, and the map's entry for that byte makes of them
the instruction they came from. -/
theorem decodeOfEncode : Obligations.DecodeOfEncode := by
  intro cfg i rest hwf
  obtain ⟨op, hop⟩ := opcode_of_wf hwf
  rw [encode_of_opcode hop]
  exact decode_of_opcode hop rest

/-- Settles O2: what decodes is assembled from the bytes consumed, so its opcode byte and operand bytes are these. -/
theorem encodeOfDecode : Obligations.EncodeOfDecode := by
  intro cfg bytes i rest h
  obtain ⟨op, b1, b2, rfl, rfl⟩ := decode_cases h
  refine ⟨assemble_wf cfg op b1 b2, ?_⟩
  rw [encode_of_opcode (assemble_opcode cfg op b1 b2).1, assemble_operand_bytes]
  rfl

/-- Settles O3, by the instruction assembled from the three bytes. -/
theorem everyOpcodeByteDecodes : Obligations.EveryOpcodeByteDecodes := by
  intro cfg op b1 b2 rest
  obtain ⟨hop, hlen⟩ := assemble_opcode cfg op b1 b2
  obtain ⟨hmin, hmax⟩ := Instr.length_range (assemble cfg op b1 b2)
  have hbytes : b1 :: b2 :: rest = (assemble cfg op b1 b2).operand.bytes ++
      (op :: b1 :: b2 :: rest).drop (assemble cfg op b1 b2).length := by
    rw [assemble_operand_bytes, ← hlen]
    interval_cases (assemble cfg op b1 b2).length <;> rfl
  have hdecode := decode_of_opcode hop ((op :: b1 :: b2 :: rest).drop (assemble cfg op b1 b2).length)
  rw [← hbytes] at hdecode
  exact ⟨_, _, hdecode, hop, hmin, hmax, rfl⟩

/-- Settles O4, each row by running the decoder on its bytes. -/
theorem specWordsDecode : Obligations.SpecWordsDecode :=
  ⟨rfl, rfl, rfl, rfl, rfl, rfl, rfl, rfl, rfl, rfl, rfl, rfl, rfl⟩

end Sys2Proof
end

section
/-! SUPPORT. Fetch and execute (R150-R155): a fetch outside the open band is the decoder on the bytes at PC, an entry
leaves the latch as the service has cleared it, and the no-ops change PC and CYC alone. -/

namespace Sys2Proof.Machine

/-! ## The step -/

/-- Where none of the `n` bytes from `a` up lies in the open band, reading one of them changes nothing (R75, R81). -/
theorem afterRead_of_bandBytes_eq_zero {n k : Nat} {a : Word} (hband : bandBytes a n = 0) (hk : k < n) (s : State) :
    afterRead (a + BitVec.ofNat 16 k) s = s := by
  induction n generalizing a k with
  | zero => cases hk
  | succ n ih =>
    simp only [bandBytes, Nat.add_eq_zero_iff, ite_eq_right_iff, one_ne_zero, imp_false] at hband
    obtain ⟨hfirst, hrest⟩ := hband
    cases k with
    | zero => simpa using afterRead_of_not_band hfirst s
    | succ k => rw [Nat.add_comm, BitVec.ofNat_add, ← BitVec.add_assoc]; exact ih hrest (Nat.lt_of_succ_lt_succ hk)

/-- Where no byte of the instruction lies in the open band, the fetch makes what the decoder does of the same bytes, as
many as the opcode byte's length counts, and draws nothing (R92, R151). -/
theorem fetchInstr_of_decode {cfg : Config} {s : State} {i : Instr} {rest : List Byte}
    (hdecode : decode cfg [s.peek s.pc, s.peek (s.pc + 1), s.peek (s.pc + 2)] = .ok (i, rest))
    (hband : bandBytes s.pc i.length = 0) : fetchInstr cfg s = (i, s) := by
  have hread (k : Nat) (hk : k < i.length) : afterRead (s.pc + BitVec.ofNat 16 k) s = s :=
    afterRead_of_bandBytes_eq_zero hband hk s
  have hread0 : afterRead s.pc s = s := by simpa using hread 0 (Instr.length_range i).1
  obtain hlen | hlen | hlen := lengthOf_cases cfg (s.peek s.pc) <;>
    simp only [decode, hlen] at hdecode <;> cases hdecode <;>
    simp only [(assemble_opcode cfg _ _ _).2, hlen] at hread
  case inl => simp [fetchInstr, memRead, hlen, hread0]
  case inr.inl => simp [fetchInstr, memRead, hlen, hread0, hread 1]
  case inr.inr => simp [fetchInstr, memRead, hlen, hread0, hread 1, hread 2]

/-- With nothing pending, the step under any parameters is the meaning of the instruction that the bytes at PC decode
to (R150, R151). -/
theorem stepWith_of_decode {cfg : Config} {s : State} {i : Instr} {rest : List Byte} (hready : Ready s)
    (hnone : s.pending = none)
    (hdecode : decode cfg [s.peek s.pc, s.peek (s.pc + 1), s.peek (s.pc + 2)] = .ok (i, rest))
    (hband : bandBytes s.pc i.length = 0) : stepWith cfg s = execWith cfg i s := by
  rw [stepWith_of_ready cfg hready hnone, fetchInstr_of_decode hdecode hband]

/-- Settles O41: `stepWith_of_decode` under any parameters, and `step` and `exec` are these at the defaults. -/
theorem stepRunsTheDecodedInstruction : Obligations.StepRunsTheDecodedInstruction := by
  refine ⟨fun s i rest hready hnone hdecode hband => ?_, exec_eq_execWith, step_eq_stepWith,
    fun _ _ _ _ => stepWith_of_decode⟩
  rw [step_eq_stepWith, exec_eq_execWith]
  exact stepWith_of_decode hready hnone hdecode hband

/-- No entry writes the latch, nor does the dropped Irq (R416-R419). -/
theorem interruptEntry_pending (cfg : Config) (e : Event) (s : State) :
    (interruptEntry cfg e s).pending = s.pending := by
  have htake (vector : Word) (pushed : Byte) (setsI : Bool) :
      (takeInterrupt vector pushed true setsI s).pending = s.pending :=
    ((ChangesOnly.refl (flags := [.d, .i]) s).takeInterrupt vector pushed true setsI).pending
  cases e
  case reset => rw [interruptEntry, enterReset_eq]; rfl
  case nmi => exact htake _ _ _
  case irq =>
    simp only [interruptEntry]
    split
    · rfl
    · exact htake _ _ _

/-- Settles O43: the step is the service, which clears the latch before an entry that does not write it. -/
theorem stepServicesTheLatch : Obligations.StepServicesTheLatch :=
  fun s e hready hpending => ⟨step_of_pending hready hpending, interruptEntry_pending hardware e (s.setPending none)⟩

/-! ## The no-operations -/

/-- Implied mode has no page to cross: the instruction costs its opcode's base cost (R152, R153). -/
theorem costOf_of_implied {cfg : Config} {i : Instr} {op : Byte} (hop : i.opcode cfg = some op)
    (himp : i.operand = .imp) (s : State) : costOf cfg i s = cfg.cycleCost op := by
  simp [costOf, hop, himp, pageCross, indexBase]

/-- An implied instruction whose operation does nothing changes PC by 1 and CYC to its base cost, and nothing else. -/
theorem execWith_of_implied_id {cfg : Config} {i : Instr} {op : Byte} (hop : i.opcode cfg = some op)
    (himp : i.operand = .imp) (s : State) (hid : ∀ t, operationOf cfg i t = t := by intro; rfl) :
    execWith cfg i s = .next { s with pc := s.pc + 1, cyc := cfg.cycleCost op } := by
  rw [execWith_of_wf (wf_of_opcode hop), hid, begun, costOf_of_implied hop himp, Instr.length, himp]
  rfl

/-- A byte without a dispatch entry is the opcode byte of its default no-op, whatever the parameters (R126). -/
theorem opcode_defaultNop {op : Byte} (hmem : op ∈ undispatched) (cfg : Config) :
    (Instr.defaultNop op).opcode cfg = some op := by
  have hentry : entryOf cfg op = noEntry op := List.forall_iff_forall_mem.1 (entryOf_undispatched cfg) op hmem
  have hmake : assemble cfg op 0 0 = .defaultNop op := congrArg (fun e => e.make 0 0) hentry
  exact hmake ▸ (assemble_opcode cfg op 0 0).1

/-- Settles O34: NOP and the default no-ops are implied instructions whose operation does nothing, and a default no-op
decodes from its opcode byte alone. -/
theorem nopsOnlyAdvance : Obligations.NopsOnlyAdvance := by
  have hnop : Instr.nop.opcode hardware = some 0xEA := rfl
  refine ⟨hnop, fun s => ?_, fun op hmem rest s => ?_⟩
  · rw [exec_eq_execWith]
    exact execWith_of_implied_id hnop rfl s
  · have hop := opcode_defaultNop hmem
    rw [exec_eq_execWith]
    exact ⟨decode_of_opcode (hop hardware) rest, execWith_of_implied_id (hop hardware) rfl s,
      fun cfg => ⟨decode_of_opcode (hop cfg) rest, execWith_of_implied_id (hop cfg) rfl s⟩⟩

end Sys2Proof.Machine
end

section
/-! SUPPORT. Addressing modes (R183-R194): the model's byte and word operations in natural numbers, the word that a
zero-page pointer names, and the page-crossing test as a comparison of pages. -/

namespace Sys2Proof.Machine

/-! ## The operations of the resolver in natural numbers -/

/-- Indexing a 16-bit base by an unsigned register wraps modulo 2^16 (R188, R189, R193). -/
theorem add_zext_toNat (base : Word) (index : Byte) :
    (base + zext index).toNat = (base.toNat + index.toNat) % 65536 := by
  rw [BitVec.toNat_add, zext_toNat]

/-- Indexing a zero-page address stays in the zero page (R185, R186). -/
theorem zext_add_toNat (base index : Byte) : (zext (base + index)).toNat = (base.toNat + index.toNat) % 256 := by
  rw [zext_toNat, BitVec.toNat_add]

/-- A branch target is PC and the signed offset, as an integer wrapped to 16 bits (R191). -/
theorem add_sext_eq_ofInt (pc : Word) (offset : Byte) :
    pc + sext offset = BitVec.ofInt 16 (pc.toNat + offset.toInt) := by
  rw [BitVec.ofInt_add, BitVec.ofInt_natCast, BitVec.ofNat_toNat, BitVec.setWidth_eq]
  rfl

/-- The zero-page address of a byte that a number names modulo 256. -/
theorem zext_eq_ofNat {b : Byte} {n : Nat} (h : b.toNat = n % 256) : zext b = BitVec.ofNat 16 (n % 256) := by
  rw [← h, ← zext_toNat, BitVec.ofNat_toNat, BitVec.setWidth_eq]

/-- `ReadWordZP` at `n`: low byte there, high byte at `n + 1`, both addresses taken modulo 256 (R12, R192, R193). -/
theorem peekWordZP_toNat (s : State) {b : Byte} {n : Nat} (h : b.toNat = n % 256) :
    (s.peekWordZP b).toNat =
      256 * (s.peek (BitVec.ofNat 16 ((n + 1) % 256))).toNat + (s.peek (BitVec.ofNat 16 (n % 256))).toNat := by
  have hnext : (b + 1).toNat = (n + 1) % 256 := by
    rw [BitVec.toNat_add, h]
    exact Nat.mod_add_mod n 256 1
  rw [State.peekWordZP, wordOf_toNat, zext_eq_ofNat h, zext_eq_ofNat hnext]

/-! ## The page-crossing test (R190) -/

/-- Two addresses are on different pages exactly when they differ after division by 256. -/
theorem pageCross_iff (m : Operand) (s : State) :
    pageCross m s = true ↔ (effAddr m s).toNat / 256 ≠ (indexBase m s).toNat / 256 := by
  rw [pageCross, bne_iff_ne, ← hiByte_toNat, ← hiByte_toNat, BitVec.toNat_ne_iff_ne]

/-- A mode that is its own index base crosses no page. -/
theorem pageCross_eq_false {m : Operand} {s : State} (h : indexBase m s = effAddr m s) : pageCross m s = false := by
  rw [pageCross, h, bne_self_eq_false]

/-- Only Absolute,X, Absolute,Y and (Ind),Y can cross a page: every other mode is its own index base. -/
theorem mode_of_pageCross {m : Operand} {s : State} (h : pageCross m s = true) :
    m.mode ∈ [Mode.abx, .aby, .izy] := by
  cases m
  case abx | aby | izy => simp [Operand.mode]
  all_goals exact absurd h (Bool.eq_false_iff.1 (pageCross_eq_false rfl))

/-! ## The statement -/

/-- Settles O5: each mode's address by the rule of its operation, and the page test by comparing the pages of the
address and of its base. -/
theorem effectiveAddresses : Obligations.EffectiveAddresses := by
  refine ⟨?_, fun m s => mode_of_pageCross⟩
  intro b w s cell pointer
  have hbase : (s.peekWordZP b).toNat = pointer b.toNat := peekWordZP_toNat s (Nat.mod_eq_of_lt b.isLt).symm
  have hizx : (effAddr (.izx b) s).toNat = pointer (b.toNat + s.x.toNat) :=
    peekWordZP_toNat s (BitVec.toNat_add b s.x)
  have hizy : (effAddr (.izy b) s).toNat = (pointer b.toNat + s.y.toNat) % 65536 := by
    rw [effAddr, add_zext_toNat, hbase]
  have habx : (effAddr (.abx w) s).toNat = (w.toNat + s.x.toNat) % 65536 := add_zext_toNat w s.x
  have haby : (effAddr (.aby w) s).toNat = (w.toNat + s.y.toNat) % 65536 := add_zext_toNat w s.y
  refine ⟨rfl, rfl, zext_toNat b, zext_add_toNat b s.x, zext_add_toNat b s.y, rfl, habx, haby,
    add_sext_eq_ofInt s.pc b, hizx, hizy, rfl, ?_, ?_, ?_⟩
  · rw [pageCross_iff, habx]; rfl
  · rw [pageCross_iff, haby]; rfl
  · rw [pageCross_iff, hizy, indexBase, hbase]

end Sys2Proof.Machine
end

section
/-! SUPPORT. Arithmetic, logic and compare (R210-R221, R361): an opcode list and its penalty marks, the frame of an
instruction that only reads its operand, the flags of each computation, and overflow as signed overflow. -/

namespace Sys2Proof.Machine

/-! ## Opcode lists -/

/-- In a list that gives no mode twice, the byte found for a mode is the byte listed with it. -/
theorem byteFor_eq_some_iff {forms : List (Mode × Byte)} (hnodup : (forms.map (·.1)).Nodup) {m : Mode} {op : Byte} :
    byteFor forms m = some op ↔ (m, op) ∈ forms := by
  refine ⟨mem_of_byteFor, fun hmem => ?_⟩
  have hfound : (byteFor forms m).isSome = true := by
    rw [byteFor_isSome, List.contains_iff_mem]
    exact List.mem_map_of_mem hmem
  obtain ⟨op', hop'⟩ := Option.isSome_iff_exists.1 hfound
  have hrow : (m, op') = (m, op) := List.inj_on_of_nodup_map hnodup (mem_of_byteFor hop') hmem rfl
  rw [hop', (Prod.mk.inj hrow).2]

/-- An operation has exactly the rows of its rule, where these are its opcode list, each byte with its penalty mark
(R154). -/
theorem opcodesAre_of_byteFor {f : Operand → Instr} {forms : List (Mode × Byte)} {rows : List (Mode × Byte × Bool)}
    (hforms : ∀ m, (f m).opcode hardware = byteFor forms m.mode := by intro; rfl)
    (hnodup : (forms.map (·.1)).Nodup := by decide)
    (hrows : forms.map (fun row => (row.1, row.2, penaltyBearing hardware row.2)) = rows := by decide) :
    OpcodesAre f rows := by
  intro m op
  rw [hforms, byteFor_eq_some_iff hnodup, ← hrows]
  simp

/-! ## Instructions that only read their operand (R156) -/

/-- A well-formed instruction of the read class acts on its operand's value, in a state whose draw counter alone the
read may have changed. -/
theorem exec_readClass {i : Instr} {m : Operand} {act : Byte → State → State} (hwf : i.wf hardware = true)
    (hop : operationOf hardware i = readClass m act) (hr : m.mode ≠ .rel) (s : State) :
    ∃ n, exec i s = .next (act (operandValue m s) ((begun hardware i s).setDraws n)) := by
  obtain ⟨n, hn⟩ := afterOperand_eq m (begun hardware i s)
  exact ⟨n, by rw [exec_of_wf hwf, hop, readClass, operandValue_begun m hardware i s hr, hn]⟩

/-- The frame of such an instruction: what its action does not write is as before, and so is memory; PC and CYC are
where the fetch has put them (R151, R152). -/
theorem frame_of_changesOnly {regs rs : List Reg} {flags fs : List Flag} {i : Instr} {s t : State} {n : Nat}
    (h : ChangesOnly regs flags ((begun hardware i s).setDraws n) t) (hrs : ∀ r ∈ rs, r ∉ regs := by decide)
    (hfs : ∀ f ∈ fs, f ∉ flags := by decide) (hmem : t.mem = s.mem := by rfl)
    (hpc : t.pc = s.pc + BitVec.ofNat 16 i.length := by rfl) (hcyc : t.cyc = costOf hardware i s := by rfl) :
    Keeps rs fs s t ∧ SameMemory s t ∧ FallsThrough i s t :=
  ⟨(((ChangesOnly.begun hardware i s).setDraws n).trans h).keeps hrs hfs, .of_mem hmem h.romPages, hpc, hcyc⟩

theorem nzFrom_setNZ (v : Byte) (s : State) : NZFrom v (setNZ v s) := by
  simp only [NZFrom, flag_setNZ]
  exact ⟨rfl, rfl⟩

/-! ## The flags of ADC, SBC and the compares (R210, R211, R216) -/

theorem addWithCarry_flag_c (m : Byte) (s : State) :
    (addWithCarry m s).flag .c = decide (0xFF < s.a.toNat + m.toNat + (s.flag .c).toNat) := by
  simp [addWithCarry]

theorem addWithCarry_flag_v (m : Byte) (s : State) :
    (addWithCarry m s).flag .v = ((~~~(s.a ^^^ m) &&& (s.a ^^^ (addWithCarry m s).a) &&& 0x80) != 0) := by
  simp only [addWithCarry, flag_setNZ, State.flag_setA, State.flag_setFlag]
  rfl

theorem subWithBorrow_flag_c (m : Byte) (s : State) :
    (subWithBorrow m s).flag .c = decide (0xFF < s.a.toNat + (m ^^^ 0xFF).toNat + (s.flag .c).toNat) := by
  simp [subWithBorrow]

theorem subWithBorrow_flag_v (m : Byte) (s : State) :
    (subWithBorrow m s).flag .v = (((s.a ^^^ m) &&& (s.a ^^^ (subWithBorrow m s).a) &&& 0x80) != 0) := by
  simp only [subWithBorrow, flag_setNZ, State.flag_setA, State.flag_setFlag]
  rfl

/-- SBC is ADC of the operand's complement: the two overflow formulas agree. -/
theorem subWithBorrow_eq_addWithCarry (m : Byte) (s : State) : subWithBorrow m s = addWithCarry (m ^^^ 0xFF) s := by
  have hsign : ~~~(s.a ^^^ (m ^^^ 0xFF)) = s.a ^^^ m := by
    rw [← BitVec.xor_assoc]
    exact (congrArg _ BitVec.xor_allOnes).trans BitVec.not_not
  simp only [subWithBorrow, addWithCarry, hsign]

theorem compare_flag_c (reg m : Byte) (s : State) :
    (compare reg m s).flag .c = decide (m.toNat ≤ reg.toNat) := by
  simp [compare]

/-! ## Overflow (R220) -/

/-- The top bit of a byte says that its unsigned value is 128 or more (R12). -/
theorem bit7_eq (v : Byte) : v.getLsbD 7 = decide (128 ≤ v.toNat) := by
  rw [← BitVec.msb_eq_getLsbD_last v, BitVec.msb_eq_decide]

/-- A byte of 128 or more stands for its unsigned value less 256. -/
theorem toInt_eq_sub (v : Byte) : v.toInt = v.toNat - if 128 ≤ v.toNat then 256 else 0 := by
  rw [BitVec.toInt_eq_toNat_cond]
  split <;> split <;> omega

theorem toNat_xor_ones (v : Byte) : (v ^^^ 0xFF).toNat = 255 - v.toNat :=
  (congrArg BitVec.toNat BitVec.xor_allOnes).trans BitVec.toNat_not

/-- The complement's signed value is `-v - 1`. -/
theorem toInt_xor_ones (v : Byte) : (v ^^^ 0xFF).toInt = -v.toInt - 1 := by
  rw [toInt_eq_sub, toInt_eq_sub, toNat_xor_ones]
  have := v.isLt
  split <;> split <;> omega

/-- Two operands of one sign with a result of the other: this is when the signed sum does not fit in a byte. -/
theorem overflow_formula_iff {a m r : Byte} {carry : Bool}
    (hr : r = BitVec.ofNat 8 (a.toNat + m.toNat + carry.toNat)) :
    ((~~~(a ^^^ m) &&& (a ^^^ r) &&& 0x80) != 0) = true ↔
      a.toInt + m.toInt + carry.toNat < -128 ∨ 127 < a.toInt + m.toInt + carry.toNat := by
  have hrNat : r.toNat = (a.toNat + m.toNat + carry.toNat) % 256 := by rw [hr, BitVec.toNat_ofNat]
  have hbit : ((~~~(a ^^^ m) &&& (a ^^^ r) &&& 0x80) != 0) =
      (!(a.getLsbD 7 ^^ m.getLsbD 7) && (a.getLsbD 7 ^^ r.getLsbD 7)) :=
    (flagOf_eq_bit (~~~(a ^^^ m) &&& (a ^^^ r)) .n).trans (by simp [Flag.index])
  have hcarry := carry.toNat_le
  have ha := a.isLt
  have hm := m.isLt
  -- The four cases of the operands' signs, in each of which both sides are a bound on the unsigned sum.
  rw [hbit, bit7_eq, bit7_eq, bit7_eq, hrNat, toInt_eq_sub a, toInt_eq_sub m]
  by_cases ha7 : 128 ≤ a.toNat <;> by_cases hm7 : 128 ≤ m.toNat <;> simp [ha7, hm7] <;> omega

theorem addWithCarry_flag_v_iff (m : Byte) (s : State) :
    (addWithCarry m s).flag .v = true ↔
      s.a.toInt + m.toInt + (s.flag .c).toNat < -128 ∨ 127 < s.a.toInt + m.toInt + (s.flag .c).toNat := by
  rw [addWithCarry_flag_v]
  exact overflow_formula_iff rfl

theorem addWithCarry_flag_c_iff (m : Byte) (s : State) :
    (addWithCarry m s).flag .c = true ↔ 256 ≤ s.a.toNat + m.toNat + (s.flag .c).toNat := by
  rw [addWithCarry_flag_c, decide_eq_true_eq]
  exact Iff.rfl

theorem subWithBorrow_flag_v_iff (m : Byte) (s : State) :
    (subWithBorrow m s).flag .v = true ↔
      s.a.toInt - m.toInt - (1 - (s.flag .c).toNat) < -128 ∨
        127 < s.a.toInt - m.toInt - (1 - (s.flag .c).toNat) := by
  rw [subWithBorrow_eq_addWithCarry, addWithCarry_flag_v_iff, toInt_xor_ones]
  omega

theorem subWithBorrow_flag_c_iff (m : Byte) (s : State) :
    (subWithBorrow m s).flag .c = true ↔ m.toNat + (1 - (s.flag .c).toNat) ≤ s.a.toNat := by
  rw [subWithBorrow_eq_addWithCarry, addWithCarry_flag_c_iff, toNat_xor_ones]
  have := m.isLt
  have := (s.flag .c).toNat_le
  omega

/-! ## The byte 0xEB (R361) -/

theorem opcode_sbcEB {cfg : Config} (h : cfg.ebIsSbc = true) (v : Byte) : (Instr.sbcEB v).opcode cfg = some 0xEB :=
  if_pos h

theorem opcode_defaultNop_EB {cfg : Config} (h : cfg.ebIsSbc = false) :
    (Instr.defaultNop 0xEB).opcode cfg = some 0xEB := by
  simp [Instr.opcode, h]

/-! ## The logic instructions and the compares in their frame -/

/-- A logic instruction with the operation `f` writes `f A M` to A, and N and Z from it (R212-R214). -/
theorem exec_logic {i : Instr} {m : Operand} {f : Byte → Byte → Byte} (hwf : i.wf hardware = true)
    (hop : operationOf hardware i = readClass m (fun v t => setNZ (f t.a v) (t.setA (f t.a v)))) (hr : m.mode ≠ .rel)
    (s : State) :
    ∃ t, exec i s = .next t ∧ t.a = f s.a (operandValue m s) ∧ NZFrom (f s.a (operandValue m s)) t ∧
      Keeps [.x, .y, .s] [.v, .r, .b, .d, .i, .c] s t ∧ SameMemory s t ∧ FallsThrough i s t := by
  obtain ⟨n, hexec⟩ := exec_readClass hwf hop hr s
  exact ⟨_, hexec, rfl, nzFrom_setNZ _ _,
    frame_of_changesOnly (regs := [.a]) (flags := [.n, .z]) (((ChangesOnly.refl _).setA _).setNZ _)⟩

/-- A compare instruction of the register `reg` writes C, N and Z and nothing else (R216). -/
theorem exec_compare {i : Instr} {m : Operand} {reg : State → Byte} (hwf : i.wf hardware = true)
    (hop : operationOf hardware i = readClass m (fun v t => compare (reg t) v t)) (hr : m.mode ≠ .rel) (s : State)
    (hreg : ∀ n, reg ((begun hardware i s).setDraws n) = reg s := by intro; rfl) :
    ∃ t, exec i s = .next t ∧ t.flag .c = decide ((operandValue m s).toNat ≤ (reg s).toNat) ∧
      NZFrom (reg s - operandValue m s) t ∧ Keeps [.a, .x, .y, .s] [.v, .r, .b, .d, .i] s t ∧ SameMemory s t ∧
      FallsThrough i s t := by
  obtain ⟨n, hexec⟩ := exec_readClass hwf hop hr s
  rw [hreg] at hexec
  exact ⟨_, hexec, compare_flag_c _ _ _, nzFrom_setNZ _ _, frame_of_changesOnly (.compare _ _ _)⟩

/-! ## The statements -/

/-- Settles O6: ADC reads its operand and runs `addWithCarry`. -/
theorem adcAddsWithCarry : Obligations.AdcAddsWithCarry := by
  refine ⟨opcodesAre_of_byteFor, fun m s hwf => ?_⟩
  obtain ⟨n, hexec⟩ := exec_readClass hwf rfl (mode_ne_of_contains hwf) s
  exact ⟨_, hexec, rfl, addWithCarry_flag_c _ _, addWithCarry_flag_v _ _, nzFrom_setNZ _ _,
    frame_of_changesOnly (.addWithCarry _ _)⟩

/-- Settles O7: both forms read their operand and run `subWithBorrow`; the decoder's answers for 0xEB are those for its
instruction, which is SBC or the default no-op as `EB_IS_SBC` says. -/
theorem sbcSubtractsWithBorrow : Obligations.SbcSubtractsWithBorrow := by
  refine ⟨opcodesAre_of_byteFor, fun v => ⟨rfl, fun s => rfl⟩,
    fun cfg v rest heb => decode_of_opcode (opcode_sbcEB heb v) rest,
    fun cfg rest s heb => ⟨decode_of_opcode (opcode_defaultNop_EB heb) rest,
      execWith_of_implied_id (opcode_defaultNop_EB heb) rfl s⟩, fun i m s hwf hi => ?_⟩
  have hread : operationOf hardware i = readClass m subWithBorrow ∧ m.mode ≠ .rel := by
    obtain rfl | ⟨v, rfl, rfl⟩ := hi
    · exact ⟨rfl, mode_ne_of_contains hwf⟩
    · exact ⟨rfl, nofun⟩
  obtain ⟨hop, hr⟩ := hread
  obtain ⟨n, hexec⟩ := exec_readClass hwf hop hr s
  exact ⟨_, hexec, rfl, subWithBorrow_flag_c _ _, subWithBorrow_flag_v _ _, nzFrom_setNZ _ _,
    frame_of_changesOnly (.subWithBorrow _ _)⟩

/-- Settles O8: ADC by the sign analysis of its formula; SBC as ADC of the complement, whose signed value is `-M - 1`
and whose unsigned value is `255 - M`. -/
theorem overflowIsSignedOverflow : Obligations.OverflowIsSignedOverflow := by
  intro m s t v c
  refine ⟨fun h => ?_, fun h => ?_⟩
  · have hwf := (exec_next h).1
    obtain ⟨n, hexec⟩ := exec_readClass hwf rfl (mode_ne_of_contains hwf) s
    cases h.symm.trans hexec
    exact ⟨addWithCarry_flag_v_iff _ _, addWithCarry_flag_c_iff _ _⟩
  · have hwf := (exec_next h).1
    obtain ⟨n, hexec⟩ := exec_readClass hwf rfl (mode_ne_of_contains hwf) s
    cases h.symm.trans hexec
    exact ⟨subWithBorrow_flag_v_iff _ _, subWithBorrow_flag_c_iff _ _⟩

/-- Settles O9, each instruction by `exec_logic` for its operation. -/
theorem logicWritesA : Obligations.LogicWritesA := by
  refine ⟨opcodesAre_of_byteFor, opcodesAre_of_byteFor, opcodesAre_of_byteFor, fun m s => ?_⟩
  simp only [List.forall_mem_cons]
  exact ⟨fun hwf => exec_logic (f := (· &&& ·)) hwf rfl (mode_ne_of_contains hwf) s,
    fun hwf => exec_logic (f := (· ||| ·)) hwf rfl (mode_ne_of_contains hwf) s,
    fun hwf => exec_logic (f := (· ^^^ ·)) hwf rfl (mode_ne_of_contains hwf) s, by simp⟩

/-- Settles O11, each instruction by `exec_compare` for its register. -/
theorem compareSetsFlagsOnly : Obligations.CompareSetsFlagsOnly := by
  refine ⟨opcodesAre_of_byteFor, opcodesAre_of_byteFor, opcodesAre_of_byteFor, fun m s => ?_⟩
  simp only [List.forall_mem_cons]
  exact ⟨fun hwf => exec_compare (reg := State.a) hwf rfl (mode_ne_of_contains hwf) s,
    fun hwf => exec_compare (reg := State.x) hwf rfl (mode_ne_of_contains hwf) s,
    fun hwf => exec_compare (reg := State.y) hwf rfl (mode_ne_of_contains hwf) s, by simp⟩

end Sys2Proof.Machine
end

section
/-! SUPPORT. The decimal flag (R221): it is read by no operand and by no computation of ADC, SBC, ISC or RRA, and each
of these commutes with writing it. -/

namespace Sys2Proof.Machine

/-! ## Writing two flags -/

/-- A status byte is determined by its eight flags (R35). -/
theorem eq_of_flagOf {p q : Byte} (h : ∀ f, flagOf p f = flagOf q f) : p = q := by
  refine BitVec.eq_of_getLsbD_eq fun k hk => ?_
  obtain ⟨f, rfl⟩ : ∃ f : Flag, f.index = k := by
    interval_cases k
    exacts [⟨.c, rfl⟩, ⟨.z, rfl⟩, ⟨.i, rfl⟩, ⟨.d, rfl⟩, ⟨.b, rfl⟩, ⟨.r, rfl⟩, ⟨.v, rfl⟩, ⟨.n, rfl⟩]
  rw [← flagOf_eq_bit, ← flagOf_eq_bit, h f]

/-- Two different flags may be written in either order (R44). -/
theorem State.setFlag_comm {f g : Flag} (hne : f ≠ g) (s : State) (v w : Bool) :
    (s.setFlag g w).setFlag f v = (s.setFlag f v).setFlag g w := by
  have hp : withFlag (withFlag s.p g w) f v = withFlag (withFlag s.p f v) g w := by
    refine eq_of_flagOf fun k => ?_
    simp only [flagOf_withFlag]
    by_cases hf : k = f
    · simp [hf, hne]
    · simp [hf]
  exact congrArg s.setP hp

/-- The same with the write of D moved outwards, the form that rewriting needs. -/
theorem State.setFlag_setFlag_d {f : Flag} (hf : f ≠ .d) (s : State) (v d : Bool) :
    (s.setFlag .d d).setFlag f v = (s.setFlag f v).setFlag .d d := State.setFlag_comm hf s v d

/-! ## The bus and the operands do not read the flags -/

@[simp] theorem State.setA_setFlag (s : State) (f : Flag) (v : Bool) (a : Byte) :
    (s.setFlag f v).setA a = (s.setA a).setFlag f v := rfl

@[simp] theorem afterRead_setFlag (a : Word) (s : State) (f : Flag) (v : Bool) :
    afterRead a (s.setFlag f v) = (afterRead a s).setFlag f v := by
  rw [afterRead_eq, afterRead_eq]; rfl

@[simp] theorem memWrite_setFlag (a : Word) (b : Byte) (s : State) (f : Flag) (v : Bool) :
    memWrite a b (s.setFlag f v) = (memWrite a b s).setFlag f v := by
  unfold memWrite
  cases writableCell a <;> rfl

@[simp] theorem effAddr_setFlag (m : Operand) (s : State) (f : Flag) (v : Bool) :
    effAddr m (s.setFlag f v) = effAddr m s := by
  cases m
  case ind w => simp [effAddr, resolveIndirect, memRead]
  all_goals rfl

@[simp] theorem operandValue_setFlag (m : Operand) (s : State) (f : Flag) (v : Bool) :
    operandValue m (s.setFlag f v) = operandValue m s := by
  cases m <;> simp [operandValue]

@[simp] theorem afterOperand_setFlag (m : Operand) (s : State) (f : Flag) (v : Bool) :
    afterOperand m (s.setFlag f v) = (afterOperand m s).setFlag f v := by
  cases m <;> simp [afterOperand]

@[simp] theorem writeOperand_setFlag (m : Operand) (ea : Word) (r : Byte) (s : State) (f : Flag) (v : Bool) :
    writeOperand m ea r (s.setFlag f v) = (writeOperand m ea r s).setFlag f v := by
  simp only [writeOperand_eq, memWrite_setFlag, State.setA_setFlag]
  split <;> rfl

@[simp] theorem indexBase_setFlag (m : Operand) (s : State) (f : Flag) (v : Bool) :
    indexBase m (s.setFlag f v) = indexBase m s := by
  cases m
  case izy b => rfl
  all_goals simp only [indexBase, effAddr_setFlag]

theorem begun_setFlag (cfg : Config) (i : Instr) (s : State) (f : Flag) (v : Bool) :
    begun cfg i (s.setFlag f v) = (begun cfg i s).setFlag f v := by
  simp only [begun, costOf, pageCross, effAddr_setFlag, indexBase_setFlag]; rfl

/-! ## The computations commute with writing D -/

theorem setNZ_setFlag_d (v : Byte) (s : State) (d : Bool) :
    setNZ v (s.setFlag .d d) = (setNZ v s).setFlag .d d := by
  simp (disch := decide) only [setNZ, State.setFlag_setFlag_d]

theorem addWithCarry_setFlag_d (m : Byte) (s : State) (d : Bool) :
    addWithCarry m (s.setFlag .d d) = (addWithCarry m s).setFlag .d d := by
  have hc : (s.setFlag .d d).flag .c = s.flag .c := State.flag_setFlag s .d .c d
  simp (disch := decide) only [addWithCarry, hc, State.setFlag_a, State.setFlag_setFlag_d, State.setA_setFlag,
    setNZ_setFlag_d]

theorem subWithBorrow_setFlag_d (m : Byte) (s : State) (d : Bool) :
    subWithBorrow m (s.setFlag .d d) = (subWithBorrow m s).setFlag .d d := by
  rw [subWithBorrow_eq_addWithCarry, subWithBorrow_eq_addWithCarry, addWithCarry_setFlag_d]

theorem increment_setFlag_d (v : Byte) (s : State) (d : Bool) :
    increment v (s.setFlag .d d) = ((increment v s).1, (increment v s).2.setFlag .d d) := by
  simp only [increment, setNZ_setFlag_d]

theorem rotateRight_setFlag_d (v : Byte) (s : State) (d : Bool) :
    rotateRight v (s.setFlag .d d) = ((rotateRight v s).1, (rotateRight v s).2.setFlag .d d) := by
  have hc : carryByte (s.setFlag .d d) = carryByte s := by simp [carryByte]
  simp (disch := decide) only [rotateRight, hc, State.setFlag_setFlag_d, setNZ_setFlag_d]

theorem readClass_setFlag_d {act : Byte → State → State} {d : Bool}
    (hact : ∀ v t, act v (t.setFlag .d d) = (act v t).setFlag .d d) (m : Operand) (s : State) :
    readClass m act (s.setFlag .d d) = (readClass m act s).setFlag .d d := by
  simp only [readClass, operandValue_setFlag, afterOperand_setFlag, hact]

theorem modifyClass_setFlag_d {compute : Byte → State → Byte × State} {act : Byte → State → State} {d : Bool}
    (hcompute : ∀ v t, compute v (t.setFlag .d d) = ((compute v t).1, (compute v t).2.setFlag .d d))
    (hact : ∀ v t, act v (t.setFlag .d d) = (act v t).setFlag .d d) (m : Operand) (s : State) :
    modifyClass m compute act (s.setFlag .d d) = (modifyClass m compute act s).setFlag .d d := by
  simp only [modifyClass, operandValue_setFlag, afterOperand_setFlag, effAddr_setFlag, hcompute, writeOperand_setFlag,
    hact]

/-! ## The statement -/

/-- An instruction whose operation commutes with writing D does the same from a state with another D. -/
theorem exec_setFlag_d {i : Instr} {s t : State} {d : Bool}
    (hop : ∀ u, operationOf hardware i (u.setFlag .d d) = (operationOf hardware i u).setFlag .d d)
    (h : exec i s = .next t) : exec i (s.setFlag .d d) = .next (t.setFlag .d d) := by
  obtain ⟨hwf, rfl⟩ := exec_next h
  rw [exec_of_wf hwf, begun_setFlag, hop]

/-- Settles O12: ADC and SBC read and compute, ISC and RRA modify and compute, each step of which commutes with writing
D. -/
theorem decimalFlagChangesNothing : Obligations.DecimalFlagChangesNothing := by
  intro m b d s t
  have hadd (v : Byte) (u : State) := addWithCarry_setFlag_d v u d
  have hsub (v : Byte) (u : State) := subWithBorrow_setFlag_d v u d
  have hadc := exec_setFlag_d (i := .adc m) (s := s) (t := t) (readClass_setFlag_d hadd m)
  have hsbc := exec_setFlag_d (i := .sbc m) (s := s) (t := t) (readClass_setFlag_d hsub m)
  have hsbcEB := exec_setFlag_d (i := .sbcEB b) (s := s) (t := t) (readClass_setFlag_d hsub (.imm b))
  have hisc := exec_setFlag_d (i := .isc m) (s := s) (t := t)
    (modifyClass_setFlag_d (fun v u => increment_setFlag_d v u d) hsub m)
  have hrra := exec_setFlag_d (i := .rra m) (s := s) (t := t)
    (modifyClass_setFlag_d (fun v u => rotateRight_setFlag_d v u d) hadd m)
  simpa only [List.forall_mem_cons, List.not_mem_nil, false_implies, implies_true, and_true] using
    ⟨hadc, hsbc, hsbcEB, hisc, hrra⟩

end Sys2Proof.Machine
end

section
/-! SUPPORT. Shifts, rotates, increments and decrements (R240-R249): each result in natural numbers, the run of a
read-modify-write instruction, and the frame of one that has no second operation or that steps an index register. -/

namespace Sys2Proof.Machine

/-! ## The results in natural numbers -/

theorem add_one_eq_ofNat (v : Byte) : v + 1 = BitVec.ofNat 8 (v.toNat + 1) := by
  rw [BitVec.ofNat_add, BitVec.ofNat_toNat, BitVec.setWidth_eq]
  rfl

/-- Stepping down is adding 255 modulo 256. -/
theorem sub_one_eq_ofNat (v : Byte) : v - 1 = BitVec.ofNat 8 (v.toNat + 255) := by
  rw [BitVec.ofNat_add, BitVec.ofNat_toNat, BitVec.setWidth_eq, BitVec.sub_eq_add_neg]
  rfl

theorem shiftLeft_one_eq_ofNat (v : Byte) : v <<< 1 = BitVec.ofNat 8 (2 * v.toNat) := by
  refine BitVec.eq_of_toNat_eq ?_
  rw [BitVec.toNat_shiftLeft, Nat.shiftLeft_eq, BitVec.toNat_ofNat, Nat.mul_comm, Nat.pow_one]

theorem shiftRight_one_eq_ofNat (v : Byte) : v >>> 1 = BitVec.ofNat 8 (v.toNat / 2) := by
  refine BitVec.eq_of_toNat_eq ?_
  rw [BitVec.toNat_ushiftRight, Nat.shiftRight_eq_div_pow, BitVec.toNat_ofNat]
  omega

/-- The carry enters at bit 0, which the shift has cleared (R242). -/
theorem shiftLeft_or_carry_eq_ofNat (v : Byte) (s : State) :
    (v <<< 1) ||| carryByte s = BitVec.ofNat 8 (2 * v.toNat + (s.flag .c).toNat) := by
  unfold carryByte
  generalize s.flag .c = c
  revert v c; decide

/-- The carry enters at bit 7, which the shift has cleared (R243). -/
theorem shiftRight_or_carry_eq_ofNat (v : Byte) (s : State) :
    (v >>> 1) ||| (carryByte s <<< 7) = BitVec.ofNat 8 (v.toNat / 2 + 128 * (s.flag .c).toNat) := by
  unfold carryByte
  generalize s.flag .c = c
  revert v c; decide

/-- On the byte `v`, with the status byte of `s`, the computation makes the result `r`, and writes P and nothing else:
the status `p` with N and Z from `r`. -/
def Computes (compute : Byte → State → Byte × State) (v : Byte) (s : State) (r p : Byte) : Prop :=
  ∀ u : State, u.p = s.p → compute v u = (r, u.setP (nzByte r p))

theorem State.flag_congr {s u : State} (h : u.p = s.p) (f : Flag) : u.flag f = s.flag f := congrArg (flagOf · f) h

theorem computes_shiftLeft (v : Byte) (s : State) :
    Computes shiftLeft v s (BitVec.ofNat 8 (2 * v.toNat)) (withFlag s.p .c (v.getLsbD 7)) :=
  fun u hu => by rw [shiftLeft_eq, shiftLeft_one_eq_ofNat, hu]

theorem computes_shiftRight (v : Byte) (s : State) :
    Computes shiftRight v s (BitVec.ofNat 8 (v.toNat / 2)) (withFlag s.p .c (v.getLsbD 0)) :=
  fun u hu => by rw [shiftRight_eq, shiftRight_one_eq_ofNat, hu]

theorem computes_rotateLeft (v : Byte) (s : State) :
    Computes rotateLeft v s (BitVec.ofNat 8 (2 * v.toNat + (s.flag .c).toNat)) (withFlag s.p .c (v.getLsbD 7)) :=
  fun u hu => by rw [rotateLeft_eq, shiftLeft_or_carry_eq_ofNat, State.flag_congr hu, hu]

theorem computes_rotateRight (v : Byte) (s : State) :
    Computes rotateRight v s (BitVec.ofNat 8 (v.toNat / 2 + 128 * (s.flag .c).toNat))
      (withFlag s.p .c (v.getLsbD 0)) :=
  fun u hu => by rw [rotateRight_eq, shiftRight_or_carry_eq_ofNat, State.flag_congr hu, hu]

theorem computes_increment (v : Byte) (s : State) : Computes increment v s (BitVec.ofNat 8 (v.toNat + 1)) s.p :=
  fun u hu => by rw [increment_eq, add_one_eq_ofNat, hu]

theorem computes_decrement (v : Byte) (s : State) : Computes decrement v s (BitVec.ofNat 8 (v.toNat + 255)) s.p :=
  fun u hu => by rw [decrement_eq, sub_one_eq_ofNat, hu]

/-! ## Read-modify-write instructions (R156) -/

@[simp] theorem writeOperand_p (m : Operand) (ea : Word) (r : Byte) (s : State) : (writeOperand m ea r s).p = s.p := by
  rw [writeOperand_eq]; split <;> simp

@[simp] theorem writeOperand_pc (m : Operand) (ea : Word) (r : Byte) (s : State) :
    (writeOperand m ea r s).pc = s.pc := by
  rw [writeOperand_eq]; split <;> simp

@[simp] theorem writeOperand_cyc (m : Operand) (ea : Word) (r : Byte) (s : State) :
    (writeOperand m ea r s).cyc = s.cyc := by
  rw [writeOperand_eq]; split <;> simp

section

variable {i : Instr} {m : Operand} {compute : Byte → State → Byte × State} {s : State} {r p : Byte}

/-- A well-formed read-modify-write instruction writes what it computes of its operand's value, and then acts on the
result; the read may have changed the draw counter (R81). -/
theorem exec_modifyClass {act : Byte → State → State} (hwf : i.wf hardware = true)
    (hop : operationOf hardware i = modifyClass m compute act) (hi : m.mode ≠ .imm) (hr : m.mode ≠ .rel)
    (hcompute : Computes compute (operandValue m s) s r p) :
    ∃ n, exec i s =
      .next (act r (writeOperand m (effAddr m s) r (((begun hardware i s).setDraws n).setP (nzByte r p)))) := by
  obtain ⟨n, hn⟩ := afterOperand_eq m (begun hardware i s)
  refine ⟨n, ?_⟩
  rw [exec_of_wf hwf, hop, modifyClass, operandValue_begun m hardware i s hr, effAddr_begun m hardware i s hi hr, hn,
    hcompute ((begun hardware i s).setDraws n) rfl]

/-- Where there is no second operation, the result stands in A or at the effective address, P is as computed, and the
instruction falls through. -/
theorem exec_modifyClass_noSecond (hwf : i.wf hardware = true)
    (hop : operationOf hardware i = modifyClass m compute noSecond) (hi : m.mode ≠ .imm) (hr : m.mode ≠ .rel)
    (hmem : Memory.wf s.mem = true) (hcompute : Computes compute (operandValue m s) s r p) :
    ∃ t, exec i s = .next t ∧ t.p = nzByte r p ∧ FallsThrough i s t ∧
      (if m = .acc then t.a = r ∧ SameMemory s t else t.a = s.a ∧ StoresByte (effAddr m s) r s t) := by
  obtain ⟨n, hexec⟩ := exec_modifyClass hwf hop hi hr hcompute
  refine ⟨_, hexec, writeOperand_p m _ r _, ⟨writeOperand_pc m _ r _, writeOperand_cyc m _ r _⟩, ?_⟩
  by_cases hm : m = .acc
  case pos =>
    simp only [noSecond, writeOperand_eq, if_pos hm]
    exact ⟨rfl, .of_mem rfl rfl⟩
  case neg =>
    simp only [noSecond, writeOperand_eq, if_neg hm]
    exact ⟨memWrite_a _ _ _, .of_mem hmem (memWrite_mem_congr (by rfl) _ _) (memWrite_romPages _ _ _)⟩

/-- N and Z come from `r` where P is what `SetNZ(r)` makes (R12). -/
theorem nzFrom_of_p {t : State} (h : t.p = nzByte r p) : NZFrom r t := by
  simp only [NZFrom, State.flag, h, flagOf_nzByte]
  exact ⟨rfl, rfl⟩

/-- A shift or a rotate: the bit shifted out goes to C, N and Z come from the result, and nothing else changes but the
place of the result (R240-R243). -/
theorem exec_shift {c : Bool} (hwf : i.wf hardware = true)
    (hop : operationOf hardware i = modifyClass m compute noSecond) (hmem : Memory.wf s.mem = true)
    (hcompute : Computes compute (operandValue m s) s r (withFlag s.p .c c))
    (hmodes : i.wf hardware = shiftModes.contains m.mode := by rfl)
    (hregs : registersWritten i = if m = .acc then [.a] else [] := by rfl)
    (hflags : flagsWritten i = [.n, .z, .c] := by rfl) :
    ∃ t, exec i s = .next t ∧ t.flag .c = c ∧ NZFrom r t ∧ Keeps [.x, .y, .s] [.v, .r, .b, .d, .i] s t ∧
      FallsThrough i s t ∧
      (if m = .acc then t.a = r ∧ SameMemory s t else t.a = s.a ∧ StoresByte (effAddr m s) r s t) := by
  have hmode := hmodes.symm.trans hwf
  obtain ⟨t, hexec, hp, hfall, hresult⟩ :=
    exec_modifyClass_noSecond hwf hop (mode_ne_of_contains hmode) (mode_ne_of_contains hmode) hmem hcompute
  have hcarry : t.flag .c = c := by simp [State.flag, hp, flagOf_withFlag]
  have hkeeps : Keeps [.x, .y, .s] [.v, .r, .b, .d, .i] s t :=
    (exec_changesOnly hexec).keeps (by rw [hregs]; split <;> decide) (by rw [hflags]; decide)
  exact ⟨t, hexec, hcarry, nzFrom_of_p hp, hkeeps, hfall, hresult⟩

/-- INC or DEC: N and Z come from the byte stored, and no register, no other flag and no other byte changes
(R244, R245). -/
theorem exec_incDec (hwf : i.wf hardware = true) (hop : operationOf hardware i = modifyClass m compute noSecond)
    (hmem : Memory.wf s.mem = true) (hcompute : Computes compute (operandValue m s) s r s.p)
    (hmodes : i.wf hardware = [Mode.zp, .zpx, .abs, .abx].contains m.mode := by rfl)
    (hregs : registersWritten i = [] := by rfl) (hflags : flagsWritten i = [.n, .z] := by rfl) :
    ∃ t, exec i s = .next t ∧ NZFrom r t ∧ Keeps [.a, .x, .y, .s] [.v, .r, .b, .d, .i, .c] s t ∧
      FallsThrough i s t ∧ StoresByte (effAddr m s) r s t := by
  have hmode := hmodes.symm.trans hwf
  obtain ⟨t, hexec, hp, hfall, hresult⟩ :=
    exec_modifyClass_noSecond hwf hop (mode_ne_of_contains hmode) (mode_ne_of_contains hmode) hmem hcompute
  rw [if_neg (ChangesOnly.ne_acc_of_mode hmode)] at hresult
  obtain ⟨-, hstores⟩ := hresult
  have hkeeps : Keeps [.a, .x, .y, .s] [.v, .r, .b, .d, .i, .c] s t :=
    (exec_changesOnly hexec).keeps (by rw [hregs]; decide) (by rw [hflags]; decide)
  exact ⟨t, hexec, nzFrom_of_p hp, hkeeps, hfall, hstores⟩

end

/-! ## Instructions that end by setting N and Z from a register -/

@[simp] theorem State.reg_setNZ (s : State) (v : Byte) (r : Reg) : (setNZ v s).reg r = s.reg r := by cases r <;> rfl

/-- An instruction whose operation writes `r` to a register and then sets N and Z from it, with memory, PC and CYC as
the fetch has left them: what its rule does not name is as before. -/
theorem exec_setNZ {i : Instr} {s u : State} {r : Byte} {reg : Reg} {rs : List Reg} {fs : List Flag}
    (hwf : i.wf hardware = true) (hop : operationOf hardware i (begun hardware i s) = setNZ r u) (hreg : u.reg reg = r)
    (hrs : ∀ q ∈ rs, q ∉ registersWritten i := by decide) (hfs : ∀ f ∈ fs, f ∉ flagsWritten i := by decide)
    (hmem : u.mem = s.mem := by rfl) (hpc : u.pc = s.pc + BitVec.ofNat 16 i.length := by rfl)
    (hcyc : u.cyc = costOf hardware i s := by rfl) :
    ∃ t, exec i s = .next t ∧ t.reg reg = r ∧ NZFrom r t ∧ Keeps rs fs s t ∧ SameMemory s t ∧
      FallsThrough i s t := by
  have hexec : exec i s = .next (setNZ r u) := by rw [exec_of_wf hwf, hop]
  have hchanges := exec_changesOnly hexec
  exact ⟨_, hexec, (State.reg_setNZ u r reg).trans hreg, nzFrom_setNZ r u, hchanges.keeps hrs hfs,
    .of_mem hmem hchanges.romPages, hpc, hcyc⟩

/-! ## The statements -/

/-- Settles O13, each instruction by `exec_shift` for its computation in natural numbers. -/
theorem shiftsAndRotates : Obligations.ShiftsAndRotates := by
  refine ⟨opcodesAre_of_byteFor, opcodesAre_of_byteFor, opcodesAre_of_byteFor, opcodesAre_of_byteFor,
    fun m s hmem => ?_⟩
  simp only [List.forall_mem_cons]
  exact ⟨fun hwf => exec_shift hwf rfl hmem (computes_shiftLeft _ _),
    fun hwf => exec_shift hwf rfl hmem (computes_shiftRight _ _),
    fun hwf => exec_shift hwf rfl hmem (computes_rotateLeft _ _),
    fun hwf => exec_shift hwf rfl hmem (computes_rotateRight _ _), by simp⟩

/-- Settles O14, each instruction by `exec_incDec` for its computation in natural numbers. -/
theorem incDecMemory : Obligations.IncDecMemory := by
  refine ⟨opcodesAre_of_byteFor, opcodesAre_of_byteFor, fun m s hmem => ?_⟩
  simp only [List.forall_mem_cons]
  exact ⟨fun hwf => exec_incDec hwf rfl hmem (computes_increment _ _),
    fun hwf => exec_incDec hwf rfl hmem (computes_decrement _ _), by simp⟩

/-- Settles O15, each instruction by `exec_setNZ` for its register. -/
theorem incDecIndexRegisters : Obligations.IncDecIndexRegisters := by
  intro s
  simp only [List.forall_mem_cons, ← add_one_eq_ofNat, ← sub_one_eq_ofNat]
  exact ⟨⟨rfl, exec_setNZ rfl rfl rfl⟩, ⟨rfl, exec_setNZ rfl rfl rfl⟩, ⟨rfl, exec_setNZ rfl rfl rfl⟩,
    ⟨rfl, exec_setNZ rfl rfl rfl⟩, by simp⟩

end Sys2Proof.Machine
end

section
/-! SUPPORT. Branches and jumps (R270-R280): where each operation takes PC and what it adds to CYC, and the run of a
branch and of JMP in their frame. -/

namespace Sys2Proof.Machine

/-! ## Branches (R270) -/

/-- A branch that is not taken does nothing. -/
theorem branchIf_of_not_taken {taken : State → Bool} {s : State} (h : ¬ taken s = true) (offset : Byte) :
    branchIf taken offset s = s := if_neg h

/-- A branch that is taken jumps by the signed offset from PC, for one cycle, or two where it leaves PC's page. -/
theorem branchIf_of_taken {taken : State → Bool} {s : State} (h : taken s = true) (offset : Byte) :
    let target := BitVec.ofInt 16 (s.pc.toNat + offset.toInt)
    branchIf taken offset s =
      (s.setCyc (s.cyc + if hiByte target = hiByte s.pc then 1 else 2)).setPc target := by
  intro target
  have htarget : effAddr (.rel offset) s = target := add_sext_eq_ofInt s.pc offset
  unfold branchIf
  rw [htarget, if_pos h]
  by_cases hpage : hiByte target = hiByte s.pc <;> simp [hpage]

/-- A branch's operation runs with PC at the next instruction and CYC at 2 (R153). -/
theorem begun_branch {i : Instr} {offset : Byte} (h : i ∈ branches offset) (s : State) :
    begun hardware i s = (s.setPc (s.pc + 2)).setCyc 2 := by
  have hlength : i.length = 2 := by
    simp only [branches, List.mem_cons, List.not_mem_nil, or_false] at h
    rcases h with rfl | rfl | rfl | rfl | rfl | rfl | rfl | rfl <;> rfl
  rw [begun, hlength, costOf_branch h]
  rfl

/-- A branch that is taken where the flag `f` has the value `v`: its target, its cost and its frame. -/
theorem exec_branch {i : Instr} {offset : Byte} {taken : State → Bool} {f : Flag} {v : Bool}
    (htaken : ∀ u, taken u = true ↔ u.flag f = v) (s : State) (hmem : i ∈ branches offset := by simp [branches])
    (hwf : i.wf hardware = true := by rfl) (hop : operationOf hardware i = branchIf taken offset := by rfl) :
    ∃ t, exec i s = .next t ∧
      let next := s.pc + 2
      let target := BitVec.ofInt 16 (next.toNat + offset.toInt)
      (if s.flag f = v then t.pc = target ∧ t.cyc = (if hiByte target = hiByte next then 3 else 4)
        else t.pc = next ∧ t.cyc = 2) ∧
      Keeps [.a, .x, .y, .s] [.n, .v, .r, .b, .d, .i, .z, .c] s t ∧ SameMemory s t := by
  have hchanges : ChangesOnly [] [] s (branchIf taken offset (begun hardware i s)) :=
    (ChangesOnly.begun hardware i s).trans (.branchIf taken offset _)
  refine ⟨_, by rw [exec_of_wf hwf, hop], ?_, hchanges.keeps (by simp) (by simp),
    .of_mem (branchIf_mem taken offset _) hchanges.romPages⟩
  rw [begun_branch hmem]
  have hstart : taken ((s.setPc (s.pc + 2)).setCyc 2) = true ↔ s.flag f = v := htaken _
  by_cases hflag : s.flag f = v
  case pos =>
    rw [if_pos hflag, branchIf_of_taken (hstart.2 hflag)]
    exact ⟨rfl, apply_ite (2 + ·) _ 1 2⟩
  case neg =>
    rw [if_neg hflag, branchIf_of_not_taken (mt hstart.1 hflag)]
    exact ⟨rfl, rfl⟩

/-! ## JMP (R279, R280) -/

@[simp] theorem jump_pc (m : Operand) (s : State) : (jump m s).pc = effAddr m s := by cases m <;> rfl

@[simp] theorem jump_cyc (m : Operand) (s : State) : (jump m s).cyc = s.cyc := (StoresOnly.jump (stored := []) m s).cyc

@[simp] theorem jump_mem (m : Operand) (s : State) : (jump m s).mem = s.mem := by
  cases m
  case ind w => simp [jump, resolveIndirect, memRead]
  all_goals rfl

/-- JMP takes PC to its operand's effective address and changes nothing else; neither of its modes has a page to cross. -/
theorem exec_jmp {m : Operand} {op : Byte} (hop : (Instr.jmp m).opcode hardware = some op) (s : State) :
    ∃ t, exec (.jmp m) s = .next t ∧ t.pc = effAddr m s ∧ t.cyc = cycleCost op ∧
      Keeps [.a, .x, .y, .s] [.n, .v, .r, .b, .d, .i, .z, .c] s t ∧ SameMemory s t := by
  have hwf := wf_of_opcode hop
  have hexec := exec_of_wf hwf s
  have hchanges := exec_changesOnly hexec
  refine ⟨_, hexec, ?_, ?_, hchanges.keeps (by simp [registersWritten]) (by simp [flagsWritten]),
    .of_mem (jump_mem m _) hchanges.romPages⟩
  · rw [operationOf, jump_pc, effAddr_begun m _ _ s (mode_ne_of_contains hwf) (mode_ne_of_contains hwf)]
  · have hpage : pageCross m s = false := by
      cases m
      case abs | ind => exact pageCross_eq_false rfl
      all_goals cases hwf
    simp only [operationOf, jump_cyc, begun_cyc, costOf, hop, Instr.operand, hpage, Bool.and_false]
    rfl

/-! ## The statements -/

/-- Settles O16, each branch by `exec_branch` for its flag. -/
theorem branchesOnOneFlag : Obligations.BranchesOnOneFlag := by
  have hset (f : Flag) (u : State) : u.flag f = true ↔ u.flag f = true := Iff.rfl
  have hclear (f : Flag) (u : State) : (!u.flag f) = true ↔ u.flag f = false := by rw [Bool.not_eq_true']
  unfold Obligations.BranchesOnOneFlag
  simp only [List.forall_mem_cons]
  exact ⟨fun _ s => ⟨rfl, exec_branch (hclear .n) s⟩, fun _ s => ⟨rfl, exec_branch (hset .n) s⟩,
    fun _ s => ⟨rfl, exec_branch (hclear .v) s⟩, fun _ s => ⟨rfl, exec_branch (hset .v) s⟩,
    fun _ s => ⟨rfl, exec_branch (hclear .c) s⟩, fun _ s => ⟨rfl, exec_branch (hset .c) s⟩,
    fun _ s => ⟨rfl, exec_branch (hclear .z) s⟩, fun _ s => ⟨rfl, exec_branch (hset .z) s⟩, by simp⟩

/-- Settles O17: the opcode list is JMP's, and each form is `exec_jmp` with the effective address of its mode. -/
theorem jumpsToTheTarget : Obligations.JumpsToTheTarget :=
  ⟨opcodesAre_of_byteFor, fun w s => ⟨exec_jmp (m := .abs w) rfl s, exec_jmp (m := .ind w) rfl s⟩⟩

end Sys2Proof.Machine
end

section
/-! SUPPORT. The stack, calls and interrupts (R290-R298, R417, R418): what pushes leave to be read, the bytes of an
interrupt's frame, the frame of an instruction that completes, and that RTS and RTI undo what JSR and an entry push. -/

namespace Sys2Proof.Machine

/-! ## Pushes and pulls (R290, R77) -/

/-- A push changes no other byte of the stack. -/
theorem peek_push_stackAddr_of_ne {sp : Byte} {s : State} (h : sp ≠ s.sp) (v : Byte) :
    (push v s).peek (stackAddr sp) = s.peek (stackAddr sp) :=
  peek_push_other v s (mt (sharesCell_stackAddr sp s.sp).1 h)

/-- Two pushes read back at the two stack bytes they store. -/
theorem peek_push_push (v w : Byte) {s : State} (hmem : Memory.wf s.mem = true) :
    (push w (push v s)).peek (stackAddr s.sp) = v ∧ (push w (push v s)).peek (stackAddr (s.sp - 1)) = w := by
  have hne : s.sp ≠ (push v s).sp := by rw [push_sp]; bv_omega
  constructor
  · rw [peek_push_stackAddr_of_ne hne, peek_push_same v s hmem]
  · simpa using peek_push_same w (push v s) (push_wf v s hmem)

/-- Any number of pushes lower S by that number, modulo 256, and change no byte outside page 1. -/
theorem foldl_push (bytes : List Byte) (s : State) :
    (bytes.foldl (fun u b => push b u) s).sp = s.sp - BitVec.ofNat 8 bytes.length ∧
      ∀ a : Word, (∀ sp, ¬ SharesCell a (stackAddr sp)) →
        (bytes.foldl (fun u b => push b u) s).peek a = s.peek a := by
  induction bytes generalizing s with
  | nil => simp
  | cons b bytes ih =>
    obtain ⟨hsp, hpeek⟩ := ih (push b s)
    refine ⟨?_, fun a ha => (hpeek a ha).trans (peek_push_other b s (ha s.sp))⟩
    rw [List.foldl_cons, hsp, push_sp, List.length_cons]
    bv_omega

/-- Settles O60: the address by `stackAddr_toNat`, the pushes by induction on their list, and the pull because it reads
the byte that the push has stored. -/
theorem pushesStayInPageOne : Obligations.PushesStayInPageOne := by
  refine ⟨stackAddr_toNat, foldl_push, fun v s hmem => ?_⟩
  rw [pull_eq, push_sp, BitVec.sub_add_cancel]
  exact ⟨peek_push_same v s hmem, rfl⟩

/-! ## The frame of an instruction -/

/-- A well-formed instruction completes in the state `t` that its operation makes of `begun`; what its rule does not
name is as before, and so is every byte that it does not store. -/
theorem exec_frame {i : Instr} {s t : State} (hwf : i.wf hardware = true)
    (ht : operationOf hardware i (begun hardware i s) = t) :
    exec i s = .next t ∧ ChangesOnly (registersWritten i) (flagsWritten i) s t ∧
      SameMemoryOutside (storedAddresses i s) s t :=
  have hexec : exec i s = .next t := ht ▸ exec_of_wf hwf s
  ⟨hexec, exec_changesOnly hexec, memoryChangesOnlyWhereStored _ _ _ hexec⟩

/-- A run answers one next state. -/
theorem next_unique {r : Result} {t u : State} (ht : r = .next t) (hu : r = .next u) : t = u := by
  cases ht.symm.trans hu; rfl

/-- Where nothing is stored, memory is as before. -/
theorem SameMemoryOutside.sameMemory {s t : State} (h : SameMemoryOutside [] s t) : SameMemory s t :=
  fun a ha => h a ha (by simp)

theorem Keeps.reg {rs : List Reg} {fs : List Flag} {s t : State} (h : Keeps rs fs s t) {r : Reg} (hr : r ∈ rs) :
    t.reg r = s.reg r := h.1 r hr

/-- P is as before where all its flags are (R35). -/
theorem Keeps.p_eq {rs : List Reg} {s t : State} (h : Keeps rs [.n, .v, .r, .b, .d, .i, .z, .c] s t) : t.p = s.p := by
  obtain ⟨-, hflags, -⟩ := h
  exact eq_of_flagOf fun f => hflags f (by cases f <;> decide)

/-! ## PHA, PHP, PLA and PLP (R291-R294) -/

/-- The status byte that PHP and BRK push has both B and R set (R40, R41). -/
theorem pushedStatus_eq (p : Byte) : pushedStatus p = p ||| 0x30 := BitVec.or_assoc p 0x10 0x20

/-- An instruction whose operation is one push: the byte pushed stands at the stack byte of S, S is one less, and
nothing else changes (R291, R292). -/
theorem exec_push {i : Instr} {s : State} {v : Byte} (hmem : Memory.wf s.mem = true)
    (hop : operationOf hardware i (begun hardware i s) = push v (begun hardware i s))
    (hwf : i.wf hardware = true := by rfl) (hregs : registersWritten i = [.s] := by rfl)
    (hflags : flagsWritten i = [] := by rfl) (hstored : storedAddresses i s = [stackAddr s.sp] := by rfl) :
    ∃ t, exec i s = .next t ∧ t.peek (stackAddr s.sp) = v ∧ t.sp = s.sp - 1 ∧
      Keeps [.a, .x, .y] [.n, .v, .r, .b, .d, .i, .z, .c] s t ∧ SameMemoryOutside [stackAddr s.sp] s t ∧
      FallsThrough i s t := by
  obtain ⟨hexec, hchanges, hmemory⟩ := exec_frame hwf hop
  exact ⟨_, hexec, peek_push_same v (begun hardware i s) hmem, push_sp _ _,
    hchanges.keeps (by rw [hregs]; decide) (by rw [hflags]; decide), hstored ▸ hmemory, push_pc _ _, push_cyc _ _⟩

/-- Settles O18, each instruction by `exec_push` for the byte it pushes. -/
theorem pushesStoreOneByte : Obligations.PushesStoreOneByte := by
  refine ⟨rfl, rfl, fun s hmem => ?_⟩
  simp only [List.forall_mem_cons]
  exact ⟨exec_push hmem rfl, exec_push hmem (by rw [← pushedStatus_eq]; rfl), by simp⟩

/-- PLA changes S, A, N and Z and nothing else (R293). -/
theorem operationOf_pla_eq (cfg : Config) (s : State) :
    operationOf cfg .pla s =
      setNZ (s.peek (stackAddr (s.sp + 1))) ((s.setSp (s.sp + 1)).setA (s.peek (stackAddr (s.sp + 1)))) := by
  simp only [operationOf, pull_eq]

/-- Settles O19: the pull is `operationOf_pla_eq` and `pullStatus_eq`, and what these do not write is the frame of the
instruction. -/
theorem pullsReadOneByte : Obligations.PullsReadOneByte := by
  refine ⟨rfl, rfl, fun s => ⟨?_, ?_⟩⟩
  · obtain ⟨hexec, hchanges, hmemory⟩ := exec_frame rfl (operationOf_pla_eq hardware (begun hardware .pla s))
    exact ⟨_, hexec, rfl, nzFrom_setNZ _ _, rfl, hchanges.keeps (by decide) (by decide), hmemory.sameMemory, rfl, rfl⟩
  · obtain ⟨hexec, hchanges, hmemory⟩ := exec_frame (i := .plp) rfl (pullStatus_eq (begun hardware .plp s))
    exact ⟨_, hexec, rfl, rfl, hchanges.keeps (by decide) (by decide), hmemory.sameMemory, rfl, rfl⟩

/-! ## JSR and RTS (R295, R296) -/

/-- JSR pushes the bytes of the address of its last byte, high byte first, and jumps (R295). -/
theorem operationOf_jsr_begun (target : Word) (s : State) :
    operationOf hardware (.jsr target) (begun hardware (.jsr target) s) =
      (push (loByte (s.pc + 2)) (push (hiByte (s.pc + 2)) (begun hardware (.jsr target) s))).setPc target := by
  have hret : (begun hardware (.jsr target) s).pc - 1 = s.pc + 2 := by
    change s.pc + 3 - 1 = s.pc + 2; bv_omega
  rw [operationOf, callSubroutine, hret]

/-- Settles O20: the two pushes of `operationOf_jsr_begun` read back by `peek_push_push`. -/
theorem jsrPushesItsLastByteAddress : Obligations.JsrPushesItsLastByteAddress := by
  refine fun target s => ⟨rfl, fun hmem => ?_⟩
  obtain ⟨hexec, hchanges, hmemory⟩ := exec_frame rfl (operationOf_jsr_begun target s)
  obtain ⟨hhigh, hlow⟩ :=
    peek_push_push (hiByte (s.pc + 2)) (loByte (s.pc + 2)) (s := begun hardware (.jsr target) s) hmem
  refine ⟨_, hexec, hhigh, hlow, ?_, rfl, ?_, hchanges.keeps (by simp [registersWritten]) (by simp [flagsWritten]),
    hmemory⟩
  · simp [BitVec.sub_sub]
  · simp only [State.setPc_cyc, push_cyc]; rfl

/-- RTS changes S and PC and nothing else (R296). -/
theorem returnFromSubroutine_eq (s : State) :
    returnFromSubroutine s =
      (s.setSp (s.sp + 2)).setPc (wordOf (s.peek (stackAddr (s.sp + 1))) (s.peek (stackAddr (s.sp + 2))) + 1) := by
  simp only [returnFromSubroutine, pullWord_eq, BitVec.add_assoc]
  rfl

/-- Settles O21: `returnFromSubroutine_eq` in the frame of RTS. -/
theorem rtsPullsAndAddsOne : Obligations.RtsPullsAndAddsOne := by
  refine fun s => ⟨rfl, ?_⟩
  obtain ⟨hexec, hchanges, hmemory⟩ := exec_frame (i := .rts) rfl (returnFromSubroutine_eq (begun hardware .rts s))
  exact ⟨_, hexec, rfl, rfl, costOf_of_implied (i := .rts) rfl rfl s, hchanges.keeps (by decide) (by decide),
    hmemory.sameMemory⟩

/-- Settles O24: RTS pulls the word that JSR has pushed, the address of its last byte, and goes on one past it. -/
theorem rtsUndoesJsr : Obligations.RtsUndoesJsr := by
  intro target s t u hmem hjsr hrts
  obtain ⟨t', hjsr', hhigh, hlow, hsp, -, -, hkeepsCall, -⟩ := (jsrPushesItsLastByteAddress target s).2 hmem
  obtain rfl := next_unique hjsr hjsr'
  obtain ⟨u', hrts', hpc, hspReturn, -, hkeepsReturn, -⟩ := (rtsPullsAndAddsOne t).2
  obtain rfl := next_unique hrts hrts'
  have hsp1 : t.sp + 1 = s.sp - 1 := by rw [hsp]; bv_omega
  have hsp2 : t.sp + 2 = s.sp := by rw [hsp]; bv_omega
  rw [hsp1, hsp2, hlow, hhigh, wordOf_lo_hi, BitVec.add_assoc] at hpc
  have hreg {r : Reg} (hr : r ∈ [Reg.a, .x, .y]) : u.reg r = s.reg r := (hkeepsReturn.reg hr).trans (hkeepsCall.reg hr)
  exact ⟨hpc, hspReturn.trans hsp2, hkeepsReturn.p_eq.trans hkeepsCall.p_eq, hreg (r := .a) (by simp),
    hreg (r := .x) (by simp), hreg (r := .y) (by simp)⟩

/-! ## Interrupts, BRK and RTI (R297, R298, R417, R418) -/

/-- Memory and S of `t` hold the frame of an interrupt taken in `s`: PC, high byte first, then a status byte (R417). -/
structure HoldsFrame (pushed : Byte) (s t : State) : Prop where
  high : t.peek (stackAddr s.sp) = hiByte s.pc
  low : t.peek (stackAddr (s.sp - 1)) = loByte s.pc
  status : t.peek (stackAddr (s.sp - 2)) = pushed
  sp : t.sp = s.sp - 3

/-- The three pushes of a frame read back. -/
theorem HoldsFrame.pushFrame (pushed : Byte) {s : State} (hmem : Memory.wf s.mem = true) :
    HoldsFrame pushed s (pushFrame pushed s) := by
  obtain ⟨hhigh, hlow⟩ := peek_push_push (hiByte s.pc) (loByte s.pc) hmem
  have hwf := push_wf (loByte s.pc) _ (push_wf (hiByte s.pc) s hmem)
  have hsp : (push (loByte s.pc) (push (hiByte s.pc) s)).sp = s.sp - 2 := by simp [BitVec.sub_sub]
  have hne0 : s.sp ≠ s.sp - 2 := by bv_omega
  have hne1 : s.sp - 1 ≠ s.sp - 2 := by bv_omega
  refine ⟨?_, ?_, hsp ▸ peek_push_same pushed _ hwf, ?_⟩
  · exact (peek_push_stackAddr_of_ne (hsp ▸ hne0) pushed).trans hhigh
  · exact (peek_push_stackAddr_of_ne (hsp ▸ hne1) pushed).trans hlow
  · simp [Machine.pushFrame, BitVec.sub_sub]

/-- Taking an interrupt leaves its frame on the stack (R417, R418, R298). -/
theorem HoldsFrame.takeInterrupt {vector : Word} (h : 0x8000 ≤ vector.toNat) (h1 : 0x8000 ≤ (vector + 1).toNat)
    (pushed : Byte) (clearsD setsI : Bool) {s : State} (hmem : Memory.wf s.mem = true) :
    HoldsFrame pushed s (takeInterrupt vector pushed clearsD setsI s) := by
  obtain ⟨p, heq, -⟩ := takeInterrupt_eq vector h h1 pushed clearsD setsI s
  rw [heq]
  exact { HoldsFrame.pushFrame pushed hmem with }

/-- Settles O22: `returnFromInterrupt_eq` in the frame of RTI. -/
theorem rtiRestoresStatusAndPc : Obligations.RtiRestoresStatusAndPc := by
  refine fun s => ⟨rfl, ?_⟩
  have hop := returnFromInterrupt_eq (begun hardware .rti s)
  simp only [BitVec.add_assoc] at hop
  obtain ⟨hexec, hchanges, hmemory⟩ := exec_frame (i := .rti) rfl hop
  exact ⟨_, hexec, rfl, rfl, rfl, costOf_of_implied (i := .rti) rfl rfl s, hchanges.keeps (by decide) (by decide),
    hmemory.sameMemory⟩

/-- The state in which BRK takes the interrupt: PC past its padding byte, and B set (R298). -/
def brkMarked (cfg : Config) (s : State) : State := ((begun cfg .brk s).setPc (s.pc + 2)).setFlag .b true

/-- BRK pushes PC + 2 and P with B and R set, writes B, D and I of P, and takes PC from the Irq vector (R298). -/
theorem operationOf_brk_begun (cfg : Config) (s : State) :
    ∃ p, operationOf cfg .brk (begun cfg .brk s) =
        ((pushFrame (s.p ||| 0x30) (brkMarked cfg s)).setP p).setPc (wordOf (s.peek 0xFFFE) (s.peek 0xFFFF)) ∧
      flagOf p .d = (if cfg.brkClearsD then false else s.flag .d) ∧
      flagOf p .i = (if cfg.brkSetsI then true else s.flag .i) ∧ flagOf p .b = true := by
  have hpc : (begun cfg .brk s).pc + 1 = s.pc + 2 := by
    change s.pc + 1 + 1 = s.pc + 2; bv_omega
  have hpushed : s.p ||| 0x10 ||| 0x20 = s.p ||| 0x30 := BitVec.or_assoc _ _ _
  have htake : operationOf cfg .brk (begun cfg .brk s) =
      takeInterrupt irqVector (s.p ||| 0x30) cfg.brkClearsD cfg.brkSetsI (brkMarked cfg s) := by
    rw [operationOf, softwareInterrupt, hpc, ← hpushed]; rfl
  obtain ⟨p, heq, hflags⟩ := takeInterrupt_eq irqVector (by decide) (by decide) (s.p ||| 0x30) cfg.brkClearsD
    cfg.brkSetsI (brkMarked cfg s)
  exact ⟨p, htake.trans heq, by simp [hflags, brkMarked], by simp [hflags, brkMarked], by simp [hflags, brkMarked]⟩

/-- Settles O23: the frame of `operationOf_brk_begun` reads back, and the pushes neither draw nor cost anything. -/
theorem brkTakesTheIrqVector : Obligations.BrkTakesTheIrqVector := by
  refine ⟨rfl, fun s hmem => ?_, fun cfg s => ?_⟩
  · obtain ⟨p, hop, hd, hi, hb⟩ := operationOf_brk_begun hardware s
    obtain ⟨hexec, hchanges, hmemory⟩ := exec_frame rfl hop
    obtain ⟨hhigh, hlow, hstatus, hsp⟩ := HoldsFrame.pushFrame (s.p ||| 0x30) (s := brkMarked hardware s) hmem
    have hcost : costOf hardware .brk s = 7 := costOf_of_implied (i := .brk) rfl rfl s
    exact ⟨_, hexec, hhigh, hlow, hstatus, hsp, hb, hd, hi, rfl, by simp [pushFrame, brkMarked, hcost],
      by simp [pushFrame, brkMarked], hchanges.keeps (by decide) (by decide), hmemory⟩
  · obtain ⟨p, hop, hflags⟩ := operationOf_brk_begun cfg s
    exact ⟨_, execWith_of_wf rfl s, hop ▸ hflags⟩

/-- The Nmi entry and the unmasked Irq entry take an interrupt through their vector, with B clear in the byte pushed
(R417, R418). -/
theorem interruptEntry_eq_takeInterrupt (cfg : Config) {e : Event} {s : State} (hreset : e ≠ .reset)
    (hirq : e = .irq → s.flag .i = false) :
    ∃ vector setsI, 0x8000 ≤ vector.toNat ∧ 0x8000 ≤ (vector + 1).toNat ∧
      interruptEntry cfg e s = (takeInterrupt vector (s.p &&& ~~~0x10) true setsI s).setCyc 7 := by
  cases e
  case reset => exact absurd rfl hreset
  case nmi => exact ⟨nmiVector, cfg.nmiEntrySetsI, by decide, by decide, rfl⟩
  case irq =>
    refine ⟨irqVector, cfg.irqEntrySetsI, by decide, by decide, ?_⟩
    rw [interruptEntry, hirq rfl]; rfl

/-- After an Nmi or unmasked Irq entry the frame is on the stack, A, X and Y are as before, and so is every byte but the
frame's three (R417, R418). -/
theorem serviceEvent_holdsFrame (cfg : Config) {e : Event} {s : State} (hmem : Memory.wf s.mem = true)
    (hreset : e ≠ .reset) (hirq : e = .irq → s.flag .i = false) :
    HoldsFrame (s.p &&& ~~~0x10) s (serviceEvent cfg e s) ∧
      (∀ r, r ≠ .s → (serviceEvent cfg e s).reg r = s.reg r) ∧
      SameMemoryOutside [stackAddr s.sp, stackAddr (s.sp - 1), stackAddr (s.sp - 2)] s (serviceEvent cfg e s) := by
  obtain ⟨vector, setsI, h, h1, heq⟩ := interruptEntry_eq_takeInterrupt cfg (s := s.setPending none) hreset hirq
  have hframe := HoldsFrame.takeInterrupt h h1 (s.p &&& ~~~0x10) true setsI (s := s.setPending none) hmem
  have hchanges := (ChangesOnly.refl (flags := [.d, .i]) (s.setPending none)).takeInterrupt vector (s.p &&& ~~~0x10)
    true setsI
  have hstores := StoresOnly.takeInterrupt h h1 (s.p &&& ~~~0x10) true setsI (s.setPending none)
  rw [serviceEvent, heq]
  exact ⟨{ hframe with }, fun r hr => hchanges.reg r (by simpa using hr), .of_writtenAt hstores.mem hchanges.romPages⟩

/-- Settles O55: RTI pulls the frame that the entry has pushed, and stores nothing itself. -/
theorem rtiUndoesAnEntry : Obligations.RtiUndoesAnEntry := by
  intro s t u e hready hmem hpending hreset hirq hstep hrti
  have hservice : t = serviceEvent hardware e s := next_unique hstep (step_of_pending hready hpending)
  obtain ⟨⟨hhigh, hlow, hstatus, hsp⟩, hregs, houtside⟩ := hservice ▸ serviceEvent_holdsFrame hardware hmem hreset hirq
  obtain ⟨u', hrti', hp, hpc, hspReturn, -, hkeeps, hsame⟩ := (rtiRestoresStatusAndPc t).2
  obtain rfl := next_unique hrti hrti'
  have hsp1 : t.sp + 1 = s.sp - 2 := by rw [hsp]; bv_omega
  have hsp2 : t.sp + 2 = s.sp - 1 := by rw [hsp]; bv_omega
  have hsp3 : t.sp + 3 = s.sp := by rw [hsp]; bv_omega
  rw [hsp1, hstatus, BitVec.and_assoc, BitVec.and_self] at hp
  rw [hsp2, hsp3, hlow, hhigh, wordOf_lo_hi] at hpc
  have hreg {r : Reg} (hr : r ∈ [Reg.a, .x, .y]) : u.reg r = s.reg r :=
    (hkeeps.reg hr).trans (hregs r (by rintro rfl; simp at hr))
  exact ⟨hpc, hspReturn.trans hsp3, hp, hreg (r := .a) (by simp), hreg (r := .x) (by simp), hreg (r := .y) (by simp),
    fun a ha hs => (hsame a ha).trans (houtside a ha hs)⟩

end Sys2Proof.Machine
end

section
/-! SUPPORT. Transfers and flag operations (R320-R332): the run of an instruction that writes one flag, in its frame. -/

namespace Sys2Proof.Machine

/-- Settles O25: the transfers that set N and Z by `exec_setNZ` for their destination, and TXS by `exec_frame`. -/
theorem transfersCopyOneRegister : Obligations.TransfersCopyOneRegister := by
  intro s
  simp only [List.forall_mem_cons]
  refine ⟨⟨⟨rfl, exec_setNZ rfl rfl rfl⟩, ⟨rfl, exec_setNZ rfl rfl rfl⟩, ⟨rfl, exec_setNZ rfl rfl rfl⟩,
    ⟨rfl, exec_setNZ rfl rfl rfl⟩, ⟨rfl, exec_setNZ rfl rfl rfl⟩, by simp⟩, rfl, ?_⟩
  obtain ⟨hexec, hchanges, hmemory⟩ := exec_frame (i := .txs) (s := s) rfl rfl
  exact ⟨_, hexec, rfl, hchanges.keeps (by decide) (by decide), hmemory.sameMemory, rfl, rfl⟩

/-- An instruction whose operation writes one flag: every other flag, the registers and memory are as before, and PC
and CYC are where the fetch has put them. -/
theorem exec_setFlag {i : Instr} {f : Flag} {v : Bool} (s : State) (hwf : i.wf hardware = true := by rfl)
    (hop : operationOf hardware i (begun hardware i s) = (begun hardware i s).setFlag f v := by rfl)
    (hregs : registersWritten i = [] := by rfl) (hstored : storedAddresses i s = [] := by rfl) :
    ∃ t, exec i s = .next t ∧ (∀ g, t.flag g = if g = f then v else s.flag g) ∧ Keeps [.a, .x, .y, .s] [] s t ∧
      SameMemory s t ∧ FallsThrough i s t := by
  obtain ⟨hexec, hchanges, hmemory⟩ := exec_frame hwf hop
  exact ⟨_, hexec, fun g => State.flag_setFlag _ f g v, hchanges.keeps (by simp [hregs]) (by simp),
    SameMemoryOutside.sameMemory (hstored ▸ hmemory), rfl, rfl⟩

/-- Settles O26, each instruction by `exec_setFlag` for the flag it writes. -/
theorem flagOperationsWriteOneBit : Obligations.FlagOperationsWriteOneBit := by
  unfold Obligations.FlagOperationsWriteOneBit
  simp only [List.forall_mem_cons]
  exact ⟨fun s => ⟨rfl, exec_setFlag s⟩, fun s => ⟨rfl, exec_setFlag s⟩, fun s => ⟨rfl, exec_setFlag s⟩,
    fun s => ⟨rfl, exec_setFlag s⟩, fun s => ⟨rfl, exec_setFlag s⟩, fun s => ⟨rfl, exec_setFlag s⟩,
    fun s => ⟨rfl, exec_setFlag s⟩, by simp⟩

end Sys2Proof.Machine
end

section
/-! SUPPORT. Undocumented opcodes (R351-R360): the run of a read-modify-write composite, whose second operation acts on
the byte stored, and of an instruction that reads its operand and discards the value. -/

namespace Sys2Proof.Machine

/-- Settles O27: LAX reads its operand and writes it to A and X. -/
theorem laxLoadsAAndX : Obligations.LaxLoadsAAndX := by
  refine ⟨opcodesAre_of_byteFor, fun m s hwf => ?_⟩
  obtain ⟨n, hexec⟩ := exec_readClass (act := fun v t => setNZ v ((t.setA v).setX v)) hwf rfl
    (mode_ne_of_contains hwf) s
  exact ⟨_, hexec, rfl, rfl, nzFrom_setNZ _ _, frame_of_changesOnly (regs := [.a, .x]) (flags := [.n, .z])
    ((((ChangesOnly.refl _).setA _).setX _).setNZ _)⟩

/-! ## The read-modify-write composites (R350, R353-R358) -/

section

variable {i : Instr} {m : Operand} {compute : Byte → State → Byte × State} {s : State} {r p : Byte}

/-- A composite stores the byte `r` that its first operation computes, and its second operation acts on `r` in a state
with A as it was and C as the first operation has left it; nothing but what the two write changes. -/
theorem exec_composite {act : Byte → State → State} {rs : List Reg} {fs : List Flag} (hwf : i.wf hardware = true)
    (hop : operationOf hardware i = modifyClass m compute act) (hmem : Memory.wf s.mem = true)
    (hcompute : Computes compute (operandValue m s) s r p)
    (hrs : ∀ q ∈ rs, q ∉ registersWritten i) (hfs : ∀ f ∈ fs, f ∉ flagsWritten i)
    (hmodes : i.wf hardware = memoryModes.contains m.mode := by rfl)
    (hactMem : ∀ v t, (act v t).mem = t.mem := by intros; rfl)
    (hactPc : ∀ v t, (act v t).pc = t.pc := by intros; rfl)
    (hactCyc : ∀ v t, (act v t).cyc = t.cyc := by intros; rfl) :
    ∃ u, exec i s = .next (act r u) ∧ u.a = s.a ∧ u.flag .c = flagOf p .c ∧
      StoresByte (effAddr m s) r s (act r u) ∧ Keeps rs fs s (act r u) ∧ FallsThrough i s (act r u) := by
  have hmode := hmodes.symm.trans hwf
  obtain ⟨n, hexec⟩ := exec_modifyClass hwf hop (mode_ne_of_contains hmode) (mode_ne_of_contains hmode) hcompute
  rw [writeOperand_eq, if_neg (ChangesOnly.ne_acc_of_mode hmode)] at hexec
  have hchanges := exec_changesOnly hexec
  refine ⟨_, hexec, memWrite_a _ _ _, ?carry, ?stores, hchanges.keeps hrs hfs,
    (hactPc _ _).trans (memWrite_pc _ _ _), (hactCyc _ _).trans (memWrite_cyc _ _ _)⟩
  case carry => rw [memWrite_flag, State.flag_setP, flagOf_nzByte]; rfl
  case stores => exact .of_mem hmem ((hactMem _ _).trans (memWrite_mem_congr (by rfl) _ _)) hchanges.romPages

/-- A shift or a rotate followed by the logic operation `f` on A and the byte stored: N and Z come from A, and C from
the shift (R355-R357). -/
theorem exec_shiftThenLogic {f : Byte → Byte → Byte} {c : Bool} (hwf : i.wf hardware = true)
    (hop : operationOf hardware i = modifyClass m compute (fun v t => setNZ (f t.a v) (t.setA (f t.a v))))
    (hmem : Memory.wf s.mem = true) (hcompute : Computes compute (operandValue m s) s r (withFlag s.p .c c))
    (hmodes : i.wf hardware = memoryModes.contains m.mode := by rfl)
    (hregs : registersWritten i = [.a] := by rfl) (hflags : flagsWritten i = [.n, .z, .c] := by rfl) :
    ∃ t, exec i s = .next t ∧ StoresByte (effAddr m s) r s t ∧ t.a = f s.a r ∧ NZFrom (f s.a r) t ∧ t.flag .c = c ∧
      Keeps [.x, .y, .s] [.v, .r, .b, .d, .i] s t ∧ FallsThrough i s t := by
  obtain ⟨u, hexec, ha, hc, hstores, hkeeps, hfall⟩ := exec_composite (rs := [.x, .y, .s]) (fs := [.v, .r, .b, .d, .i])
    hwf hop hmem hcompute (by rw [hregs]; decide) (by rw [hflags]; decide) hmodes
  rw [flagOf_withFlag, if_pos rfl] at hc
  rw [← ha]
  exact ⟨_, hexec, hstores, rfl, nzFrom_setNZ _ _, by simpa using hc, hkeeps, hfall⟩

end

/-- Settles O28: DCP compares A with the byte decremented; ISC subtracts the byte incremented, with the C that the
increment has left as it was. -/
theorem dcpAndIscCompose : Obligations.DcpAndIscCompose := by
  refine ⟨opcodesAre_of_byteFor, opcodesAre_of_byteFor, fun m s hmem => ⟨fun hwf => ?_, fun hwf => ?_⟩⟩
  · have hcompute := computes_decrement (operandValue m s) s
    rw [← sub_one_eq_ofNat] at hcompute
    obtain ⟨u, hexec, ha, -, hstores, hframe⟩ := exec_composite (act := fun r t => compare t.a r t) hwf rfl hmem
      hcompute (rs := [.a, .x, .y, .s]) (fs := [.v, .r, .b, .d, .i]) (by simp [registersWritten])
      (by simp [flagsWritten])
    rw [← ha]
    exact ⟨_, hexec, hstores, compare_flag_c _ _ _, nzFrom_setNZ _ _, hframe⟩
  · have hcompute := computes_increment (operandValue m s) s
    rw [← add_one_eq_ofNat] at hcompute
    obtain ⟨u, hexec, ha, (hc : u.flag .c = s.flag .c), hstores, hframe⟩ := exec_composite (act := subWithBorrow) hwf
      rfl hmem hcompute (rs := [.x, .y, .s]) (fs := [.r, .b, .d, .i]) (by simp [registersWritten])
      (by simp [flagsWritten])
    rw [← ha, ← hc]
    exact ⟨_, hexec, hstores, rfl, subWithBorrow_flag_c _ _, subWithBorrow_flag_v _ _, nzFrom_setNZ _ _, hframe⟩

/-- Settles O29, each instruction by `exec_shiftThenLogic` for its shift and its logic operation. -/
theorem shiftThenLogicCompose : Obligations.ShiftThenLogicCompose := by
  refine ⟨opcodesAre_of_byteFor, opcodesAre_of_byteFor, opcodesAre_of_byteFor, fun m s hmem => ?_⟩
  simp only [List.forall_mem_cons]
  exact ⟨fun hwf => exec_shiftThenLogic (f := (· ||| ·)) hwf rfl hmem (computes_shiftLeft _ _),
    fun hwf => exec_shiftThenLogic (f := (· &&& ·)) hwf rfl hmem (computes_rotateLeft _ _),
    fun hwf => exec_shiftThenLogic (f := (· ^^^ ·)) hwf rfl hmem (computes_shiftRight _ _), by simp⟩

/-- Settles O30: RRA adds the byte rotated, with the C that the rotation has shifted out. -/
theorem rraAddsWithRorCarry : Obligations.RraAddsWithRorCarry := by
  refine ⟨opcodesAre_of_byteFor, fun m s hmem hwf => ?_⟩
  have hcompute := computes_rotateRight (operandValue m s) s
  obtain ⟨u, hexec, ha, hc, hstores, hframe⟩ := exec_composite (act := addWithCarry) hwf rfl hmem hcompute
    (rs := [.x, .y, .s]) (fs := [.r, .b, .d, .i]) (by simp [registersWritten]) (by simp [flagsWritten])
  rw [flagOf_withFlag, if_pos rfl] at hc
  dsimp only
  rw [← ha, ← hc]
  exact ⟨_, hexec, hstores, rfl, addWithCarry_flag_c _ _, addWithCarry_flag_v _ _, nzFrom_setNZ _ _, hframe⟩

/-! ## DOP and TOP (R359, R360) -/

/-- DOP and TOP have the opcode byte that they carry, exactly in the rows of their rule. -/
theorem byteIn_eq_some_self_iff {forms : List (Mode × Byte)} {op : Byte} {m : Mode} :
    byteIn forms op m = some op ↔ (m, op) ∈ forms :=
  ⟨fun h => (mem_of_byteIn h).2, fun h => if_pos (List.contains_iff_mem.2 h)⟩

/-- An operand listed with an opcode byte is in none of the modes that the list does not have. -/
theorem mode_ne_of_form {forms : List (Mode × Byte)} {m : Operand} {op : Byte} {k : Mode}
    (h : forms.contains (m.mode, op) = true) (hk : (forms.map (·.1)).contains k = false := by decide) : m.mode ≠ k :=
  mode_ne_of_contains
    (List.contains_iff_mem.2 (List.mem_map_of_mem (f := (·.1)) (List.contains_iff_mem.1 h))) hk

/-- Reading an operand other than A is one draw more where it is read from the open band (R81, R156). -/
theorem afterOperand_eq_setDraws {m : Operand} (hacc : m.mode ≠ .acc) (s : State) :
    afterOperand m s =
      s.setDraws (s.draws + if m.mode ≠ .imm ∧ regionOf (effAddr m s) = .openBand then 1 else 0) := by
  cases m
  case acc => exact absurd rfl hacc
  case imm => rfl
  all_goals simp [afterOperand, afterRead_eq, Operand.mode]

/-- An instruction that reads its operand and discards the value changes PC, CYC and the draw counter alone. -/
theorem exec_discardedRead {i : Instr} {m : Operand} (hwf : i.wf hardware = true)
    (hop : operationOf hardware i = readClass m (fun _ t => t)) (hacc : m.mode ≠ .acc) (hr : m.mode ≠ .rel)
    (s : State) :
    exec i s = .next { s with
      pc := s.pc + BitVec.ofNat 16 i.length
      cyc := costOf hardware i s
      draws := s.draws + (if m.mode ≠ .imm ∧ regionOf (effAddr m s) = .openBand then 1 else 0) } := by
  have hband : (m.mode ≠ .imm ∧ regionOf (effAddr m (begun hardware i s)) = .openBand) ↔
      (m.mode ≠ .imm ∧ regionOf (effAddr m s) = .openBand) :=
    and_congr_right fun hi => by rw [effAddr_begun m hardware i s hi hr]
  rw [exec_of_wf hwf, hop, readClass, afterOperand_eq_setDraws hacc, if_congr hband rfl rfl]
  rfl

/-- Settles O31: the opcode lists of the encoder are those of the rules, and both instructions discard what they
read. -/
theorem dopAndTopOnlyRead : Obligations.DopAndTopOnlyRead := by
  refine ⟨fun m op => byteIn_eq_some_self_iff, fun m op => byteIn_eq_some_self_iff, by decide, fun op m s => ?_⟩
  simp only [List.forall_mem_cons]
  exact ⟨fun hwf => exec_discardedRead hwf rfl (mode_ne_of_form hwf) (mode_ne_of_form hwf) s,
    fun hwf => exec_discardedRead hwf rfl (mode_ne_of_form hwf) (mode_ne_of_form hwf) s, by simp⟩

end Sys2Proof.Machine
end

section
/-! SUPPORT. Loads, stores and BIT (R390-R395, R352, R215): the run of an instruction that loads its operand into a
register, and of one that stores one byte. -/

namespace Sys2Proof.Machine

/-- A load writes its operand's value to the register `reg` and sets N and Z from it; what its rule does not name is as
before (R390-R392). -/
theorem exec_load {i : Instr} {m : Operand} {load : State → Byte → State} {reg : Reg} {rs : List Reg} {fs : List Flag}
    (hwf : i.wf hardware = true) (hop : operationOf hardware i = readClass m (fun v t => setNZ v (load t v)))
    (hr : m.mode ≠ .rel) (s : State) (hload : ∀ t v, (load t v).reg reg = v := by intros; rfl)
    (hrs : ∀ q ∈ rs, q ∉ registersWritten i := by simp [registersWritten])
    (hfs : ∀ f ∈ fs, f ∉ flagsWritten i := by simp [flagsWritten])
    (hmem : ∀ t v, (load t v).mem = t.mem := by intros; rfl) (hpc : ∀ t v, (load t v).pc = t.pc := by intros; rfl)
    (hcyc : ∀ t v, (load t v).cyc = t.cyc := by intros; rfl) :
    ∃ t, exec i s = .next t ∧ t.reg reg = operandValue m s ∧ NZFrom (operandValue m s) t ∧ Keeps rs fs s t ∧
      SameMemory s t ∧ FallsThrough i s t := by
  obtain ⟨n, hn⟩ := afterOperand_eq m (begun hardware i s)
  have hloaded : operationOf hardware i (begun hardware i s) =
      setNZ (operandValue m s) (load ((begun hardware i s).setDraws n) (operandValue m s)) := by
    rw [hop, readClass, operandValue_begun m hardware i s hr, hn]
  exact exec_setNZ hwf hloaded (hload _ _) hrs hfs (hmem _ _) (hpc _ _) (hcyc _ _)

/-- Settles O32, each instruction by `exec_load` for its register. -/
theorem loadsSetOneRegister : Obligations.LoadsSetOneRegister := by
  refine ⟨opcodesAre_of_byteFor, opcodesAre_of_byteFor, opcodesAre_of_byteFor, fun m s => ?_⟩
  simp only [List.forall_mem_cons]
  exact ⟨fun hwf => exec_load (load := State.setA) hwf rfl (mode_ne_of_contains hwf) s,
    fun hwf => exec_load (load := State.setX) hwf rfl (mode_ne_of_contains hwf) s,
    fun hwf => exec_load (load := State.setY) hwf rfl (mode_ne_of_contains hwf) s, by simp⟩

/-- A store writes its value at its effective address, which it does not read: it draws nothing, and it changes no
register and no flag (R393-R395, R352, R156). -/
theorem exec_store {i : Instr} {m : Operand} {value : State → Byte} {s : State} (hwf : i.wf hardware = true)
    (hop : operationOf hardware i = writeClass m value) (hmem : Memory.wf s.mem = true) (hi : m.mode ≠ .imm)
    (hr : m.mode ≠ .rel) (hvalue : value (begun hardware i s) = value s := by rfl)
    (hregs : registersWritten i = [] := by rfl) (hflags : flagsWritten i = [] := by rfl) :
    ∃ t, exec i s = .next t ∧ StoresByte (effAddr m s) (value s) s t ∧ t.draws = s.draws ∧
      Keeps [.a, .x, .y, .s] [.n, .v, .r, .b, .d, .i, .z, .c] s t ∧ FallsThrough i s t := by
  have hexec : exec i s = .next (memWrite (effAddr m s) (value s) (begun hardware i s)) := by
    rw [exec_of_wf hwf, hop, writeClass, effAddr_begun m hardware i s hi hr, hvalue]
  have hchanges := exec_changesOnly hexec
  exact ⟨_, hexec, .of_mem hmem (memWrite_mem_congr (begun_mem _ _ _) _ _) hchanges.romPages, memWrite_draws _ _ _,
    hchanges.keeps (by simp [hregs]) (by simp [hflags]), memWrite_pc _ _ _, memWrite_cyc _ _ _⟩

/-- Settles O33, each instruction by `exec_store` for the value it stores. -/
theorem storesWriteOneByte : Obligations.StoresWriteOneByte := by
  refine ⟨opcodesAre_of_byteFor, opcodesAre_of_byteFor, opcodesAre_of_byteFor, opcodesAre_of_byteFor,
    fun m s hmem => ?_⟩
  simp only [List.forall_mem_cons]
  exact ⟨fun hwf => exec_store hwf rfl hmem (mode_ne_of_contains hwf) (mode_ne_of_contains hwf),
    fun hwf => exec_store hwf rfl hmem (mode_ne_of_contains hwf) (mode_ne_of_contains hwf),
    fun hwf => exec_store hwf rfl hmem (mode_ne_of_contains hwf) (mode_ne_of_contains hwf),
    fun hwf => exec_store hwf rfl hmem (mode_ne_of_contains hwf) (mode_ne_of_contains hwf), by simp⟩

/-- The three flags that BIT writes (R215). -/
theorem bitTest_flags (m : Byte) (s : State) :
    (bitTest m s).flag .z = decide (s.a &&& m = 0) ∧ (bitTest m s).flag .n = m.getLsbD 7 ∧
      (bitTest m s).flag .v = m.getLsbD 6 := by
  simp only [bitTest, State.flag_setFlag]
  exact ⟨rfl, rfl, rfl⟩

/-- Settles O10: BIT reads its operand and writes the three flags of `bitTest_flags`. -/
theorem bitTestsTheOperand : Obligations.BitTestsTheOperand := by
  refine ⟨opcodesAre_of_byteFor, fun m s hwf => ?_⟩
  obtain ⟨n, hexec⟩ := exec_readClass hwf rfl (mode_ne_of_contains hwf) s
  obtain ⟨hz, hn, hv⟩ := bitTest_flags (operandValue m s) ((begun hardware (.bit m) s).setDraws n)
  exact ⟨_, hexec, hz, hn, hv, frame_of_changesOnly (.bitTest _ _)⟩

end Sys2Proof.Machine
end

section
/-! SUPPORT. What every step costs and that it is always possible (R150-R154, R410, R425, R429), and the draws of the
open band (R81): each read there is one, so a fetch makes one for each byte of the instruction in the band. -/

namespace Sys2Proof.Machine

/-! ## The cost of a step (R425) -/

/-- No opcode's base cost is less than 2 (R153). -/
theorem two_le_cycleCost (op : Byte) : 2 ≤ cycleCost op := by revert op; decide

/-- So no instruction costs less than 2 before a branch is taken. -/
theorem two_le_costOf {i : Instr} (hwf : i.wf hardware = true) (s : State) : 2 ≤ costOf hardware i s := by
  obtain ⟨op, hop⟩ := opcode_of_wf hwf
  rw [costOf, hop]
  exact (two_le_cycleCost op).trans (Nat.le_add_right _ _)

/-- Taking a branch only adds to CYC (R270). -/
theorem le_branchIf_cyc (taken : State → Bool) (offset : Byte) (s : State) :
    s.cyc ≤ (branchIf taken offset s).cyc := by
  simp only [branchIf]
  split
  case isTrue => simp only [State.setPc_cyc, State.setCyc_cyc, Nat.add_assoc, Nat.le_add_right]
  case isFalse => exact le_rfl

/-- An operation never lowers CYC: a branch adds to it, and every other operation leaves it as it is. -/
theorem le_operationOf_cyc (cfg : Config) (i : Instr) (s : State) : s.cyc ≤ (operationOf cfg i s).cyc := by
  rcases operation_cases cfg i s with h | ⟨offset, taken, -, heq⟩
  · exact h.cyc.ge
  · rw [heq]; exact le_branchIf_cyc taken offset s

/-- An entry costs 7, and a dropped Irq 0 (R416-R419). -/
theorem interruptEntry_cyc (cfg : Config) (e : Event) (s : State) :
    (interruptEntry cfg e s).cyc = if e = .irq ∧ s.flag .i = true then 0 else 7 := by
  cases e
  case reset | nmi => rfl
  case irq =>
    simp only [interruptEntry, true_and]
    split <;> rfl

/-- The operand of a branch is in relative mode (R270). -/
theorem mode_of_branch {i : Instr} {offset : Byte} (h : i ∈ branches offset) : i.operand.mode = .rel := by
  simp only [branches, List.mem_cons, List.not_mem_nil, or_false] at h
  rcases h with rfl | rfl | rfl | rfl | rfl | rfl | rfl | rfl <;> rfl

/-- An instruction that is no branch costs its base cost and its page penalty, under any parameters (R152, R154). -/
theorem execWith_cyc {cfg : Config} {i : Instr} {s t : State} (h : execWith cfg i s = .next t)
    (hr : i.operand.mode ≠ .rel) : t.cyc = costOf cfg i s := by
  obtain ⟨-, rfl⟩ := execWith_next h
  rcases operation_cases cfg i (begun cfg i s) with hstores | ⟨offset, -, hi, -⟩
  · exact hstores.cyc
  · exact absurd (mode_of_branch hi) hr

/-- Settles O40: the service of an event by `interruptEntry_cyc`; an instruction by the least base cost and by
`step_cyc_le`. -/
theorem stepCostsAtMostEight : Obligations.StepCostsAtMostEight := by
  refine ⟨fun s t h => ?_, fun _ _ _ _ => execWith_cyc⟩
  obtain ⟨-, -, ⟨e, he, rfl⟩ | ⟨hnone, i, n, hwf, -, rfl⟩⟩ := step_cases h
  · have hcyc : (serviceEvent hardware e s).cyc = _ := interruptEntry_cyc hardware e (s.setPending none)
    rw [he]
    cases e
    case reset | nmi => exact hcyc
    case irq => simpa using hcyc
  · rw [hnone]
    exact ⟨(two_le_costOf hwf _).trans (le_operationOf_cyc hardware i (begun hardware i _)), step_cyc_le h⟩

/-! ## A step is always possible (R410, R429) -/

/-- A ready machine has a next state under any parameters: the event's service is total, and the instruction fetched is
well formed. It is ready again, since a step keeps the session and the page count. -/
theorem stepWith_ready (cfg : Config) {s : State} (hready : Ready s) : ∃ t, stepWith cfg s = .next t ∧ Ready t := by
  have hnext : ∃ t, stepWith cfg s = .next t := by
    cases hp : s.pending with
    | some e => exact ⟨_, stepWith_of_pending cfg hready hp⟩
    | none => exact ⟨_, (stepWith_of_ready cfg hready hp).trans (execWith_of_wf (fetchInstr_spec cfg s).1 _)⟩
  obtain ⟨t, ht⟩ := hnext
  have hkeeps := stepWith_keepsMachine ht
  exact ⟨t, ht, hkeeps.session.trans hready.1, hkeeps.romPages ▸ hready.2⟩

/-- Settles O44, by `stepWith_ready`, also at the defaults, and `execWith_of_wf`. -/
theorem stepIsAlwaysPossible : Obligations.StepIsAlwaysPossible :=
  ⟨fun s hready => step_eq_stepWith s ▸ stepWith_ready hardware hready,
    fun cfg s => ⟨stepWith_ready cfg, fun _ hwf => ⟨_, execWith_of_wf hwf s⟩⟩⟩

/-! ## The open band (R81) -/

theorem regionOf_openBand {a : Word} (h : 0x4000 ≤ a.toNat) (h' : a.toNat < 0x4020) : regionOf a = .openBand := by
  rw [regionOf, if_neg (by omega), if_neg (by omega), if_pos h']

/-- A fetch draws once for each byte of the instruction it makes that lies in the open band, and changes nothing else
(R92, R157). -/
theorem fetchInstr_snd (cfg : Config) (s : State) :
    (fetchInstr cfg s).2 = s.setDraws (s.draws + bandBytes s.pc (fetchInstr cfg s).1.length) := by
  have hlength : (fetchInstr cfg s).1.length = lengthOf cfg (s.peek s.pc) := (assemble_opcode cfg _ _ _).2
  rw [hlength]
  obtain hlen | hlen | hlen := lengthOf_cases cfg (s.peek s.pc) <;>
    simp [fetchInstr, memRead, hlen, afterRead_eq, bandBytes, BitVec.add_assoc, Nat.add_assoc, State.setDraws]

/-- Settles O42: the band's own decode, and the step as the meaning of the instruction fetched, on the state that
`fetchInstr_snd` gives. -/
theorem openBandReadsAreDraws : Obligations.OpenBandReadsAreDraws := by
  refine ⟨fun s a v h h' => ?_, fun s hready hnone => ?_⟩
  · have hregion := regionOf_openBand h h'
    exact ⟨by simp [memRead, State.peek, afterRead, hregion],
      memWrite_of_not_writable (by simp [writableCell, hregion]) v s⟩
  · obtain ⟨hwf, hop, -⟩ := fetchInstr_spec hardware s
    exact ⟨_, hwf, hop, by rw [step_of_ready hready hnone, fetchInstr_snd]⟩

end Sys2Proof.Machine
end

section
/-! SUPPORT. Exceptions (R410-R425): the latch over a list of requests, and what the service of each event leaves in the
registers, the flags and memory. -/

namespace Sys2Proof.Machine

/-! ## The latch (R412, R415) -/

/-- Settles O49, each row by evaluating the transition. -/
theorem latchTransition : Obligations.LatchTransition :=
  ⟨fun _ => rfl, fun _ => rfl, rfl, rfl, rfl, fun _ => rfl⟩

/-- The highest event of a list: Reset before Nmi before Irq (R415). -/
def highestEvent (requests : List Event) : Option Event :=
  if .reset ∈ requests then some .reset else if .nmi ∈ requests then some .nmi
    else if .irq ∈ requests then some .irq else none

/-- A latch that holds the highest event so far holds, after one more request, the highest of them all (R412). -/
theorem latchAfter_highestEvent (requests : List Event) (e : Event) :
    latchAfter (highestEvent requests) e = highestEvent (requests ++ [e]) := by
  by_cases hreset : Event.reset ∈ requests
  case pos => simp [highestEvent, hreset, latchAfter]
  by_cases hnmi : Event.nmi ∈ requests
  case pos => cases e <;> simp [highestEvent, hreset, hnmi, latchAfter]
  by_cases hirq : Event.irq ∈ requests <;> cases e <;> simp [highestEvent, hreset, hnmi, hirq, latchAfter]

/-- Settles O50, by induction on the requests from the last one back. -/
theorem latchHoldsTheHighestRequest : Obligations.LatchHoldsTheHighestRequest := by
  intro requests s hnone
  change _ = highestEvent requests
  induction requests using List.reverseRecOn with
  | nil => exact hnone
  | append_singleton requests e ih =>
    rw [List.foldl_append, ← latchAfter_highestEvent, ← ih]
    rfl

/-! ## The entries (R416-R419) -/

/-- Settles O51, by `enterReset_eq` on the state whose latch is clear. -/
theorem resetEntrySequence : Obligations.ResetEntrySequence := fun s => enterReset_eq (s.setPending none)

/-- Settles O54: with I set, the service of an Irq is the drop. -/
theorem irqIsDroppedWhenMasked : Obligations.IrqIsDroppedWhenMasked := by
  intro s hready hpending hmasked
  have hdrop : interruptEntry hardware .irq (s.setPending none) = dropIrq (s.setPending none) := if_pos hmasked
  rw [step_of_pending hready hpending, serviceEvent, hdrop]
  rfl

/-- An event whose entry takes an interrupt through a vector in PRG-ROM: D is cleared, I is set if asked, the other
flags stay, PC is the word at the vector, CYC is 7, and the latch is empty (R417, R418). -/
theorem serviceEvent_of_takeInterrupt {cfg : Config} {e : Event} {s : State} {vector : Word} {pushed : Byte}
    {setsI : Bool} (h : 0x8000 ≤ vector.toNat) (h1 : 0x8000 ≤ (vector + 1).toNat)
    (hentry : interruptEntry cfg e (s.setPending none) =
      (takeInterrupt vector pushed true setsI (s.setPending none)).setCyc 7) :
    (serviceEvent cfg e s).flag .d = false ∧
      (serviceEvent cfg e s).flag .i = (if setsI then true else s.flag .i) ∧
      (∀ f ∈ [Flag.n, .v, .r, .b, .z, .c], (serviceEvent cfg e s).flag f = s.flag f) ∧
      (serviceEvent cfg e s).pc = wordOf (s.peek vector) (s.peek (vector + 1)) ∧ (serviceEvent cfg e s).cyc = 7 ∧
      (serviceEvent cfg e s).pending = none := by
  have hpending : (serviceEvent cfg e s).pending = none := interruptEntry_pending cfg e (s.setPending none)
  obtain ⟨p, heq, hflags⟩ := takeInterrupt_eq vector h h1 pushed true setsI (s.setPending none)
  have hservice : serviceEvent cfg e s = _ := hentry.trans (congrArg (State.setCyc · 7) heq)
  have hflag (f : Flag) : (serviceEvent cfg e s).flag f = flagOf p f := by rw [hservice]; rfl
  refine ⟨by simp [hflag, hflags], by simp [hflag, hflags], ?_, by rw [hservice]; rfl, by rw [hservice]; rfl, hpending⟩
  simp [hflag, hflags]

/-- Settles O52: the frame by `serviceEvent_holdsFrame`, the rest by `serviceEvent_of_takeInterrupt` through the Nmi
vector. -/
theorem nmiEntrySequence : Obligations.NmiEntrySequence := by
  intro cfg s hmem
  obtain ⟨⟨hhigh, hlow, hstatus, hsp⟩, hregs, houtside⟩ :=
    serviceEvent_holdsFrame cfg (e := .nmi) hmem (by decide) (by simp)
  obtain ⟨hd, hi, hflags, hpc, hcyc, hpending⟩ :=
    serviceEvent_of_takeInterrupt (cfg := cfg) (e := .nmi) (s := s) (vector := nmiVector) (by decide) (by decide) rfl
  exact ⟨hhigh, hlow, hstatus, hsp, hd, hi, hflags, hpc, hcyc, hpending, hregs .a (by decide), hregs .x (by decide),
    hregs .y (by decide), houtside⟩

/-- Settles O53, as O52, through the Irq vector, which an Irq takes only with I clear. -/
theorem irqEntrySequence : Obligations.IrqEntrySequence := by
  intro cfg s hmem hclear
  have hentry : interruptEntry cfg .irq (s.setPending none) = enterIrq cfg (s.setPending none) :=
    if_neg (ne_true_of_eq_false hclear)
  obtain ⟨⟨hhigh, hlow, hstatus, hsp⟩, hregs, houtside⟩ :=
    serviceEvent_holdsFrame cfg (e := .irq) hmem (by decide) (fun _ => hclear)
  obtain ⟨hd, hi, hflags, hpc, hcyc, hpending⟩ :=
    serviceEvent_of_takeInterrupt (vector := irqVector) (by decide) (by decide) hentry
  rw [hclear] at hi
  exact ⟨hhigh, hlow, hstatus, hsp, hd, by simpa using hi, hflags, hpc, hcyc, hpending, hregs .a (by decide),
    hregs .x (by decide), hregs .y (by decide), houtside⟩

end Sys2Proof.Machine
end

section
/-! SUPPORT. Power-on, launch and the Reserved bit (R45, R87, R89, R460-R464): what the two initialisations answer in
each session, and what memory reads as after power-on. -/

namespace Sys2Proof.Machine

/-! ## The two initialisations -/

/-- The state that `powerOn` leaves (R460). -/
def poweredOn (prgRamInit : Memory) (s : State) : State :=
  { s with
    a := 0, x := 0, y := 0, sp := 0xFF, p := 0x34, pc := wordOf (s.peek 0xFFFC) (s.peek 0xFFFD), pending := none
    cyc := 7, session := .live, mem := powerOnMemory prgRamInit s.mem }

/-- Power-on keeps the image: PRG-ROM reads as loaded (R460, R85). -/
theorem peek_poweredOn_prgRom (prgRamInit : Memory) (s : State) {a : Word} (ha : regionOf a = .prgRom) :
    (poweredOn prgRamInit s).peek a = s.peek a := by
  simp only [State.peek, ha, poweredOn, powerOnMemory_read, if_pos (prgRomCell_ge s.romPages a)]

/-- PRG-RAM reads as PRG_RAM_INIT gives it (R460, R84). -/
theorem peek_poweredOn_prgRam (prgRamInit : Memory) (s : State) {a : Word} (ha : regionOf a = .prgRam) :
    (poweredOn prgRamInit s).peek a = prgRamInit.read (prgRamCell a) := by
  obtain ⟨hlo, hhi⟩ := prgRamCell_range a
  simp only [State.peek, ha, poweredOn, powerOnMemory_read, if_neg hhi.not_ge, if_pos hlo]

/-- Internal RAM reads 0 (R460, R79). -/
theorem peek_poweredOn_ram (prgRamInit : Memory) (s : State) {a : Word} (ha : regionOf a = .ram) :
    (poweredOn prgRamInit s).peek a = 0 := by
  have hcell := ramCell_lt a
  simp only [State.peek, ha, poweredOn, powerOnMemory_read]
  rw [if_neg (by omega), if_neg (by omega)]
  rfl

/-- Before an initialisation `powerOn` answers `poweredOn`, or refuses a malformed image (R460, R87). -/
theorem powerOn_of_beforeInit {s : State} (hs : s.session = .beforeInit) (prgRamInit : Memory) :
    powerOn prgRamInit s =
      if imageOk s.romPages (powerOnMemory prgRamInit s.mem) then .next (poweredOn prgRamInit s)
      else .refused .malformedImage := by
  have hband := vector_not_band resetVector (by decide)
  have hband1 := vector_not_band (resetVector + 1) (by decide)
  have hlow : (poweredOn prgRamInit s).peek 0xFFFC = s.peek 0xFFFC := peek_poweredOn_prgRom _ _ (by decide)
  have hhigh : (poweredOn prgRamInit s).peek 0xFFFD = s.peek 0xFFFD := peek_poweredOn_prgRom _ _ (by decide)
  simp only [powerOn, hs, readWord_of_not_band hband hband1]
  rw [poweredOn, ← hlow, ← hhigh]
  rfl

/-- A second initialisation is refused: `powerOn` by the spec (R460, R464), a launch by the model's choice (log 22). -/
theorem powerOn_of_live {s : State} (hs : s.session = .live) (prgRamInit : Memory) :
    powerOn prgRamInit s = .refused .secondPowerOn := by
  rw [powerOn, hs]

theorem launch_of_live {s : State} (hs : s.session = .live) (l : Launch) :
    launch l s = .refused .secondPowerOn := by
  rw [launch, hs]

/-- An image with no page is malformed (R87). -/
theorem imageOk_zero (m : Memory) : imageOk 0 m = false := rfl

/-- Settles O56: `powerOn` answers `poweredOn`, and each storage band reads as the lemma for it says. -/
theorem powerOnState : Obligations.PowerOnState := by
  refine ⟨fun prgRamInit s hs himage => ⟨poweredOn prgRamInit s, ?_, ?_⟩, fun prgRamInit s hs =>
    powerOn_of_live hs prgRamInit⟩
  · rw [powerOn_of_beforeInit hs, if_pos himage]
  · exact ⟨rfl, rfl, rfl, rfl, rfl, rfl, rfl, rfl, rfl, 
      fun a ha => peek_poweredOn_ram prgRamInit s (regionOf_ram ha), fun a => peek_poweredOn_prgRam prgRamInit s,
      fun a => peek_poweredOn_prgRom prgRamInit s⟩

/-- Settles O57: with a well-formed image a launch installs what it is given, in a live session. -/
theorem launchState : Obligations.LaunchState := by
  intro l s hs himage
  have hpages : l.romPages ≠ 0 := by
    intro hzero
    rw [hzero, imageOk_zero] at himage
    exact Bool.false_ne_true himage
  refine ⟨_, by rw [launch, hs]; exact if_pos himage, rfl, rfl, rfl, rfl, rfl, rfl, rfl, rfl, rfl, rfl, ⟨rfl, hpages⟩,
    powerOn_of_live rfl, launch_of_live rfl⟩

/-- Settles O45: each refusal by the session or the page count that its operation looks at first. -/
theorem refusalsOfTheSpec : Obligations.RefusalsOfTheSpec := by
  refine ⟨fun s hs => ⟨?_, ?_, fun _ => rfl⟩, fun file s hs => ?_, fun s hpages => ⟨fun hs prgRamInit => ?_,
    fun hs => ?_, fun l u hl hu => ?_⟩⟩
  · rw [step, stepBy, hs]
  · rw [observe, hs]
  · rw [insertCartridge, hs]
  · rw [powerOn_of_beforeInit hs, hpages, imageOk_zero]; rfl
  · rw [step, stepBy, hs, if_pos hpages]
  · rw [launch, hu, hl, imageOk_zero]; rfl

/-! ## Invariants of the reachable states -/

/-- Settles O47, by evaluating the invariant at the reset state. -/
theorem resetHasInv : Obligations.ResetHasInv := by
  unfold Obligations.ResetHasInv
  decide

/-- Settles O48, by induction on how the state is reached: both roots load P with the bit set, a step keeps it, and a
request changes the latch alone. -/
theorem reservedBitIsAlwaysSet : Obligations.ReservedBitIsAlwaysSet := by
  intro cfg s hreach
  induction hreach with
  | @powerOn prgRamInit s t h =>
    have hs : s.session = .beforeInit := by
      cases hs : s.session with
      | beforeInit => rfl
      | live => rw [powerOn_of_live hs] at h; cases h
    rw [powerOn_of_beforeInit hs] at h
    split at h
    case isTrue => cases h; exact (by decide : flagOf 0x34 .r = true)
    case isFalse => cases h
  | resetEntry s => rw [enterReset_eq]; exact (by decide : flagOf 0x22 .r = true)
  | step hs h ih => exact (stepWith_keepsMachine h).reserved ih
  | request hs e ih => exact ih

end Sys2Proof.Machine
end
